-- ==== Sys2Proof/Word.lean ====
section
/-! DEFINITION. The word types of the PROM-reader socket block (spec/00_scope.md R10, R12, R13) and their
plainest arithmetic. -/

namespace Sys2Proof

/-- A request word on the request port: `op[39:32]`, `arg[31:0]` (R81, R83; `REQ_BITS = 40`). -/
abbrev ReqWord := BitVec 40

/-- A response word on the request port: `status[39:32]`, `val[31:0]` (R81, R89). -/
abbrev RespWord := BitVec 40

/-- A request's operand, and a linear address (`ARG_BITS = 32`, R12). -/
abbrev Arg := BitVec 32

/-- A byte (R13, R61). -/
abbrev Byte := BitVec 8

/-- A level on a pin, and a direction bit: `true` is 1 (high; output), `false` is 0 (low; input) (R15, R20, R26). -/
abbrev Level := Bool

/-- `ZIF_PINS`: the physical socket positions are numbered 1 to 40 (R10). -/
abbrev zifPins : Nat := 40

/-- `NA_MAX`: the most entries an address-pin list may have (R12). -/
abbrev naMax : Nat := 32

/-- `ND_MAX`: the largest `data_width` admitted (R12). -/
abbrev ndMax : Nat := 8

/-- One bit for each of the 40 physical pins: what `dir[p]` and `lvl[p]` are kept in (R20).
Pin `p` of 1..40 stands at index `p - 1`. -/
abbrev PinFile := Vector Level zifPins

end Sys2Proof
end

