-- ==== Sys2Proof/Config.lean ====
section
/-! DEFINITION. What is fixed when the block is built (spec/00_scope.md R10 to R12): the chip profile record
(spec/41_catalog_select.md R141), the parameters, the parameter values the spec's own vectors use, and the one
free value of the model, the level a seated target answers (spec/20_memory.md R66).

CONVENTIONS. DESIGN CHOICE (log 1): the parameters stand in a field of State that no operation writes, so that
every statement holds for every value of them. -/

namespace Sys2Proof

/-- The four kinds of delay the delay port carries (R96, R316). -/
inductive DelayKind
  | settle
  | prop
  | ispEdge
  | ispSettle
  deriving DecidableEq, Repr

/-- An event of the trace `T` (R15): a call on the GPIO port or a delay.
`p` is a physical pin 1..40, `o` a direction (1 = output), `l` a level. -/
inductive Event
  | dir (p : Nat) (o : Level)
  | drv (p : Nat) (l : Level)
  | smp (p : Nat) (l : Level)
  | dly (k : DelayKind)
  deriving DecidableEq, Repr

/-- The profile record `ChipProfile` (R141). Pin lists hold package pins, 0 meaning "unused".
`options` is the 8-bit set of R32: bit 0 `OPT_PULLUP`, bit 1 `OPT_LATCH`. `vcc` and `gnd` are read by no rule. -/
structure Profile where
  name : String
  pins : Nat
  addrWidth : Nat
  dataWidth : Nat
  addrPins : List Nat
  dataPins : List Nat
  hiPins : List Nat
  loPins : List Nat
  options : BitVec 8
  vcc : Nat
  gnd : Nat
  deriving DecidableEq, Repr

/-- The parameters of the model: the catalog (R12, R33, R140), the source's constants (R10) and the parameters the
source names without a value (R11). A duration the source gives no value for is `none` until a builder names one. -/
structure Config where
  /-- `CATALOG`, the ordered read-only collection of profiles. -/
  catalog : List Profile
  /-- `N_SAMPLES`, most byte samples one parallel read takes. -/
  nSamples : Nat
  /-- `SETTLE_MS`. -/
  settleMs : Nat
  /-- `ISP_SETTLE_MS`, a lower bound. -/
  ispSettleMs : Nat
  /-- `PROP_SPIN`, OPEN. -/
  propSpin : Option Nat
  /-- `ISP_EDGE_US`, OPEN. -/
  ispEdgeUs : Option Nat
  /-- `ISP_BIT_CYCLES`, OPEN. -/
  ispBitCycles : Nat
  /-- `ISP_RST_CYCLES`, OPEN. -/
  ispRstCycles : Nat
  /-- `ISP_HANDSHAKE[0..3]`, OPEN. -/
  ispHandshake : Vector Byte 4
  /-- `ISP_SENTINEL`, OPEN. -/
  ispSentinel : Byte
  /-- `ISP_READ_BASE`, OPEN. -/
  ispReadBase : Byte
  /-- `ISP_READ_HBIT`, OPEN. -/
  ispReadHbit : Byte
  /-- `ISP_DUMMY`. -/
  ispDummy : Byte
  deriving DecidableEq, Repr

/-- THE FREE VALUE: the level a seated chip answers to a sample of pin `p`, for the oracle of R66, which "may see
the whole trace so far, the registers dir and lvl, and p". `seed` tells one target, and one hidden state of a
target, from another. It has no body: nothing can be proved about what it answers. (log 2) -/
opaque Config.targetLevel (seed : Nat) (trace : List Event) (dir lvl : PinFile) (p : Nat) : Level

/-- The safe profile of index 0 (R148): no list has an entry, parallel flavour. DESIGN CHOICE (log 15): `vcc` and `gnd`,
which the spec gives no fixture, are 0 in every profile here. -/
def Config.safeProfile : Profile :=
  { name := "none", pins := 40, addrWidth := 0, dataWidth := 8, addrPins := [], dataPins := [],
    hiPins := [], loPins := [], options := 0x00#8, vcc := 0, gnd := 0 }

/-- F28 of the fixture catalog (spec/95_test_vectors.md section 2). -/
def Config.f28 : Profile :=
  { name := "F28", pins := 28, addrWidth := 15, dataWidth := 8,
    addrPins := [10, 9, 8, 7, 6, 5, 4, 3, 25, 24, 21, 23, 2, 26, 27],
    dataPins := [11, 12, 13, 15, 16, 17, 18, 19], hiPins := [28, 1], loPins := [14, 20, 22],
    options := 0x00#8, vcc := 0, gnd := 0 }

/-- F16 of the fixture catalog: pull-ups on. -/
def Config.f16 : Profile :=
  { name := "F16", pins := 16, addrWidth := 5, dataWidth := 8, addrPins := [10, 11, 12, 13, 14],
    dataPins := [1, 2, 3, 4, 5, 6, 7, 9], hiPins := [16], loPins := [8, 15],
    options := 0x01#8, vcc := 0, gnd := 0 }

/-- FISP20 of the fixture catalog: an ISP profile. -/
def Config.fisp20 : Profile :=
  { name := "FISP20", pins := 20, addrWidth := 13, dataWidth := 0, addrPins := [19, 17, 1, 5],
    dataPins := [18], hiPins := [20], loPins := [10], options := 0x00#8, vcc := 0, gnd := 0 }

/-- FLATCH of the fixture catalog: F28 with `OPT_LATCH` set. -/
def Config.flatch : Profile :=
  { Config.f28 with name := "FLATCH", options := 0x02#8 }

/-- F16N of the fixture catalog: a 4-bit data bus. -/
def Config.f16n : Profile :=
  { name := "F16N", pins := 16, addrWidth := 8, dataWidth := 4, addrPins := [5, 6, 7, 4, 3, 2, 1, 15],
    dataPins := [12, 11, 10, 9], hiPins := [16], loPins := [8, 13, 14],
    options := 0x01#8, vcc := 0, gnd := 0 }

/-- The six-profile fixture catalog of spec/95_test_vectors.md section 2. -/
def Config.fixtureCatalog : List Profile :=
  [Config.safeProfile, Config.f28, Config.f16, Config.fisp20, Config.flatch, Config.f16n]

/-- The parameter values of the spec's own vectors: R10's constants, R11's column "default in this spec's vectors"
and the fixture catalog. DESIGN CHOICE (log 3): the machine right after reset is built with these. The catalog is
the spec's fixture and no chip's; the ISP byte values are the spec's "from general knowledge, not in source": PRESUMED
(log 8). DESIGN CHOICE (log 14): the two durations without a value are `none`.
No statement about the machine takes these values for granted. -/
def Config.standard : Config :=
  { catalog := Config.fixtureCatalog
    nSamples := 8
    settleMs := 250
    ispSettleMs := 20
    propSpin := none
    ispEdgeUs := none
    ispBitCycles := 1
    ispRstCycles := 2
    ispHandshake := #v[0xAC#8, 0x53#8, 0x00#8, 0x00#8]
    ispSentinel := 0x53#8
    ispReadBase := 0x20#8
    ispReadHbit := 0x08#8
    ispDummy := 0x00#8 }

end Sys2Proof
end

