-- ==== Sys2Proof/Syntax.lean ====
section
/-! DEFINITION. The eight operations of the request port (spec/30_encoding.md R85, spec/opcode_table.json), one
constructor per row. -/

namespace Sys2Proof

/-- A request. Operands are unsigned numbers taken from the low bits of `arg` (R84): a count, an index or a pin number
is a natural, an address or a byte is a bit vector. -/
inductive Instr
  /-- Make all 40 pins undriven inputs (R170). -/
  | tristate
  /-- Make `idx` the active profile (R150). -/
  | select (idx : Nat)
  /-- Configure the socket for the active profile, with the ISP entry if it is an ISP profile (R160). -/
  | setup
  /-- Read one byte, parallel or ISP by flavour (R180). -/
  | read (addr : Arg)
  /-- Run the ISP entry sequence again (R210). -/
  | ispProbe
  /-- Exchange one byte on the serial link (R207). -/
  | ispXfer (byte : Byte)
  /-- `n` cycles of the auxiliary clock (R203). -/
  | ispClock (n : Nat)
  /-- Return `translate(P, k)` (R128). -/
  | xlate (k : Nat)
  deriving DecidableEq, Repr

/-- The row's mnemonic (R85, R105). -/
def Instr.mnemonic : Instr → String
  | .tristate => "TRISTATE"
  | .select _ => "SELECT"
  | .setup => "SETUP"
  | .read _ => "READ"
  | .ispProbe => "ISP_PROBE"
  | .ispXfer _ => "ISP_XFER"
  | .ispClock _ => "ISP_CLOCK"
  | .xlate _ => "XLATE"

end Sys2Proof
end

