-- ==== Sys2Proof/Machine/State.lean ====
section
/-! DEFINITION. The state of the block as plain data (spec/10_state.md R20 to R40, spec/70_reset_and_hazards.md R300):
the four registers, the trace `T` and the `refused` mark of the model, the request port, the seated target, and the
parameters the block was built with. -/

namespace Sys2Proof.Machine

/-- The Sequencing Engine's state (R20). -/
inductive SeqState
  | tristate
  | configuring
  | ready
  | ispHandshake
  | faulted
  deriving DecidableEq, Repr

/-- The status of a response (R90). -/
inductive Status
  | ok
  | errOp
  | errRange
  | errState
  | ispFail
  | errUnsup
  deriving DecidableEq, Repr

/-- A response, before it is packed into a response word (R89). -/
structure Response where
  status : Status
  val : BitVec 32
  deriving DecidableEq, Repr

/-- A byte memory as (address, byte) pairs in one canonical form (`Memory.wf`, Machine/Target.lean). The block has no
memory of its own (R50): this is the contents of a seated chip in the fixture target of R67. -/
abbrev Memory := List Host.Cell

/-- The target, the chip seated in the socket: what answers `sample` (R9, R65, R66).
`free` is the target of the spec: any level may be answered to any sample. The other two are the spec's named
oracles, a premise of the claims that use them (R67, R68). -/
inductive Target
  /-- The unconstrained oracle (R66): the free value `Config.targetLevel`. -/
  | free (seed : Nat)
  /-- `Script(s)` (R68): the listed levels in order, then 0. -/
  | script (levels : List Level)
  /-- `IdealRom(M)` (R67). -/
  | idealRom (contents : Memory)
  deriving DecidableEq, Repr

/-- Why the machine stops. The block itself never halts (R282): no request stops a machine whose `sel` names a profile. -/
inductive Fault
  /-- `sel` is no index of the catalog, so that there is no active profile `P`. Raised by SETUP, READ, ISP_PROBE,
  ISP_XFER, ISP_CLOCK and XLATE when they read `P`. SAFE: R20 and R41 (b) give `sel < N_PROFILES` in every state a
  run reaches from a well-formed reset, and the spec gives no behaviour elsewhere. -/
  | noActiveProfile
  deriving DecidableEq, Repr

/-- Why an instruction has no meaning. -/
inductive Refusal
  /-- The model has no meaning for the instruction yet. Raised by no arm of `exec`: all eight are modelled. SAFE. -/
  | notModelled (mnemonic : String)
  deriving DecidableEq, Repr

/-- The machine. -/
structure State where
  /-- `st`, the sequencer state (R20). -/
  st : SeqState
  /-- `sel`, the index of the active profile (R20, R21). -/
  sel : Nat
  /-- `dir[p]`: 0 is input, 1 is output (R20, R26). -/
  dir : PinFile
  /-- `lvl[p]`: the level latch (R20, R26). -/
  lvl : PinFile
  /-- The trace `T`, oldest event first (R15). Model bookkeeping: no rule of the block reads it. -/
  trace : List Event
  /-- The `refused` mark (R35), never cleared. Model bookkeeping. -/
  refused : Bool
  /-- The request port's input: the words the caller presents, the next one first; `[]` is the idle port (R81, R82). -/
  requests : List ReqWord
  /-- The request port's output: the responses presented so far, oldest first (R81, R89). -/
  responses : List Response
  /-- What is seated in the socket (R9, R66). -/
  target : Target
  /-- The parameters (R10 to R12). No operation writes them. -/
  cfg : Config
  deriving DecidableEq, Repr

/-- What a step of the machine answers. -/
abbrev Out := Host.Outcome State Fault Refusal

/-- The state after reset of a block built with the parameters `cfg` and the target `tgt` seated (R40, R300). `sel = 0` and
pins already undriven at power-on are the spec's own decision D20 (log 10). -/
def State.resetWith (cfg : Config) (tgt : Target) : State :=
  { st := .tristate
    sel := 0
    dir := Vector.replicate zifPins false
    lvl := Vector.replicate zifPins false
    trace := []
    refused := false
    requests := []
    responses := []
    target := tgt
    cfg := cfg }

/-- The machine right after reset (R40, R300). DESIGN CHOICE (log 3): built with the parameter values of the spec's
vectors. DESIGN CHOICE (log 2): a target of the unconstrained oracle is seated. -/
def State.reset : State := State.resetWith Config.standard (.free 0)

end Sys2Proof.Machine
end

