-- ==== Sys2Proof/Machine/Operands.lean ====
section
/-! DEFINITION. What a request's operands and a profile's pin lists name: the Socket Pin Translator
(spec/40_translator.md R120), list entries (`nth`, spec/00_scope.md R14), the profile's options (spec/10_state.md R32),
its flavour (R25) and the ISP roles (spec/44_isp_engine.md R200). -/

namespace Sys2Proof.Machine

/-- `nth(L, i)`: entry `i` of the list counted from 0, or 0 beyond its end (R14). -/
def nth (L : List Nat) (i : Nat) : Nat := L.getD i 0

/-- `translate(P, k)`: package pin to physical pin, `none` being the sentinel `NONE` (R120). -/
def translatePin (P : Profile) (k : Nat) : Option Nat :=
  if k = 0 then none
  else if k ≤ P.pins / 2 then some k
  else some (k + (zifPins - P.pins))

/-- A physical pin as XLATE's `val` carries it: `NONE` is 0 (R91, R99). -/
def pinNumber : Option Nat → Nat
  | none => 0
  | some p => p

/-- `OPT_PULLUP`, bit 0 of the options (R32). -/
def optPullup (P : Profile) : Bool := P.options.getLsbD 0

/-- `OPT_LATCH`, bit 1 of the options (R32). -/
def optLatch (P : Profile) : Bool := P.options.getLsbD 1

/-- `isp(sel)`: the profile has the ISP flavour (R25). -/
def isIsp (P : Profile) : Bool := P.dataWidth == 0

/-- Serial-clock, slot 0 of the address list (R200). -/
def roleSck (P : Profile) : Nat := nth P.addrPins 0

/-- Serial-data-out, block to target, slot 1 of the address list (R200). -/
def roleSdo (P : Profile) : Nat := nth P.addrPins 1

/-- Reset, slot 2 of the address list (R200). -/
def roleRst (P : Profile) : Nat := nth P.addrPins 2

/-- Auxiliary-clock, slot 3 of the address list (R200). -/
def roleXclk (P : Profile) : Nat := nth P.addrPins 3

/-- Serial-data-in, target to block, slot 0 of the data list (R200). -/
def roleSdi (P : Profile) : Nat := nth P.dataPins 0

/-- The package pins one parallel pass samples, in order: the first `data_width` entries of the data list (R183). -/
def passPins (P : Profile) : List Nat := (List.range P.dataWidth).map (nth P.dataPins)

/-- The bits of a byte in the order the serial link sends them: bit 7 first (R58, R206). -/
def bitsMsbFirst (b : Byte) : List Level :=
  [b.getLsbD 7, b.getLsbD 6, b.getLsbD 5, b.getLsbD 4, b.getLsbD 3, b.getLsbD 2, b.getLsbD 1, b.getLsbD 0]

/-- The bits of a byte, bit 0 first (R57, R68). -/
def bitsLsbFirst (b : Byte) : List Level :=
  [b.getLsbD 0, b.getLsbD 1, b.getLsbD 2, b.getLsbD 3, b.getLsbD 4, b.getLsbD 5, b.getLsbD 6, b.getLsbD 7]

/-- A level as a byte, 0 or 1. -/
def levelByte (l : Level) : Byte := if l then 1#8 else 0#8

/-- `(b >> 1) | (s << 7)`: right-shift and insert at the top (R183). For a bus narrower than 8 bits the byte comes out
left-justified, which the spec itself infers from this mechanism (C3, U16): DEDUCED (log 13). -/
def insertTop (b : Byte) (l : Level) : Byte := (b >>> 1) ||| (levelByte l <<< 7)

/-- `(r << 1) | s`: left-shift and insert at the bottom (R206). -/
def insertBottom (r : Byte) (l : Level) : Byte := (r <<< 1) ||| levelByte l

/-- Byte 0 of the memory read frame: the opcode byte with bit 12 of the address (R100, R212). -/
def readOpcode (cfg : Config) (addr : Arg) : Byte :=
  cfg.ispReadBase ||| (if addr.getLsbD 12 then cfg.ispReadHbit else 0x00#8)

/-- Byte 1 of the memory read frame: `zext_8(a[11:8])` (R100, R212). -/
def readMiddle (addr : Arg) : Byte := (addr.extractLsb' 8 4).setWidth 8

/-- Byte 2 of the memory read frame: `a[7:0]` (R100, R212). -/
def readLow (addr : Arg) : Byte := addr.extractLsb' 0 8

end Sys2Proof.Machine
end

