-- ==== Sys2Proof/Machine/Target.lean ====
section
/-! DEFINITION. The target's side of the GPIO port: the contents of a seated memory chip as plain data, and the level
a target answers to a sample (spec/20_memory.md R65 to R68). -/

namespace Sys2Proof.Machine

/-- What an unlisted address of a seated chip's contents reads as. DESIGN CHOICE (log 4): the contents are a fixture of
R67's claims and tests; the block itself holds no memory. -/
def Memory.unlisted : Byte := 0x00#8

/-- `M(a)`. -/
def Memory.read (m : Memory) (a : Nat) : Byte :=
  match m with
  | [] => Memory.unlisted
  | c :: rest => if c.1 = a then c.2 else Memory.read rest a

/-- `M` with the byte at `a` replaced, in canonical form. It builds the contents of a chip: no request of the block
writes the target (R14). -/
def Memory.write (m : Memory) (a : Nat) (b : Byte) : Memory :=
  match m with
  | [] => if b = Memory.unlisted then [] else [(a, b)]
  | c :: rest =>
    if a < c.1 then (if b = Memory.unlisted then c :: rest else (a, b) :: c :: rest)
    else if c.1 = a then (if b = Memory.unlisted then rest else (a, b) :: rest)
    else c :: Memory.write rest a b

/-- Every address from `lo` on rises strictly and no entry equals what an unlisted address reads as. -/
def Memory.wfFrom (lo : Nat) (m : Memory) : Bool :=
  match m with
  | [] => true
  | c :: rest => decide (lo ≤ c.1) && decide (c.2 ≠ Memory.unlisted) && Memory.wfFrom (c.1 + 1) rest

/-- The canonical form: equal contents are equal lists. -/
def Memory.wf (m : Memory) : Bool := Memory.wfFrom 0 m

/-- `dir[p]` or `lvl[p]` of a pin file; 0 outside 1..40, where there is no pin (R51): DESIGN CHOICE (log 11), met in no run
of a well-formed catalog (R30). -/
def PinFile.get (f : PinFile) (p : Nat) : Level :=
  match p with
  | 0 => false
  | n + 1 => f[n]?.getD false

/-- The pin file with `dir[p]` or `lvl[p]` written; no pin is written outside 1..40 (R51). -/
def PinFile.set (f : PinFile) (p : Nat) (v : Level) : PinFile :=
  match p with
  | 0 => f
  | n + 1 => f.setIfInBounds n v

/-- The address bit `j` an `IdealRom` sees: the pin of entry `k` of the address list, driven high by the block (R67). -/
def romAddrBit (P : Profile) (dir lvl : PinFile) (k : Nat) : Bool :=
  match translatePin P k with
  | none => false
  | some q => PinFile.get dir q && PinFile.get lvl q

/-- The address an `IdealRom` sees: the sum of `2^j` over the address pins driven high, `j` from the given index on
(R67). -/
def romAddrFrom (P : Profile) (dir lvl : PinFile) (j : Nat) (ks : List Nat) : Nat :=
  match ks with
  | [] => 0
  | k :: rest => (if romAddrBit P dir lvl k then 2 ^ j else 0) + romAddrFrom P dir lvl (j + 1) rest

/-- The level an `IdealRom(M)` answers at pin `p`: bit `i` of `M(a)` for the data pin of index `i < data_width`, 0 at any
other pin (R67). `i` runs over the listed indexes, the first match counts. -/
def romLevelAt (P : Profile) (b : Byte) (p : Nat) (is : List Nat) : Level :=
  match is with
  | [] => false
  | i :: rest => if translatePin P (nth P.dataPins i) = some p then b.getLsbD i else romLevelAt P b p rest

/-- `IdealRom(M)` (R67). It reads the active profile's pin lists and the block's own pins. -/
def romLevel (P : Profile) (m : Memory) (dir lvl : PinFile) (p : Nat) : Level :=
  romLevelAt P (Memory.read m (romAddrFrom P dir lvl 0 P.addrPins)) p (List.range P.dataWidth)

/-- The level the target answers to a sample of `p` in state `s`, and the target after it (R66 to R68). A script is used
up level by level and answers 0 from then on. With no active profile an `IdealRom` has no pins and answers 0:
DESIGN CHOICE (log 12). -/
def Target.answer (s : State) (p : Nat) : Level × Target :=
  match s.target with
  | .free seed => (Config.targetLevel seed s.trace s.dir s.lvl p, .free seed)
  | .script [] => (false, .script [])
  | .script (l :: rest) => (l, .script rest)
  | .idealRom m =>
    match s.cfg.catalog[s.sel]? with
    | some P => (romLevel P m s.dir s.lvl p, .idealRom m)
    | none => (false, .idealRom m)

/-- `ScriptBytes(b)` for parallel passes over an 8-bit profile: bit 0 of each byte first (R68). -/
def parallelScript (bytes : List Byte) : Target := .script (bytes.flatMap bitsLsbFirst)

/-- `ScriptBytes(b)` for ISP exchanges: bit 7 of each byte first (R68). -/
def ispScript (bytes : List Byte) : Target := .script (bytes.flatMap bitsMsbFirst)

end Sys2Proof.Machine
end

