-- ==== Sys2Proof/Machine/Ops.lean ====
section
/-! DEFINITION. The operations the meanings share: the three calls of the GPIO port (spec/10_state.md R27 to R29), the
delay port (spec/30_encoding.md R96), the four pin primitives (spec/40_translator.md R124 to R127), the response to a
request, and `raise` (spec/60_exceptions.md R271), the one way a request is turned away. There is no trap entry and no
return from one (R281, R282).

Every procedure that reads the active profile takes it as the argument `P`; `State.withProfile` is the one place that
looks it up, as `CATALOG[sel]` at that moment (R21). -/

namespace Sys2Proof.Machine

/-- `dir[p]`. -/
def State.dirOf (s : State) (p : Nat) : Level := PinFile.get s.dir p

/-- `lvl[p]`. -/
def State.lvlOf (s : State) (p : Nat) : Level := PinFile.get s.lvl p

/-- `st <- S` (R14). -/
def State.setSt (s : State) (v : SeqState) : State := { s with st := v }

/-- Append an event to the trace (R15). -/
def State.emit (s : State) (e : Event) : State := { s with trace := s.trace ++ [e] }

/-- `set_direction(p, o)`: `dir[p] <- o`, `lvl[p]` unchanged (R27). -/
def State.setDirection (s : State) (p : Nat) (o : Level) : State :=
  { s with dir := PinFile.set s.dir p o, trace := s.trace ++ [.dir p o] }

/-- `drive(p, l)`: `lvl[p] <- l`, `dir[p]` unchanged (R28). -/
def State.drive (s : State) (p : Nat) (l : Level) : State :=
  { s with lvl := PinFile.set s.lvl p l, trace := s.trace ++ [.drv p l] }

/-- `sample(p) -> l`: ask the target, record the answer; no register changes (R29). -/
def State.sample (s : State) (p : Nat) : Level × State :=
  ((Target.answer s p).1,
    { s with target := (Target.answer s p).2, trace := s.trace ++ [.smp p (Target.answer s p).1] })

/-- `delay(K)`: an event of the trace, no register changes (R96, R316). -/
def State.delay (s : State) (k : DelayKind) : State := s.emit (.dly k)

/-- `pin_out(k, v)`: make package pin `k` an output at level `v` (R124). -/
def pinOut (P : Profile) (k : Nat) (v : Level) (s : State) : State :=
  match translatePin P k with
  | none => s
  | some p => (s.drive p v).setDirection p true

/-- `pin_in(k, u)`: make package pin `k` an input, with its pull-up on when `u` is 1 (R125). -/
def pinIn (P : Profile) (k : Nat) (u : Level) (s : State) : State :=
  match translatePin P k with
  | none => s
  | some p => (s.setDirection p false).drive p u

/-- `pin_set(k, v)`: change the level of package pin `k` (R126). -/
def pinSet (P : Profile) (k : Nat) (v : Level) (s : State) : State :=
  match translatePin P k with
  | none => s
  | some p => s.drive p v

/-- `pin_get(k)`: sample package pin `k`; an unused pin makes no call and counts as 0 (R127). -/
def pinGet (P : Profile) (k : Nat) (s : State) : Level × State :=
  match translatePin P k with
  | none => (false, s)
  | some p => s.sample p

/-- `for k in L (index order): f(k)` (R160). -/
def forPins (L : List Nat) (f : Nat → State → State) (s : State) : State :=
  match L with
  | [] => s
  | k :: rest => forPins rest f (f k s)

/-- The block presents its response and is idle again (R82, R89). -/
def State.respond (s : State) (status : Status) (val : BitVec 32) : State :=
  { s with responses := s.responses ++ [{ status := status, val := val }] }

/-- `raise S` for a status that changes nothing: the request ends at once, with `val` 0 (R91, R271). -/
def raise (status : Status) (s : State) : Out := .next (s.respond status 0)

/-- `P`, the active profile: `CATALOG[sel]`, if `sel` is an index of the catalog (R14, R21). -/
def State.profile? (s : State) : Option Profile := s.cfg.catalog[s.sel]?

/-- Run a request on the active profile. -/
def State.withProfile (s : State) (f : Profile → Out) : Out :=
  match s.profile? with
  | some P => f P
  | none => .fault .noActiveProfile

/-- `isp(sel) and st in {Ready, Faulted}`: when the ISP requests are accepted (R201). -/
def ispAccepts (P : Profile) (s : State) : Bool := isIsp P && (s.st == .ready || s.st == .faulted)

/-- How long a delay lasts, in the unit the spec gives it (R96, R318). -/
inductive DelayLength
  | millis (n : Nat)
  | atLeastMillis (n : Nat)
  | spins (n : Option Nat)
  | micros (n : Option Nat)
  deriving DecidableEq, Repr

/-- The length of each kind of delay; no result of any rule depends on it (R96, R318). Time itself is not modelled:
DESIGN CHOICE (log 14). -/
def delayLength (cfg : Config) : DelayKind → DelayLength
  | .settle => .millis cfg.settleMs
  | .prop => .spins cfg.propSpin
  | .ispEdge => .micros cfg.ispEdgeUs
  | .ispSettle => .atLeastMillis cfg.ispSettleMs

/-- What a pin is, by its direction bit and its level latch (R26). -/
inductive PinRole
  | undrivenInput
  | inputWithPullup
  | outputLow
  | outputHigh
  deriving DecidableEq, Repr

/-- The four combinations of `dir[p]` and `lvl[p]` (R26). -/
def State.pinRole (s : State) (p : Nat) : PinRole :=
  match s.dirOf p, s.lvlOf p with
  | false, false => .undrivenInput
  | false, true => .inputWithPullup
  | true, false => .outputLow
  | true, true => .outputHigh

end Sys2Proof.Machine
end

