-- ==== Sys2Proof/Machine/Catalog.lean ====
section
/-! DEFINITION. The Chip Profile Catalog (spec/41_catalog_select.md): the conditions W1 to W7 every catalog must meet
before any rule applies to it (R142 to R149), the launch of a model (R149, R305), and the SELECT request (R150). -/

namespace Sys2Proof.Machine

/-- The nonzero entries of a pin list. -/
def usedPins (L : List Nat) : List Nat := L.filter (· != 0)

/-- The nonzero entries of the four lists, in the order SETUP visits the lists. -/
def allUsedPins (P : Profile) : List Nat :=
  usedPins P.loPins ++ usedPins P.hiPins ++ usedPins P.addrPins ++ usedPins P.dataPins

/-- The record's own bound: `addr_pins` has at most `NA_MAX` entries (R141, R145). -/
def Profile.fieldsOk (P : Profile) : Bool := P.addrPins.length ≤ naMax

/-- W1 (R142). -/
def Profile.w1 (P : Profile) : Bool := decide (1 ≤ P.pins) && decide (P.pins ≤ zifPins)

/-- W2 (R143). -/
def Profile.w2 (P : Profile) : Bool := (allUsedPins P).all fun k => decide (k ≤ P.pins)

/-- W3 (R144). -/
def Profile.w3 (P : Profile) : Bool :=
  (usedPins P.addrPins ++ usedPins P.dataPins).all fun k => !(P.hiPins ++ P.loPins).contains k

/-- W4 (R145), parallel profiles: every entry of `addr_pins` at an index `>= addr_width` is 0. -/
def Profile.w4 (P : Profile) : Bool := isIsp P || (P.addrPins.drop P.addrWidth).all (· == 0)

/-- W5 (R146): the nonzero entries of the four lists together are pairwise different. -/
def Profile.w5 (P : Profile) : Bool := decide (allUsedPins P).Nodup

/-- W6 (R147): the widths, the entries beyond them, and the reserved option bits 7:2. -/
def Profile.w6 (P : Profile) : Bool :=
  decide (P.dataWidth ≤ ndMax) && P.options.extractLsb' 2 6 == 0#6 &&
    (if isIsp P then (P.dataPins.drop 1).all (· == 0) && (P.addrPins.drop 4).all (· == 0)
      else (P.dataPins.drop P.dataWidth).all (· == 0))

/-- W7 (R148), of the profile at index 0: no list names a pin, no option is set, and the fields the spec sets. -/
def Profile.w7 (P : Profile) : Bool :=
  (allUsedPins P).isEmpty && P.options == 0#8 && P.pins == 40 && P.addrWidth == 0 && P.dataWidth == 8

/-- A well-formed profile: W1 to W6. -/
def Profile.wf (P : Profile) : Bool :=
  Profile.fieldsOk P && Profile.w1 P && Profile.w2 P && Profile.w3 P && Profile.w4 P && Profile.w5 P && Profile.w6 P

/-- A well-formed catalog: every profile is, and index 0 exists and is the safe profile (R140, R148). -/
def catalogWf (c : List Profile) : Bool :=
  c.all Profile.wf &&
    match c with
    | [] => false
    | P :: _ => Profile.w7 P

/-- The conditions on the parameters: the catalog's, `N_SAMPLES >= 1` (R186), `ISP_SETTLE_MS >= 20` (R10). -/
def configWf (cfg : Config) : Bool :=
  catalogWf cfg.catalog && decide (1 ≤ cfg.nSamples) && decide (20 ≤ cfg.ispSettleMs)

/-- Instantiating the model: ill-formed parameters are refused here, not at run time; no request checks them (R149).
DESIGN CHOICE (log 17): `exec` itself follows the pseudocode on any parameters. -/
def launch (cfg : Config) (tgt : Target) : Option State :=
  if configWf cfg then some (State.resetWith cfg tgt) else none

/-- `SELECT idx`: the state check, then the range check, then `sel <- idx` (R150, R278). No GPIO call, no event. -/
def execSelect (idx : Nat) (s : State) : Out :=
  if s.st ≠ .tristate then raise .errState s
  else if s.cfg.catalog.length ≤ idx then raise .errRange s
  else .next ({ s with sel := idx }.respond .ok 0)

end Sys2Proof.Machine
end

