-- ==== Sys2Proof/Machine/Flags.lean ====
section
/-! DEFINITION. The block has no flag register and no condition codes (spec/10_state.md R31): the outcome of a request
is the status of its response. Here are the codes of the statuses (spec/30_encoding.md R90), the response word (R89),
the packing of the four handshake echoes (R91) and the numbers of the sequencer states (R98). -/

namespace Sys2Proof.Machine

/-- The code of a status (R90). -/
def Status.code : Status → BitVec 8
  | .ok => 0x00#8
  | .errOp => 0x01#8
  | .errRange => 0x02#8
  | .errState => 0x03#8
  | .ispFail => 0x04#8
  | .errUnsup => 0x05#8

/-- The status a code stands for; the codes 6 to 255 are reserved and stand for none (R90). -/
def Status.ofCode (c : BitVec 8) : Option Status :=
  match c.toNat with
  | 0 => some .ok
  | 1 => some .errOp
  | 2 => some .errRange
  | 3 => some .errState
  | 4 => some .ispFail
  | 5 => some .errUnsup
  | _ => none

/-- The statuses raised before any register write or event, which leave everything as it was (R271). -/
def Status.noChange : Status → Bool
  | .ok => false
  | .errOp => true
  | .errRange => true
  | .errState => true
  | .ispFail => false
  | .errUnsup => true

/-- The response word: `status[39:32]`, `val[31:0]` (R89). -/
def Response.word (r : Response) : RespWord := r.status.code ++ r.val

/-- The response a response word stands for. -/
def Response.ofWord (w : RespWord) : Option Response :=
  match Status.ofCode (w.extractLsb' 32 8) with
  | some st => some { status := st, val := w.extractLsb' 0 32 }
  | none => none

/-- `{e0, e1, e2, e3}`: the first echo in bits 31:24, the fourth in bits 7:0 (R59, R91). -/
def packEchoes (e0 e1 e2 e3 : Byte) : BitVec 32 := e0 ++ e1 ++ e2 ++ e3

/-- The number of a sequencer state; it is seen at no port (R98). -/
def SeqState.code : SeqState → Nat
  | .tristate => 0
  | .configuring => 1
  | .ready => 2
  | .ispHandshake => 3
  | .faulted => 4

end Sys2Proof.Machine
end

