-- ==== Sys2Proof/Machine/Isp.lean ====
section
/-! DEFINITION. The ISP Protocol Engine (spec/44_isp_engine.md): clock generation, byte exchange, the entry sequence, the
memory read, and the requests ISP_CLOCK, ISP_XFER and ISP_PROBE. -/

namespace Sys2Proof.Machine

/-- One cycle of the auxiliary clock (R202). -/
def auxCycle (P : Profile) (s : State) : State :=
  (pinSet P (roleXclk P) false ((pinSet P (roleXclk P) true s).delay .ispEdge)).delay .ispEdge

/-- `aux_clock(n)` (R202). -/
def auxClock (P : Profile) (n : Nat) (s : State) : State :=
  match n with
  | 0 => s
  | k + 1 => auxClock P k (auxCycle P s)

/-- The part of one bit of a byte exchange before the sample: data-out, pulse, SCK high, pulse (R206). -/
def xferRaise (P : Profile) (bit : Level) (s : State) : State :=
  auxClock P s.cfg.ispBitCycles
    (pinSet P (roleSck P) true
      (auxClock P s.cfg.ispBitCycles (pinSet P (roleSdo P) bit s)))

/-- One bit of a byte exchange: the sample is taken while SCK is high, then SCK is lowered (R206). -/
def xferBit (P : Profile) (bit : Level) (s : State) : Level × State :=
  ((pinGet P (roleSdi P) (xferRaise P bit s)).1,
    pinSet P (roleSck P) false (pinGet P (roleSdi P) (xferRaise P bit s)).2)

/-- The bits of a byte exchange in order, collecting the sampled levels in `r` (R206). -/
def xferBits (P : Profile) (bits : List Level) (r : Byte) (s : State) : Byte × State :=
  match bits with
  | [] => (r, s)
  | b :: rest => xferBits P rest (insertBottom r (xferBit P b s).1) (xferBit P b s).2

/-- `xfer(b)`: exchange a byte, most significant bit first (R206). -/
def xfer (P : Profile) (b : Byte) (s : State) : Byte × State := xferBits P (bitsMsbFirst b) 0x00#8 s

/-- The four echoes of a four-byte frame. -/
structure Echoes where
  e0 : Byte
  e1 : Byte
  e2 : Byte
  e3 : Byte
  deriving DecidableEq, Repr

/-- A four-byte frame, first byte first (R100). -/
def xferFrame (P : Profile) (c0 c1 c2 c3 : Byte) (s : State) : Echoes × State :=
  let x0 := xfer P c0 s
  let x1 := xfer P c1 x0.2
  let x2 := xfer P c2 x1.2
  let x3 := xfer P c3 x2.2
  ({ e0 := x0.1, e1 := x1.1, e2 := x2.1, e3 := x3.1 }, x3.2)

/-- The entry sequence up to the first exchange: SCK low, reset high then low while clocking, the settle wait, the
pull-up on SDI (R208, R211). -/
def ispPrepare (P : Profile) (s : State) : State :=
  let s1 := auxClock P s.cfg.ispRstCycles (pinSet P (roleRst P) true (pinSet P (roleSck P) false s))
  let s2 := auxClock P s.cfg.ispRstCycles (pinSet P (roleRst P) false s1)
  pinIn P (roleSdi P) true (s2.delay .ispSettle)

/-- The four handshake bytes (R100, R208). -/
def ispHandshake (P : Profile) (s : State) : Echoes × State :=
  xferFrame P s.cfg.ispHandshake[0] s.cfg.ispHandshake[1] s.cfg.ispHandshake[2] s.cfg.ispHandshake[3] s

/-- The outcome of the handshake: the third echo alone decides it; the four echoes are the response's `val` (R208, R209). -/
def ispConclude (e : Echoes) (s : State) : State :=
  if e.e2 = s.cfg.ispSentinel then (s.setSt .ready).respond .ok (packEchoes e.e0 e.e1 e.e2 e.e3)
  else (s.setSt .faulted).respond .ispFail (packEchoes e.e0 e.e1 e.e2 e.e3)

/-- `isp_enter()`, run with `st == ISPHandshake` (R208). -/
def ispEnter (P : Profile) (s : State) : State :=
  let h := ispHandshake P (ispPrepare P s)
  ispConclude h.1 h.2

/-- `isp_read(addr)`: one frame, the fourth echo is the memory byte (R212). -/
def ispRead (P : Profile) (addr : Arg) (s : State) : Byte × State :=
  let f := xferFrame P (readOpcode s.cfg addr) (readMiddle addr) (readLow addr) s.cfg.ispDummy s
  (f.1.e3, f.2)

/-- `ISP_CLOCK n` (R203). -/
def execIspClock (n : Nat) (s : State) : Out :=
  s.withProfile fun P =>
    if ispAccepts P s then .next ((auxClock P n s).respond .ok 0)
    else raise .errState s

/-- `ISP_XFER byte` (R207). -/
def execIspXfer (byte : Byte) (s : State) : Out :=
  s.withProfile fun P =>
    if ispAccepts P s then .next ((xfer P byte s).2.respond .ok ((xfer P byte s).1.setWidth 32))
    else raise .errState s

/-- `ISP_PROBE` (R210). -/
def execIspProbe (s : State) : Out :=
  s.withProfile fun P =>
    if ispAccepts P s then .next (ispEnter P (s.setSt .ispHandshake))
    else raise .errState s

end Sys2Proof.Machine
end

