-- ==== Sys2Proof/Machine/Read.lean ====
section
/-! DEFINITION. READ and the parallel read algorithm (spec/43_parallel_read.md). -/

namespace Sys2Proof.Machine

/-- `set_address` from one entry of the address list on: drive bit 0 of `t`, then shift (R181). -/
def driveAddress (P : Profile) (ks : List Nat) (t : Arg) (s : State) : State :=
  match ks with
  | [] => s
  | k :: rest => driveAddress P rest (t >>> 1) (pinSet P k (t.getLsbD 0) s)

/-- `set_address(addr)` (R181). -/
def setAddress (P : Profile) (addr : Arg) (s : State) : State := driveAddress P P.addrPins addr s

/-- A pass over the listed data pins, right-shift and insert at the top (R183). -/
def samplePins (P : Profile) (ks : List Nat) (b : Byte) (s : State) : Byte × State :=
  match ks with
  | [] => (b, s)
  | k :: rest => samplePins P rest (insertTop b (pinGet P k s).1) (pinGet P k s).2

/-- `sample_byte()`: one pass over the first `data_width` data pins (R183). -/
def sampleByte (P : Profile) (s : State) : Byte × State := samplePins P (passPins P) 0x00#8 s

/-- The loop of `parallel_read`: at most `left` more passes after one that returned `prev` (R184). -/
def converge (P : Profile) (left : Nat) (prev : Byte) (s : State) : Byte × State :=
  match left with
  | 0 => (prev, s)
  | n + 1 =>
    if (sampleByte P s).1 = prev then sampleByte P s
    else converge P n (sampleByte P s).1 (sampleByte P s).2

/-- `parallel_read(addr)`: address, propagation delay, the first pass, then up to `N_SAMPLES - 1` more (R184). -/
def parallelRead (P : Profile) (addr : Arg) (s : State) : Byte × State :=
  let first := sampleByte P ((setAddress P addr s).delay .prop)
  converge P (s.cfg.nSamples - 1) first.1 first.2

/-- `READ addr` by flavour: the byte, and the state it leaves (R180). -/
def readByte (P : Profile) (addr : Arg) (s : State) : Byte × State :=
  if isIsp P then ispRead P addr s else parallelRead P addr s

/-- `READ addr` (R180). -/
def execRead (addr : Arg) (s : State) : Out :=
  if s.st ≠ .ready then raise .errState s
  else s.withProfile fun P =>
    .next ((readByte P addr s).2.respond .ok ((readByte P addr s).1.setWidth 32))

end Sys2Proof.Machine
end

