-- ==== Sys2Proof/Machine/Setup.lean ====
section
/-! DEFINITION. The Sequencing Engine's SETUP and TRISTATE (spec/42_setup_tristate.md). -/

namespace Sys2Proof.Machine

/-- SETUP steps 1 to 4: fixed-low pins, fixed-high pins, address pins, data pins, each list in index order
(R160, R162 to R165). -/
def configurePins (P : Profile) (s : State) : State :=
  forPins P.dataPins (fun k => pinIn P k (optPullup P))
    (forPins P.addrPins (fun k => pinOut P k false)
      (forPins P.hiPins (fun k => pinOut P k true)
        (forPins P.loPins (fun k => pinOut P k false) s)))

/-- `Tristate -> Configuring`, the four pin steps, the settle delay (R160, R166). -/
def configure (P : Profile) (s : State) : State :=
  (configurePins P (s.setSt .configuring)).delay .settle

/-- `SETUP` (R160): the state check, the `OPT_LATCH` refusal (R161), then configuration, and the parallel exit (R166) or
the ISP exit (R167). -/
def execSetup (s : State) : Out :=
  if s.st ≠ .tristate then raise .errState s
  else s.withProfile fun P =>
    if optLatch P then raise .errUnsup { s with refused := true }
    else if isIsp P then .next (ispEnter P ((configure P s).setSt .ispHandshake))
    else .next (((configure P s).setSt .ready).respond .ok 0)

/-- Make physical pin `p` an undriven input at level 0 (R170). -/
def releasePin (s : State) (p : Nat) : State := (s.setDirection p false).drive p false

/-- Release the physical pins `p`, `p + 1`, ... , `n` of them in ascending order. -/
def releaseFrom (n p : Nat) (s : State) : State :=
  match n with
  | 0 => s
  | m + 1 => releaseFrom m (p + 1) (releasePin s p)

/-- `TRISTATE`: all 40 physical pins, without the translator and whatever the profile; accepted in every state (R170). -/
def execTristate (s : State) : Out :=
  .next (((releaseFrom zifPins 1 s).setSt .tristate).respond .ok 0)

end Sys2Proof.Machine
end

