-- ==== Sys2Proof/Machine/Translator.lean ====
section
/-! DEFINITION. The XLATE request (spec/40_translator.md R128). The translator itself is in Machine/Operands.lean. -/

namespace Sys2Proof.Machine

/-- `XLATE k`: accepted in every state, writes no register, appends no event (R128). -/
def execXlate (k : Nat) (s : State) : Out :=
  s.withProfile fun P =>
    if P.pins < k then raise .errRange s
    else .next (s.respond .ok (BitVec.ofNat 32 (pinNumber (translatePin P k))))

end Sys2Proof.Machine
end

