-- ==== Sys2Proof/Machine/Dispatch.lean ====
section
/-! DEFINITION. The meaning of each request, one arm per constructor of Instr. -/

namespace Sys2Proof.Machine

def exec (i : Instr) (s : State) : Host.Outcome State Fault Refusal :=
  match i with
  | .tristate => Sys2Proof.Machine.execTristate s
  | .select idx => Sys2Proof.Machine.execSelect idx s
  | .setup => Sys2Proof.Machine.execSetup s
  | .read addr => Sys2Proof.Machine.execRead addr s
  | .ispProbe => Sys2Proof.Machine.execIspProbe s
  | .ispXfer byte => Sys2Proof.Machine.execIspXfer byte s
  | .ispClock n => Sys2Proof.Machine.execIspClock n s
  | .xlate k => Sys2Proof.Machine.execXlate k s

end Sys2Proof.Machine
end

