-- ==== Sys2Proof/WellFormed.lean ====
section
/-! DEFINITION. Which requests a request word can carry: each numeric operand fits the bits its sub-format gives it
(spec/30_encoding.md R84). The catalog's well-formedness (W1 to W7) is in Machine/Catalog.lean. -/

namespace Sys2Proof

/-- The operand fits its sub-format: `A32`, `I16` or `I8` (R84). -/
abbrev Instr.WellFormed (i : Instr) : Prop :=
  match i with
  | .tristate => True
  | .select idx => idx < 2 ^ 32
  | .setup => True
  | .read _ => True
  | .ispProbe => True
  | .ispXfer _ => True
  | .ispClock n => n < 2 ^ 16
  | .xlate k => k < 2 ^ 8

/-- The same as a Boolean, for tests. -/
def Instr.wellFormed (i : Instr) : Bool :=
  match i with
  | .tristate => true
  | .select idx => idx < 2 ^ 32
  | .setup => true
  | .read _ => true
  | .ispProbe => true
  | .ispXfer _ => true
  | .ispClock n => n < 2 ^ 16
  | .xlate k => k < 2 ^ 8

end Sys2Proof
end

