-- ==== Sys2Proof/Decode.lean ====
section
/-! DEFINITION. The decoder of the request port, total on all 2^40 words (spec/30_encoding.md R83 to R88), and after
it the encoder. A word it refuses is refused by name; what the block answers to it (`ERR_OP`) is in Machine/Step.lean. -/

namespace Sys2Proof

/-- Why a request word is illegal. -/
inductive DecodeError
  /-- A reserved `op`, 0x08 to 0xFF (R87). -/
  | reservedOp (op : BitVec 8)
  /-- One of the eight operations, but must-be-zero bits of `arg` are set (R88). -/
  | mustBeZero (mnemonic : String) (arg : Arg)
  deriving DecidableEq, Repr

/-- `op = w[39:32]` (R83). -/
def opField (w : ReqWord) : BitVec 8 := w.extractLsb' 32 8

/-- `arg = w[31:0]` (R83). -/
def argField (w : ReqWord) : Arg := w.extractLsb' 0 32

/-- The word with the given fields (R83). -/
def reqWord (op : BitVec 8) (arg : Arg) : ReqWord := op ++ arg

/-- `arg[31:n] == 0`: the bits above the `n` used ones are all zero (R84). -/
def upperZero (n : Nat) (arg : Arg) : Bool := arg.toNat < 2 ^ n

/-- The zero check of R88: the request, if the bits above the `used` low ones are zero. -/
def zeroChecked (used : Nat) (arg : Arg) (i : Instr) : Except DecodeError Instr :=
  if upperZero used arg then .ok i else .error (.mustBeZero i.mnemonic arg)

/-- Decoding: by `op` first, then the zero check (R86). -/
def decode (w : ReqWord) : Except DecodeError Instr :=
  let arg := argField w
  match (opField w).toNat with
  | 0 => zeroChecked 0 arg .tristate
  | 1 => .ok (.select arg.toNat)
  | 2 => zeroChecked 0 arg .setup
  | 3 => .ok (.read arg)
  | 4 => zeroChecked 0 arg .ispProbe
  | 5 => zeroChecked 8 arg (.ispXfer (arg.setWidth 8))
  | 6 => zeroChecked 16 arg (.ispClock (arg.setWidth 16).toNat)
  | 7 => zeroChecked 8 arg (.xlate (arg.setWidth 8).toNat)
  | _ => .error (.reservedOp (opField w))

/-- What the decoder reads from a row's word (a request is one 40-bit word; the bits above `nbits` are zero). -/
def decodeTableWord (nbits w : Nat) : Option Instr :=
  match decode (BitVec.ofNat 40 (w % 2 ^ nbits)) with
  | .ok i => some i
  | .error _ => none

/-- The operation code of each request (R85). -/
def Instr.op : Instr → BitVec 8
  | .tristate => 0x00#8
  | .select _ => 0x01#8
  | .setup => 0x02#8
  | .read _ => 0x03#8
  | .ispProbe => 0x04#8
  | .ispXfer _ => 0x05#8
  | .ispClock _ => 0x06#8
  | .xlate _ => 0x07#8

/-- The operand field of each request (R84). -/
def Instr.arg : Instr → Arg
  | .tristate => 0
  | .select idx => BitVec.ofNat 32 idx
  | .setup => 0
  | .read addr => addr
  | .ispProbe => 0
  | .ispXfer b => b.setWidth 32
  | .ispClock n => (BitVec.ofNat 16 n).setWidth 32
  | .xlate k => (BitVec.ofNat 8 k).setWidth 32

/-- The request word of a request (R83 to R85). The operand of an ill-formed request is cut to its field: DESIGN CHOICE
(log 16). -/
def encode (i : Instr) : ReqWord := reqWord i.op i.arg

/-- A row of the operation map: a word `w` selects it when `w &&& mask = pattern` (R85). -/
structure OpRow where
  mnemonic : String
  mask : ReqWord
  pattern : ReqWord
  deriving DecidableEq, Repr

/-- The operation map, copied from the table of R85 (and spec/opcode_table.json). The decoder does not read it: it is
here so that decoding can be held against it. -/
def opTable : List OpRow :=
  [ ⟨"TRISTATE", 0xFFFFFFFFFF#40, 0x0000000000#40⟩,
    ⟨"SELECT", 0xFF00000000#40, 0x0100000000#40⟩,
    ⟨"SETUP", 0xFFFFFFFFFF#40, 0x0200000000#40⟩,
    ⟨"READ", 0xFF00000000#40, 0x0300000000#40⟩,
    ⟨"ISP_PROBE", 0xFFFFFFFFFF#40, 0x0400000000#40⟩,
    ⟨"ISP_XFER", 0xFFFFFFFF00#40, 0x0500000000#40⟩,
    ⟨"ISP_CLOCK", 0xFFFFFF0000#40, 0x0600000000#40⟩,
    ⟨"XLATE", 0xFFFFFFFF00#40, 0x0700000000#40⟩ ]

/-- `w & mask == match` (R85). -/
def OpRow.selects (r : OpRow) (w : ReqWord) : Bool := w &&& r.mask == r.pattern

end Sys2Proof
end

