-- ==== Sys2Proof/Machine/Port.lean ====
section
/-! DEFINITION. The request port's side of a step (spec/30_encoding.md R81, R82, R87, R88): taking the next request word,
and the answer to an illegal one.

CONVENTION. DESIGN CHOICE (log 7): the caller's words wait in a list in State, the responses are kept in another, and one
step runs one whole request (R25 allows it). -/

namespace Sys2Proof.Machine

/-- The word the caller presents, and the state once the block has accepted it; none when the port is idle (R82). -/
def State.accept (s : State) : Option (ReqWord × State) :=
  match s.requests with
  | [] => none
  | w :: rest => some (w, { s with requests := rest })

/-- The caller presents `w` next. -/
def State.present (s : State) (w : ReqWord) : State := { s with requests := w :: s.requests }

/-- The answer to an illegal word: `ERR_OP`, `val = 0`, no register changes, no event (R87, R88, R273). -/
def answerIllegal (s : State) : Out := raise .errOp s

end Sys2Proof.Machine
end

