-- ==== Sys2Proof/Machine/Step.lean ====
section
/-! DEFINITION. One step of the machine: one request, from its word on the request port to its response
(spec/10_state.md R25, spec/30_encoding.md R82, R86). The block fetches no instructions (R23): the request port is where
its next request comes from, and with no request presented it waits (R302). -/

namespace Sys2Proof.Machine

/-- Take the next request word, decode it, run it; an illegal word is answered `ERR_OP`; an idle port changes nothing. -/
def step (s : State) : Host.Outcome State Fault Refusal :=
  match s.accept with
  | none => .next s
  | some (w, s') =>
    match decode w with
    | .ok i => exec i s'
    | .error _ => answerIllegal s'

/-- `s` with the word presented on the request port as the next request. -/
def State.withFetchWord (s : State) (nbits w : Nat) : State :=
  s.present (BitVec.ofNat 40 (w % 2 ^ nbits))

end Sys2Proof.Machine
end

