-- ==== Sys2Proof/Machine/Commands.lean ====
section
/-! DEFINITION. The caller's side of the request port: the composite commands as lists of requests (spec/30_encoding.md
R106, R107) and sessions (R108). The dispatcher itself is out of the spec's scope (spec/00_scope.md R5): nothing of the
machine depends on this file. DESIGN CHOICE (log 20): the addresses of a dump wrap modulo 2^32. -/

namespace Sys2Proof.Machine

/-- The source's command surface, less its characters (R106). -/
inductive Command
  | listProfiles
  | selectProfile (d : Nat)
  | dump (a : Arg)
  | fullTransfer
  | oneShotIspProbe
  deriving DecidableEq, Repr

/-- `READ a`, `READ a+1`, ..., `n` of them. -/
def readsFrom (a : Arg) (n : Nat) : List Instr := (List.range n).map fun i => .read (a + BitVec.ofNat 32 i)

/-- SETUP, then the requests, then TRISTATE. -/
def inSession (body : List Instr) : List Instr := .setup :: body ++ [.tristate]

/-- The requests a command expands into (R107). Listing the profiles makes no request. -/
def expandCommand (c : Command) (s : State) : List Instr :=
  match c with
  | .listProfiles => []
  | .selectProfile d => [.select d]
  | .dump a => inSession (readsFrom a 64)
  | .fullTransfer =>
    match s.profile? with
    | some P => inSession (readsFrom 0 (2 ^ P.addrWidth))
    | none => []
  | .oneShotIspProbe => if s.st = .tristate then [.setup] else [.ispProbe]

/-- What "list profiles" shows: `CATALOG[i].name` for every `i` (R107). -/
def profileNames (s : State) : List String := s.cfg.catalog.map fun P => P.name

/-- A request that may stand inside a session (R108). -/
def sessionBody : Instr → Bool
  | .tristate => false
  | .select _ => false
  | .setup => false
  | .read _ => true
  | .ispProbe => true
  | .ispXfer _ => true
  | .ispClock _ => true
  | .xlate _ => false

/-- A session: SETUP, any number of READ, ISP_PROBE, ISP_XFER, ISP_CLOCK, then TRISTATE (R108). -/
def isSession (l : List Instr) : Bool :=
  match l with
  | .setup :: rest =>
    match rest.reverse with
    | .tristate :: body => body.all sessionBody
    | _ => false
  | _ => false

/-- The caller presents a list of requests after those already presented. -/
def State.submit (s : State) (l : List Instr) : State := { s with requests := s.requests ++ l.map encode }

end Sys2Proof.Machine
end

