-- ==== Sys2Proof/Machine/Transfer.lean ====
section
/-! DEFINITION. The Reliable Transfer Protocol's sender (spec/46_transfer_protocol.md). It is OUTSIDE the block
(spec/00_scope.md R6): `step` and `exec` do not use this file. It is modelled beside the machine because the spec
transcribes it. Where the source is silent on a received byte the sender's next state is left open (`none`):
DESIGN CHOICE (log 19). -/

namespace Sys2Proof.Machine

/-- The protocol's parameters: the five control bytes, to which the source gives no value (R244), the retry ceiling
(R246), whether its attempts count the first transmission, which the source does not say (R250), and the ceiling of the
end-of-transmission loop: how many times the end byte may be sent in all, `none` being no ceiling. R248 gives that loop
none and U21 has a host model leave it open, as this parameter does. -/
structure XferParams where
  soh : Byte
  eot : Byte
  ack : Byte
  nak : Byte
  can : Byte
  maxAttempts : Nat
  countsFirst : Bool
  eotCeiling : Option Nat
  deriving DecidableEq, Repr

/-- The five control bytes are pairwise different. -/
def XferParams.wf (q : XferParams) : Bool := decide [q.soh, q.eot, q.ack, q.nak, q.can].Nodup

/-- The XMODEM values, "from general knowledge, not in source" (R244), with the source's ceiling of 10; what the source
leaves open stays a parameter. PRESUMED (log 9). -/
def XferParams.xmodem (countsFirst : Bool) (eotCeiling : Option Nat) : XferParams :=
  { soh := 0x01#8, eot := 0x04#8, ack := 0x06#8, nak := 0x15#8, can := 0x18#8, maxAttempts := 10,
    countsFirst := countsFirst, eotCeiling := eotCeiling }

/-- A 128-byte payload (R242). -/
abbrev Payload := Vector Byte 128

/-- The sum of the payload bytes mod 256 (R243). -/
def xferChecksum (d : Payload) : Byte := d.toList.foldl (· + ·) 0x00#8

/-- `255 - block_num` (R243). -/
def xferComplement (n : Byte) : Byte := 0xFF#8 - n

/-- `XmodemBlock` in the order sent: header, number, complement, payload, checksum (R242). -/
def xferBlock (q : XferParams) (n : Byte) (d : Payload) : List Byte :=
  [q.soh, n, xferComplement n] ++ d.toList ++ [xferChecksum d]

/-- The sender's states (R245). `tries` is the number of transmissions made so far of the current block or, in `finishing`,
of the end-of-transmission byte. -/
inductive XferPhase
  | awaitStart (data : List Payload)
  | sending (n : Byte) (tries : Nat) (cur : Payload) (rest : List Payload)
  | finishing (tries : Nat)
  | done
  | aborted
  deriving DecidableEq, Repr

/-- The sender: its state and every byte it has handed to the transport, oldest first. -/
structure Sender where
  phase : XferPhase
  sent : List Byte
  deriving DecidableEq, Repr

/-- A sender of the given payloads, waiting for the start byte (R245). -/
def Sender.start (data : List Payload) : Sender := { phase := .awaitStart data, sent := [] }

/-- Send the next payload as the block after block `n`, or go to `Finishing` and send the end-of-transmission byte when
the source data is exhausted (R246 to R248). The number wraps mod 256. A source with no payload at all goes from
`AwaitStart` straight to `Finishing`: R245 lists only `AwaitStart` to `Sending` and the spec says nothing of an empty
source, so that this is the model's: DESIGN CHOICE (log 19). -/
def Sender.advance (q : XferParams) (n : Byte) (data : List Payload) (x : Sender) : Sender :=
  match data with
  | [] => { phase := .finishing 1, sent := x.sent ++ [q.eot] }
  | d :: rest => { phase := .sending (n + 1) 1 d rest, sent := x.sent ++ xferBlock q (n + 1) d }

/-- The attempts made of a block that has been transmitted `tries` times (R246, R250). The ceiling is taken as exceeded by a
negative acknowledgement that comes when `maxAttempts` of them are made: DESIGN CHOICE (log 19). -/
def attempts (q : XferParams) (tries : Nat) : Nat := if q.countsFirst then tries else tries - 1

/-- The end-of-transmission loop may send its byte once more after `tries` times: always, where there is no ceiling (R248,
U21). -/
def mayResendEot (q : XferParams) (tries : Nat) : Bool :=
  match q.eotCeiling with
  | none => true
  | some c => decide (tries < c)

/-- The sender receives a byte (R245 to R249). `none`: the source does not say what happens. In `Finishing` the end byte is
sent again on every byte but acknowledgement and cancel (R248), as long as the loop's ceiling, a parameter, allows it.
That a ceiling once reached ends in `Aborted`, as R249 has it of the retry ceiling, is the model's: DESIGN CHOICE
(log 19). -/
def Sender.receive (q : XferParams) (b : Byte) (x : Sender) : Option Sender :=
  match x.phase with
  | .awaitStart data =>
    if b = q.nak then some (Sender.advance q 0x00#8 data x)
    else if b = q.can then some { x with phase := .aborted }
    else none
  | .sending n tries cur rest =>
    if b = q.ack then some (Sender.advance q n rest x)
    else if b = q.nak then
      if q.maxAttempts ≤ attempts q tries then some { x with phase := .aborted }
      else some { phase := .sending n (tries + 1) cur rest, sent := x.sent ++ xferBlock q n cur }
    else if b = q.can then some { x with phase := .aborted }
    else none
  | .finishing tries =>
    if b = q.ack then some { x with phase := .done }
    else if b = q.can then some { x with phase := .aborted }
    else if mayResendEot q tries then some { phase := .finishing (tries + 1), sent := x.sent ++ [q.eot] }
    else some { x with phase := .aborted }
  | .done => none
  | .aborted => none

/-- The sender receives bytes in order. -/
def Sender.receiveAll (q : XferParams) (bs : List Byte) (x : Sender) : Option Sender :=
  match bs with
  | [] => some x
  | b :: rest =>
    match x.receive q b with
    | some y => Sender.receiveAll q rest y
    | none => none

/-- What an aborted transfer asks of the block: "it unwinds to tri-state" (R249). -/
def Sender.unwind (x : Sender) : List Instr :=
  match x.phase with
  | .aborted => [.tristate]
  | .awaitStart _ => []
  | .sending _ _ _ _ => []
  | .finishing _ => []
  | .done => []

end Sys2Proof.Machine
end

