-- ==== Sys2Proof/Safety.lean ====
section
/-! DEFINITION. The terms claims about the machine are made in: the invariants of every reachable state
(spec/10_state.md R25, R41), the event sequences the spec's procedures append to the
trace (spec/20_memory.md R71), and the trace read back as pin states. Nothing here is used by `step`. -/

namespace Sys2Proof.Machine

/-- Every pin is an undriven input at level 0: the tri-state condition (R26, R41 (a)). -/
def Undriven (s : State) : Prop := ∀ p, s.dirOf p = false ∧ s.lvlOf p = false

/-- `p` is the physical pin of some entry of the list. -/
def IsPinOf (P : Profile) (L : List Nat) (p : Nat) : Prop := ∃ k ∈ L, translatePin P k = some p

/-- The four lists of a profile, in the order SETUP visits them. -/
def allPins (P : Profile) : List Nat := P.loPins ++ P.hiPins ++ P.addrPins ++ P.dataPins

/-- The pins of a configured socket in the parallel flavour (R41 (d)). -/
structure ParallelPins (P : Profile) (s : State) : Prop where
  lo : ∀ p, IsPinOf P P.loPins p → s.dirOf p = true ∧ s.lvlOf p = false
  hi : ∀ p, IsPinOf P P.hiPins p → s.dirOf p = true ∧ s.lvlOf p = true
  addr : ∀ p, IsPinOf P P.addrPins p → s.dirOf p = true
  data : ∀ p, IsPinOf P P.dataPins p → s.dirOf p = false ∧ s.lvlOf p = optPullup P
  other : ∀ p, ¬ IsPinOf P (allPins P) p → s.dirOf p = false ∧ s.lvlOf p = false

/-- The pins of a configured socket in the ISP flavour after an entry sequence (R201, R208, R211): the fixed pins as in
the parallel flavour, the four output roles outputs, of which SCK, RST and XCLK rest low, SDI an input with its pull-up
on, every other pin undriven. DEDUCED (log 6) from the rules named. -/
structure IspPins (P : Profile) (s : State) : Prop where
  lo : ∀ p, IsPinOf P P.loPins p → s.dirOf p = true ∧ s.lvlOf p = false
  hi : ∀ p, IsPinOf P P.hiPins p → s.dirOf p = true ∧ s.lvlOf p = true
  sck : ∀ p, translatePin P (roleSck P) = some p → s.dirOf p = true ∧ s.lvlOf p = false
  sdo : ∀ p, translatePin P (roleSdo P) = some p → s.dirOf p = true
  rst : ∀ p, translatePin P (roleRst P) = some p → s.dirOf p = true ∧ s.lvlOf p = false
  xclk : ∀ p, translatePin P (roleXclk P) = some p → s.dirOf p = true ∧ s.lvlOf p = false
  sdi : ∀ p, translatePin P (roleSdi P) = some p → s.dirOf p = false ∧ s.lvlOf p = true
  other : ∀ p, ¬ IsPinOf P (allPins P) p → s.dirOf p = false ∧ s.lvlOf p = false

/-- The invariant of every state at a request boundary, for well-formed parameters (R25, R41 (a) to (d)). -/
structure Inv (s : State) : Prop where
  params : configWf s.cfg = true
  selBound : s.sel < s.cfg.catalog.length
  boundary : s.st = .tristate ∨ s.st = .ready ∨ s.st = .faulted
  safe : s.st = .tristate → Undriven s
  faultedIsp : s.st = .faulted → ∀ P, s.profile? = some P → isIsp P = true
  noLatch : s.st ≠ .tristate → ∀ P, s.profile? = some P → optLatch P = false
  parallel : s.st = .ready → ∀ P, s.profile? = some P → isIsp P = false → ParallelPins P s
  isp : s.st ≠ .tristate → ∀ P, s.profile? = some P → isIsp P = true → IspPins P s

/-- The pins as the trace left them: `dir` and `lvl` (R27, R28). -/
structure Pins where
  dir : PinFile
  lvl : PinFile
  deriving DecidableEq, Repr

/-- The pins after reset (R40). -/
def Pins.reset : Pins := { dir := Vector.replicate zifPins false, lvl := Vector.replicate zifPins false }

/-- What an event does to the pins: a sample and a delay do nothing (R15, R27 to R29, R316). -/
def Pins.apply (x : Pins) (e : Event) : Pins :=
  match e with
  | .dir p o => { x with dir := PinFile.set x.dir p o }
  | .drv p l => { x with lvl := PinFile.set x.lvl p l }
  | .smp _ _ => x
  | .dly _ => x

/-- The pins after a trace that began at reset. -/
def replay (T : List Event) : Pins := T.foldl Pins.apply Pins.reset

/-- The physical pin an event names is one of 1..40 (R30). -/
def eventInSocket (e : Event) : Bool :=
  match e with
  | .dir p _ => decide (1 ≤ p) && decide (p ≤ zifPins)
  | .drv p _ => decide (1 ≤ p) && decide (p ≤ zifPins)
  | .smp p _ => decide (1 ≤ p) && decide (p ≤ zifPins)
  | .dly _ => true

/-- What the trace says of the socket: it explains the pins, it names pins of the socket only (R30), and whenever a pin
was sampled it was an input (R29). -/
structure TraceInv (s : State) : Prop where
  pins : replay s.trace = { dir := s.dir, lvl := s.lvl }
  inSocket : ∀ e ∈ s.trace, eventInSocket e = true
  inputsOnly : ∀ T p l U, s.trace = T ++ Event.smp p l :: U → PinFile.get (replay T).dir p = false

/-- A call that writes, or a delay: not a sample. -/
def notSample (e : Event) : Bool :=
  match e with
  | .dir _ _ => true
  | .drv _ _ => true
  | .smp _ _ => false
  | .dly _ => true

/-- An event without the level the target answered. -/
def withoutLevel (e : Event) : Event :=
  match e with
  | .dir p o => .dir p o
  | .drv p l => .drv p l
  | .smp p _ => .smp p false
  | .dly k => .dly k

/-! Event sequences. Each is written from the spec's account of the trace, in physical pins, without the procedures of
Machine/. -/

/-- The physical pins of a list, in index order, unused entries left out. -/
def physPins (P : Profile) (L : List Nat) : List Nat := L.filterMap (translatePin P)

/-- One pin made an output at level `v` (R124). -/
def outEvents (v : Level) (p : Nat) : List Event := [.drv p v, .dir p true]

/-- One pin made an input, pull-up on when `u` (R125). -/
def inEvents (u : Level) (p : Nat) : List Event := [.dir p false, .drv p u]

/-- The configuration part of SETUP: fixed-low, fixed-high, address, data, settle (R71 (a), R160). -/
def setupEvents (P : Profile) : List Event :=
  (physPins P P.loPins).flatMap (outEvents false) ++ (physPins P P.hiPins).flatMap (outEvents true)
    ++ (physPins P P.addrPins).flatMap (outEvents false) ++ (physPins P P.dataPins).flatMap (inEvents (optPullup P))
    ++ [.dly .settle]

/-- The events of TRISTATE: `Dir(p,0) Drv(p,0)` for `p` = 1 .. 40 (R171 (a)). -/
def tristateEvents : List Event := (List.range 40).flatMap fun i => [.dir (i + 1) false, .drv (i + 1) false]

/-- `Drv(x, v)` for the pin of a role, or nothing when the role is absent (R126, R200). -/
def roleDrive (P : Profile) (k : Nat) (v : Level) : List Event :=
  match translatePin P k with
  | none => []
  | some p => [.drv p v]

/-- `Smp(p, l)` for the SDI pin, or nothing when it is absent (R127, R200). -/
def roleSample (P : Profile) (k : Nat) (l : Level) : List Event :=
  match translatePin P k with
  | none => []
  | some p => [.smp p l]

/-- The events of one auxiliary-clock cycle (R202). -/
def cycleEvents (P : Profile) : List Event :=
  roleDrive P (roleXclk P) true ++ [.dly .ispEdge] ++ roleDrive P (roleXclk P) false ++ [.dly .ispEdge]

/-- The events of `aux_clock(n)` (R202). -/
def clockEvents (P : Profile) (n : Nat) : List Event := (List.replicate n (cycleEvents P)).flatten

/-- The events of one bit of an exchange: data-out, pulse, SCK high, pulse, sample, SCK low (R71 (d), R206). -/
def bitEvents (P : Profile) (c : Nat) (bit l : Level) : List Event :=
  roleDrive P (roleSdo P) bit ++ clockEvents P c ++ roleDrive P (roleSck P) true ++ clockEvents P c
    ++ roleSample P (roleSdi P) l ++ roleDrive P (roleSck P) false

/-- The events of exchanging byte `b` and receiving byte `r`, most significant bit first (R206). -/
def xferEvents (P : Profile) (c : Nat) (b r : Byte) : List Event :=
  ((bitsMsbFirst b).zip (bitsMsbFirst r)).flatMap fun x => bitEvents P c x.1 x.2

/-- The events of a four-byte frame (R100). -/
def frameEvents (P : Profile) (c : Nat) (b0 b1 b2 b3 r0 r1 r2 r3 : Byte) : List Event :=
  xferEvents P c b0 r0 ++ xferEvents P c b1 r1 ++ xferEvents P c b2 r2 ++ xferEvents P c b3 r3

/-- The entry sequence up to the first exchange (R71 (e), R208, R211). -/
def prepareEvents (P : Profile) (r : Nat) : List Event :=
  roleDrive P (roleSck P) false ++ roleDrive P (roleRst P) true ++ clockEvents P r
    ++ roleDrive P (roleRst P) false ++ clockEvents P r ++ [.dly .ispSettle]
    ++ (physPins P [roleSdi P]).flatMap (inEvents true)

/-- The whole entry sequence with the echoes `e0 .. e3` (R208). -/
def entryEvents (P : Profile) (cfg : Config) (e0 e1 e2 e3 : Byte) : List Event :=
  prepareEvents P cfg.ispRstCycles
    ++ frameEvents P cfg.ispBitCycles cfg.ispHandshake[0] cfg.ispHandshake[1] cfg.ispHandshake[2] cfg.ispHandshake[3]
        e0 e1 e2 e3

/-- The address drives of a parallel READ: in list order, the pin of index `i` at level `addr[i]` (R56, R181). -/
def addressEvents (P : Profile) (addr : Arg) : List Event :=
  P.addrPins.zipIdx.flatMap fun x => roleDrive P x.1 (addr.getLsbD x.2)

/-- Bit `i` of a READ's address reaches a pin. Parallel: entry `i` of the address list names one, an entry 0 is a bit with
no pin (R53, R145, R181). ISP: bits 12:0 go out over SDO (R212), of which nothing is driven where the role is absent
(R126, R200). -/
def addressBitHasPin (P : Profile) (i : Nat) : Bool :=
  if isIsp P then decide (i < 13) && (translatePin P (roleSdo P)).isSome else (translatePin P (nth P.addrPins i)).isSome

/-- The samples of one pass that returned `b`: the pin of index `i < n = data_width`, at the level that stands in bit
`8 - n + i` of `b` (R183). -/
def passEvents (P : Profile) (b : Byte) : List Event :=
  (List.range P.dataWidth).flatMap fun i =>
    roleSample P (nth P.dataPins i) (b.getLsbD (8 - P.dataWidth + i))

/-- A byte one pass can return: the bits below `8 - n` are 0, and so is the bit of an unused entry (R183). -/
def PassByte (P : Profile) (b : Byte) : Prop :=
  (∀ j, j < 8 - P.dataWidth → b.getLsbD j = false) ∧
  ∀ i, i < P.dataWidth → translatePin P (nth P.dataPins i) = none → b.getLsbD (8 - P.dataWidth + i) = false

/-- The passes of a convergence read that may take `n` of them and returns `b` (R184, R185): no two neighbours before
the last two agree; it stops when two agree or `n` are made; it returns the last. -/
structure Converges (n : Nat) (passes : List Byte) (b : Byte) : Prop where
  result : passes.getLast? = some b
  atMost : passes.length ≤ n
  disagree : ∀ j x y, j + 2 < passes.length → passes[j]? = some x → passes[j + 1]? = some y → x ≠ y
  stop : passes.length = n ∨ ∃ l, passes = l ++ [b, b]

/-- All five ISP roles are present (R213). -/
def AllRoles (P : Profile) : Prop :=
  roleSck P ≠ 0 ∧ roleSdo P ≠ 0 ∧ roleRst P ≠ 0 ∧ roleXclk P ≠ 0 ∧ roleSdi P ≠ 0

/-- `t` differs from `s` at most in `st`, the pins, the trace, the target and the responses: everything else a request can
reach is as it was. -/
structure OnlySocket (s t : State) : Prop where
  sel : t.sel = s.sel
  refused : t.refused = s.refused
  requests : t.requests = s.requests
  cfg : t.cfg = s.cfg

/-- The registers of the block (R20). -/
structure Registers where
  st : SeqState
  sel : Nat
  dir : PinFile
  lvl : PinFile
  deriving DecidableEq, Repr

/-- The registers of a state. -/
def State.registers (s : State) : Registers := { st := s.st, sel := s.sel, dir := s.dir, lvl := s.lvl }

end Sys2Proof.Machine
end

