-- ==== Sys2Proof/Certificates/Slice0/Obligations.lean ====
section
/-! DEFINITION. The statements for the provers. Each docstring names the rule of spec/ it formalises. A hypothesis
`s.profile? = some P` says that `P` is the active profile `CATALOG[sel]` (R14, R21). Most rules carry the spec's own mark
`[decision: ...]` or `[derived: ...]`: the choice is the spec's. Where a statement rests on a choice of this model, its
docstring names the log entry. -/

open Sys2Proof
open Sys2Proof.Machine

/-! ## Encoding -/

/-- R83 to R86: the decoder reads back every well-formed request from its word, every operand at every value. -/
def Obligations.DecodeReadsBackEncode : Prop :=
  ∀ i : Instr, i.WellFormed → decode (encode i) = .ok i

/-- R83 to R86: a word the decoder accepts is the word of a well-formed request. No bit of a word is dropped. -/
def Obligations.EncodeReadsBackDecode : Prop :=
  ∀ (w : ReqWord) (i : Instr), decode w = .ok i → i.WellFormed ∧ encode i = w

/-- R85: a word selects a row (`w & mask == match`) exactly when the decoder reads that row's operation. -/
def Obligations.DecodeFollowsOperationMap : Prop :=
  ∀ w : ReqWord, ∀ r ∈ opTable,
    r.selects w = true ↔ ∃ i, decode w = .ok i ∧ i.mnemonic = r.mnemonic

/-- R86: the eight rows do not overlap. -/
def Obligations.OperationRowsDoNotOverlap : Prop :=
  ∀ w : ReqWord, ∀ r1 ∈ opTable, ∀ r2 ∈ opTable, r1.selects w = true → r2.selects w = true → r1 = r2

/-- R87, R88, R273: a word with a reserved `op`, or with must-be-zero bits set, is answered `ERR_OP` with `val = 0`; no
register changes, no event is appended. -/
def Obligations.IllegalWordsAnswerErrOp : Prop :=
  ∀ (s : State) (w : ReqWord) (rest : List ReqWord), s.requests = w :: rest →
    (8 ≤ (w.extractLsb' 32 8).toNat ∨
      (((w.extractLsb' 32 8).toNat = 0 ∨ (w.extractLsb' 32 8).toNat = 2 ∨ (w.extractLsb' 32 8).toNat = 4) ∧
        w.extractLsb' 0 32 ≠ 0#32) ∨
      (((w.extractLsb' 32 8).toNat = 5 ∨ (w.extractLsb' 32 8).toNat = 7) ∧ w.extractLsb' 8 24 ≠ 0#24) ∨
      ((w.extractLsb' 32 8).toNat = 6 ∧ w.extractLsb' 16 16 ≠ 0#16)) →
    step s = .next { s with requests := rest, responses := s.responses ++ [{ status := .errOp, val := 0#32 }] }

/-- R85: words written out from the operation map decode to the requests they stand for. -/
def Obligations.SpecWordsDecode : Prop :=
  decode 0x0000000000#40 = .ok .tristate ∧ decode 0x0100000005#40 = .ok (.select 5) ∧
  decode 0x01FFFFFFFF#40 = .ok (.select 4294967295) ∧ decode 0x0200000000#40 = .ok .setup ∧
  decode 0x0300004000#40 = .ok (.read 0x4000#32) ∧ decode 0x0400000000#40 = .ok .ispProbe ∧
  decode 0x05000000AC#40 = .ok (.ispXfer 0xAC#8) ∧ decode 0x060000FFFF#40 = .ok (.ispClock 65535) ∧
  decode 0x070000000F#40 = .ok (.xlate 15)

/-- R82, R86: a step takes the next word off the request port and runs the request it decodes to; nothing else is done
around it. The model's own (log 7, DESIGN CHOICE): that words wait in a list, that a step with no word presented changes
nothing, and that a word placed by `withFetchWord` is the one the next step runs. -/
def Obligations.StepRunsNextRequest : Prop :=
  (∀ s : State, s.requests = [] → step s = .next s) ∧
  (∀ (s : State) (w : ReqWord) (rest : List ReqWord) (i : Instr), s.requests = w :: rest → decode w = .ok i →
    step s = exec i { s with requests := rest }) ∧
  (∀ (s : State) (nbits w : Nat) (i : Instr), decodeTableWord nbits w = some i →
    step (s.withFetchWord nbits w) = exec i s)

/-- R89, R90: the response word carries the status code in bits 39:32 and `val` in bits 31:0; it reads back; the codes
are 0 to 5 and the codes 6 to 255 stand for no status. -/
def Obligations.ResponseWordFormat : Prop :=
  (∀ r : Response, (Response.word r).extractLsb' 32 8 = Status.code r.status ∧
    (Response.word r).extractLsb' 0 32 = r.val ∧ Response.ofWord (Response.word r) = some r) ∧
  (Status.code .ok).toNat = 0 ∧ (Status.code .errOp).toNat = 1 ∧ (Status.code .errRange).toNat = 2 ∧
  (Status.code .errState).toNat = 3 ∧ (Status.code .ispFail).toNat = 4 ∧ (Status.code .errUnsup).toNat = 5 ∧
  ∀ c : BitVec 8, 6 ≤ c.toNat → Status.ofCode c = none

/-! ## The translator and the pins -/

/-- R122 (a) to (f): range, injectivity, image, the 40-pin identity, monotonicity, the two end pins; and the sentinel. -/
def Obligations.TranslatorProperties : Prop :=
  ∀ P : Profile, 1 ≤ P.pins → P.pins ≤ 40 →
    (∀ k, 1 ≤ k → k ≤ P.pins → ∃ p, translatePin P k = some p ∧ 1 ≤ p ∧ p ≤ 40) ∧
    (∀ k1 k2, k1 ≤ P.pins → k2 ≤ P.pins → translatePin P k1 = translatePin P k2 → k1 = k2) ∧
    (∀ p, (∃ k, 1 ≤ k ∧ k ≤ P.pins ∧ translatePin P k = some p) ↔
      (1 ≤ p ∧ p ≤ P.pins / 2) ∨ (41 - (P.pins - P.pins / 2) ≤ p ∧ p ≤ 40)) ∧
    (P.pins = 40 → ∀ k, 1 ≤ k → k ≤ 40 → translatePin P k = some k) ∧
    (∀ k1 k2 p1 p2, k1 ≤ k2 → k2 ≤ P.pins → translatePin P k1 = some p1 → translatePin P k2 = some p2 → p1 ≤ p2) ∧
    (2 ≤ P.pins → translatePin P 1 = some 1) ∧
    translatePin P P.pins = some 40 ∧ translatePin P 0 = none

/-- R128: XLATE answers the physical pin as a number, 0 for an unused pin, in every state; a package pin above `pins` is
`ERR_RANGE`. It writes no register and appends no event. -/
def Obligations.XlateAnswersPhysicalPin : Prop :=
  ∀ (s : State) (P : Profile) (k : Nat), s.profile? = some P →
    (k ≤ P.pins → exec (.xlate k) s = .next { s with responses := s.responses ++
      [{ status := .ok, val := BitVec.ofNat 32 (if k ≤ P.pins / 2 then k else k + (40 - P.pins)) }] }) ∧
    (P.pins < k → exec (.xlate k) s =
      .next { s with responses := s.responses ++ [{ status := .errRange, val := 0#32 }] })

/-- R27, R28, R29, R316: `set_direction` writes `dir[p]` only, `drive` writes `lvl[p]` only, `sample` and `delay` write
no register; each appends its one event. R29, R66: the level a sample returns is the target's answer. The model's own (log 2,
DESIGN CHOICE): that the unconstrained oracle's answer is the free value `Config.targetLevel` of the seed, the trace so far,
`dir`, `lvl` and the pin, and that the oracle stays. -/
def Obligations.PortCallsWriteOneRegister : Prop :=
  ∀ (s : State) (p : Nat), 1 ≤ p → p ≤ 40 →
    (∀ o, (s.setDirection p o).dirOf p = o ∧ (∀ q, q ≠ p → (s.setDirection p o).dirOf q = s.dirOf q) ∧
      s.setDirection p o =
        { s with dir := (s.setDirection p o).dir, trace := s.trace ++ [Event.dir p o] }) ∧
    (∀ l, (s.drive p l).lvlOf p = l ∧ (∀ q, q ≠ p → (s.drive p l).lvlOf q = s.lvlOf q) ∧
      s.drive p l = { s with lvl := (s.drive p l).lvl, trace := s.trace ++ [Event.drv p l] }) ∧
    (s.sample p).2 =
      { s with target := (Target.answer s p).2, trace := s.trace ++ [Event.smp p (s.sample p).1] } ∧
    (s.sample p).1 = (Target.answer s p).1 ∧
    (∀ seed, s.target = .free seed → (s.sample p).1 = Config.targetLevel seed s.trace s.dir s.lvl p ∧
      (s.sample p).2.target = .free seed) ∧
    ∀ K, s.delay K = { s with trace := s.trace ++ [Event.dly K] }

/-- R124 to R127: what the four pin primitives write and append, for a package pin with a physical pin of the socket, with
their whole frame; that `pin_get` is the sample of that pin; and that all four do nothing for an unused one. -/
def Obligations.PinPrimitivesTouchTheirPin : Prop :=
  ∀ (s : State) (P : Profile) (k : Nat),
    (∀ p, translatePin P k = some p → 1 ≤ p → p ≤ 40 →
      (∀ v, (pinOut P k v s).dirOf p = true ∧ (pinOut P k v s).lvlOf p = v ∧
        (∀ q, q ≠ p → (pinOut P k v s).dirOf q = s.dirOf q ∧ (pinOut P k v s).lvlOf q = s.lvlOf q) ∧
        pinOut P k v s = { s with
          dir := (pinOut P k v s).dir, lvl := (pinOut P k v s).lvl,
          trace := s.trace ++ [Event.drv p v, Event.dir p true] }) ∧
      (∀ u, (pinIn P k u s).dirOf p = false ∧ (pinIn P k u s).lvlOf p = u ∧
        (∀ q, q ≠ p → (pinIn P k u s).dirOf q = s.dirOf q ∧ (pinIn P k u s).lvlOf q = s.lvlOf q) ∧
        pinIn P k u s = { s with
          dir := (pinIn P k u s).dir, lvl := (pinIn P k u s).lvl,
          trace := s.trace ++ [Event.dir p false, Event.drv p u] }) ∧
      (∀ v, (pinSet P k v s).lvlOf p = v ∧
        (∀ q, q ≠ p → (pinSet P k v s).lvlOf q = s.lvlOf q) ∧
        pinSet P k v s = { s with lvl := (pinSet P k v s).lvl, trace := s.trace ++ [Event.drv p v] }) ∧
      pinGet P k s = s.sample p ∧ (pinGet P k s).2.registers = s.registers ∧
      (pinGet P k s).2.trace = s.trace ++ [Event.smp p (pinGet P k s).1]) ∧
    (k = 0 → (∀ v, pinOut P k v s = s ∧ pinIn P k v s = s ∧ pinSet P k v s = s) ∧ pinGet P k s = (false, s))

/-! ## Selection -/

/-- R150: SELECT outside `Tristate` is `ERR_STATE`; an index out of range is `ERR_RANGE`; otherwise `sel` is the index,
and nothing else changes. -/
def Obligations.SelectChangesTheReferenceOnly : Prop :=
  ∀ (s : State) (idx : Nat),
    (s.st = .tristate → idx < s.cfg.catalog.length →
      exec (.select idx) s = .next { s with
        sel := idx, responses := s.responses ++ [{ status := .ok, val := 0#32 }] }) ∧
    (s.st = .tristate → s.cfg.catalog.length ≤ idx →
      exec (.select idx) s = .next { s with responses := s.responses ++ [{ status := .errRange, val := 0#32 }] }) ∧
    (s.st ≠ .tristate →
      exec (.select idx) s = .next { s with responses := s.responses ++ [{ status := .errState, val := 0#32 }] })

/-- R150, R21, R128: SELECT of any index of the catalog, presented at the port in `Tristate`, completes with `OK` and changes
`sel` and nothing else of the block; the very next request works on the profile selected: an XLATE presented after it
answers by that profile's pin count. -/
def Obligations.SelectedProfileIsUsedNext : Prop :=
  ∀ (s : State) (idx k : Nat) (rest : List ReqWord) (P : Profile),
    s.st = .tristate → s.cfg.catalog[idx]? = some P → idx < 2 ^ 32 → k < 2 ^ 8 → k ≤ P.pins →
    s.requests = encode (.select idx) :: encode (.xlate k) :: rest →
    ∃ t u, exec (.select idx) s = .next { s with
        sel := idx, responses := s.responses ++ [{ status := .ok, val := 0#32 }] } ∧
      step s = .next t ∧ t.sel = idx ∧ t.profile? = some P ∧ t.st = .tristate ∧ t.dir = s.dir ∧ t.lvl = s.lvl ∧
      t.trace = s.trace ∧ t.requests = encode (.xlate k) :: rest ∧
      t.responses = s.responses ++ [{ status := .ok, val := 0#32 }] ∧
      step t = .next u ∧ u.registers = t.registers ∧
      u.responses = t.responses ++
        [{ status := .ok, val := BitVec.ofNat 32 (if k ≤ P.pins / 2 then k else k + (40 - P.pins)) }]

/-! ## SETUP and TRISTATE -/

/-- R160, R162 to R166, R71 (a): SETUP of a parallel profile in `Tristate` completes in `Ready` with `OK`; the trace gains
the fixed-low, fixed-high, address and data pins in that order and then the settle delay; nothing else outside the pins
changes, and pins of none of the four lists keep their direction and level. -/
def Obligations.SetupParallelCompletes : Prop :=
  ∀ (s : State) (P : Profile), s.profile? = some P → s.st = .tristate → optLatch P = false → isIsp P = false →
    ∃ t, exec .setup s = .next t ∧ t.st = .ready ∧
      t.responses = s.responses ++ [{ status := .ok, val := 0#32 }] ∧
      t.trace = s.trace ++ setupEvents P ∧ t.target = s.target ∧ OnlySocket s t ∧
      ∀ p, ¬ IsPinOf P (allPins P) p → t.dirOf p = s.dirOf p ∧ t.lvlOf p = s.lvlOf p

/-- R162 to R165, R168 (c): after SETUP of a well-formed parallel profile from tri-stated pins, fixed-low pins are outputs
at 0, fixed-high pins outputs at 1, address pins outputs at 0, data pins inputs with the pull-up of the option, and
every other pin is undriven. -/
def Obligations.SetupConfiguresEveryPin : Prop :=
  ∀ (s t : State) (P : Profile), s.profile? = some P → Profile.wf P = true → isIsp P = false → optLatch P = false →
    s.st = .tristate → Undriven s → exec .setup s = .next t →
    ParallelPins P t ∧ ∀ p, IsPinOf P P.addrPins p → t.lvlOf p = false

/-- R168 (a), (d): the number of events SETUP of a parallel profile appends; for the safe profile it is the one settle
delay, and no pin changes. -/
def Obligations.SetupEventCount : Prop :=
  (∀ (s t : State) (P : Profile), s.profile? = some P → s.st = .tristate → optLatch P = false → isIsp P = false →
    exec .setup s = .next t →
    t.trace.length = s.trace.length + 2 * (allPins P).countP (· ≠ 0) + 1) ∧
  (∀ (s : State) (P : Profile), s.profile? = some P → s.st = .tristate → Profile.w7 P = true →
    exec .setup s = .next { s with
      st := .ready, trace := s.trace ++ [Event.dly .settle],
      responses := s.responses ++ [{ status := .ok, val := 0#32 }] })

/-- R161: SETUP of a profile with `OPT_LATCH` answers `ERR_UNSUP`, touches no pin, leaves `st`, sets the `refused` mark. -/
def Obligations.SetupRefusesLatchOption : Prop :=
  ∀ (s : State) (P : Profile), s.profile? = some P → s.st = .tristate → optLatch P = true →
    exec .setup s = .next { s with
      refused := true, responses := s.responses ++ [{ status := .errUnsup, val := 0#32 }] }

/-- R170, R171 (a), (c), (e): TRISTATE completes in every state, makes all 40 pins undriven inputs at level 0, appends
exactly `Dir(1,0) Drv(1,0) ... Dir(40,0) Drv(40,0)`, goes to `Tristate` and leaves `sel` and the rest. -/
def Obligations.TristateReleasesEveryPin : Prop :=
  ∀ s : State, ∃ t, exec .tristate s = .next t ∧ t.st = .tristate ∧ Undriven t ∧
    t.trace = s.trace ++ tristateEvents ∧ tristateEvents.length = 80 ∧
    t.responses = s.responses ++ [{ status := .ok, val := 0#32 }] ∧ t.target = s.target ∧ OnlySocket s t

/-- R171 (b): "invoking tri-state twice in a row leaves identical pin states as invoking it once": the second one changes
no register and appends the same events again. -/
def Obligations.TristateIsIdempotent : Prop :=
  ∀ s t u : State, exec .tristate s = .next t → exec .tristate t = .next u →
    u.registers = t.registers ∧ ∃ es, t.trace = s.trace ++ es ∧ u.trace = t.trace ++ es

/-! ## The ISP engine -/

/-- R167, R208, R209: SETUP of an ISP profile in `Tristate` completes: the trace gains the configuration, then the entry
sequence with the four echoes; the third echo alone decides between `Ready` with `OK` and `Faulted` with `ISP_FAIL`;
`val` is the four echoes either way; an absent SDI echoes 0. -/
def Obligations.SetupIspRunsEntrySequence : Prop :=
  ∀ (s : State) (P : Profile), s.profile? = some P → s.st = .tristate → optLatch P = false → isIsp P = true →
    ∃ t e0 e1 e2 e3, exec .setup s = .next t ∧
      t.trace = s.trace ++ setupEvents P ++ entryEvents P s.cfg e0 e1 e2 e3 ∧
      t.st = (if e2 = s.cfg.ispSentinel then .ready else .faulted) ∧
      t.responses = s.responses ++
        [{ status := if e2 = s.cfg.ispSentinel then .ok else .ispFail, val := e0 ++ e1 ++ e2 ++ e3 }] ∧
      (roleSdi P = 0 → e0 = 0#8 ∧ e1 = 0#8 ∧ e2 = 0#8 ∧ e3 = 0#8) ∧ OnlySocket s t ∧
      ∀ p, ¬ IsPinOf P (allPins P) p → t.dirOf p = s.dirOf p ∧ t.lvlOf p = s.lvlOf p

/-- R210, R208, R209: ISP_PROBE with an ISP profile in `Ready` or `Faulted` completes: the entry sequence again, without
SETUP's steps and settle delay, from `Ready` and from `Faulted` alike. Only the role pins are touched. -/
def Obligations.ProbeRunsEntrySequence : Prop :=
  ∀ (s : State) (P : Profile), s.profile? = some P → isIsp P = true → (s.st = .ready ∨ s.st = .faulted) →
    ∃ t e0 e1 e2 e3, exec .ispProbe s = .next t ∧
      t.trace = s.trace ++ entryEvents P s.cfg e0 e1 e2 e3 ∧
      t.st = (if e2 = s.cfg.ispSentinel then .ready else .faulted) ∧
      t.responses = s.responses ++
        [{ status := if e2 = s.cfg.ispSentinel then .ok else .ispFail, val := e0 ++ e1 ++ e2 ++ e3 }] ∧
      (roleSdi P = 0 → e0 = 0#8 ∧ e1 = 0#8 ∧ e2 = 0#8 ∧ e3 = 0#8) ∧ OnlySocket s t ∧
      ∀ p, ¬ IsPinOf P [roleSck P, roleSdo P, roleRst P, roleXclk P, roleSdi P] p →
        t.dirOf p = s.dirOf p ∧ t.lvlOf p = s.lvlOf p

/-- R201, R208, R211: the pins an entry sequence leaves: after SETUP of a well-formed ISP profile from tri-stated pins,
and again after every ISP_PROBE, RST, SCK and XCLK are outputs at 0, SDO is an output, SDI an input with its pull-up on
whatever `OPT_PULLUP` says, and the fixed pins stay powered. The conditions `IspPins` as a whole are the model's reading of
these rules (log 6, DEDUCED): R41 states no pin invariant for the ISP flavour. -/
def Obligations.EntrySequencePins : Prop :=
  (∀ (s t : State) (P : Profile), s.profile? = some P → Profile.wf P = true → isIsp P = true → optLatch P = false →
    s.st = .tristate → Undriven s → exec .setup s = .next t → IspPins P t) ∧
  (∀ (s t : State) (P : Profile), s.profile? = some P → Profile.wf P = true → isIsp P = true →
    (s.st = .ready ∨ s.st = .faulted) → IspPins P s → exec .ispProbe s = .next t → IspPins P t)

/-- R206, R207: ISP_XFER with an ISP profile in `Ready` or `Faulted` completes with the byte received, whose bits are the
levels sampled, most significant first; the trace gains, per bit, data-out, pulse, SCK high, pulse, sample, SCK low;
`st` stays. -/
def Obligations.XferExchangesOneByte : Prop :=
  ∀ (s : State) (P : Profile) (b : Byte), s.profile? = some P → isIsp P = true → (s.st = .ready ∨ s.st = .faulted) →
    ∃ t r, exec (.ispXfer b) s = .next t ∧ t.trace = s.trace ++ xferEvents P s.cfg.ispBitCycles b r ∧
      t.responses = s.responses ++ [{ status := .ok, val := r.setWidth 32 }] ∧
      (roleSdi P = 0 → r = 0#8) ∧ t.st = s.st ∧ OnlySocket s t

/-- R206: the pins after ISP_XFER of `b` on a well-formed ISP profile: no direction changes; SDO ends at `b[0]`, SCK at 0,
XCLK at 0 (when a pulse has a cycle at all); every other level is as it was. -/
def Obligations.XferPins : Prop :=
  ∀ (s t : State) (P : Profile) (b : Byte), s.profile? = some P → Profile.wf P = true →
    isIsp P = true → (s.st = .ready ∨ s.st = .faulted) → exec (.ispXfer b) s = .next t →
    t.dir = s.dir ∧ (∀ p, translatePin P (roleSdo P) = some p → t.lvlOf p = b.getLsbD 0) ∧
    (∀ p, translatePin P (roleSck P) = some p → t.lvlOf p = false) ∧
    (∀ p, translatePin P (roleXclk P) = some p → t.lvlOf p = if s.cfg.ispBitCycles = 0 then s.lvlOf p else false) ∧
    ∀ p, ¬ IsPinOf P [roleSdo P, roleSck P, roleXclk P] p → t.lvlOf p = s.lvlOf p

/-- R202, R203: ISP_CLOCK with an ISP profile in `Ready` or `Faulted` completes: `n` cycles of high, delay, low, delay on
XCLK, whose level is 0 after `n >= 1` cycles and what it was after none (`n = 0` appends no event and changes no pin);
no other pin and no other state changes. -/
def Obligations.ClockTogglesXclk : Prop :=
  ∀ (s : State) (P : Profile) (n : Nat), s.profile? = some P → isIsp P = true → (s.st = .ready ∨ s.st = .faulted) →
    ∃ t, exec (.ispClock n) s = .next t ∧ t.trace = s.trace ++ clockEvents P n ∧
      t.responses = s.responses ++ [{ status := .ok, val := 0#32 }] ∧
      t.st = s.st ∧ t.target = s.target ∧ OnlySocket s t ∧ t.dir = s.dir ∧
      (∀ p, translatePin P (roleXclk P) = some p → t.lvlOf p = if n = 0 then s.lvlOf p else false) ∧
      ∀ p, translatePin P (roleXclk P) ≠ some p → t.lvlOf p = s.lvlOf p

/-- R180, R212: READ with an ISP profile in `Ready` completes with the byte received in the fourth slot of one frame:
opcode byte with bit 12, bits 11:8, bits 7:0, dummy byte. It writes what four exchanges write: for a well-formed profile
SDO ends at bit 0 of the dummy byte, SCK at 0, XCLK at 0 (when a pulse has a cycle at all). -/
def Obligations.ReadIspSendsOneFrame : Prop :=
  ∀ (s : State) (P : Profile) (addr : Arg), s.profile? = some P → isIsp P = true → s.st = .ready →
    ∃ t r0 r1 r2 r3, exec (.read addr) s = .next t ∧
      t.trace = s.trace ++ frameEvents P s.cfg.ispBitCycles
        (s.cfg.ispReadBase ||| (if addr.getLsbD 12 then s.cfg.ispReadHbit else 0#8))
        ((addr.extractLsb' 8 4).setWidth 8) (addr.extractLsb' 0 8) s.cfg.ispDummy r0 r1 r2 r3 ∧
      t.responses = s.responses ++ [{ status := .ok, val := r3.setWidth 32 }] ∧
      (roleSdi P = 0 → r3 = 0#8) ∧ t.st = .ready ∧ OnlySocket s t ∧ t.dir = s.dir ∧
      (∀ p, ¬ IsPinOf P [roleSdo P, roleSck P, roleXclk P] p → t.lvlOf p = s.lvlOf p) ∧
      (Profile.wf P = true →
        (∀ p, translatePin P (roleSdo P) = some p → t.lvlOf p = s.cfg.ispDummy.getLsbD 0) ∧
        (∀ p, translatePin P (roleSck P) = some p → t.lvlOf p = false) ∧
        ∀ p, translatePin P (roleXclk P) = some p →
          t.lvlOf p = if s.cfg.ispBitCycles = 0 then s.lvlOf p else false)

/-- R213: event counts with all five roles present, `c = ISP_BIT_CYCLES`, `r = ISP_RST_CYCLES`, in every state in which the
request is accepted (R201, R180). -/
def Obligations.IspEventCounts : Prop :=
  ∀ (s t : State) (P : Profile), s.profile? = some P → isIsp P = true → AllRoles P →
    (s.st = .ready ∨ s.st = .faulted) →
    (∀ n, exec (.ispClock n) s = .next t → t.trace.length = s.trace.length + 4 * n) ∧
    (∀ b, exec (.ispXfer b) s = .next t → t.trace.length = s.trace.length + (32 + 64 * s.cfg.ispBitCycles)) ∧
    (exec .ispProbe s = .next t →
      t.trace.length = s.trace.length + (134 + 8 * s.cfg.ispRstCycles + 256 * s.cfg.ispBitCycles)) ∧
    (s.st = .ready → ∀ a, exec (.read a) s = .next t →
      t.trace.length = s.trace.length + (128 + 256 * s.cfg.ispBitCycles))

/-- R68, R206 to R212 under the named oracle `ScriptBytes` (bit 7 first), SDI present: ISP_XFER returns the next scripted
byte, READ the fourth, ISP_PROBE all four, its outcome decided by the third; the rest of the script is left. -/
def Obligations.ScriptedSerialLink : Prop :=
  ∀ (s : State) (P : Profile) (e0 e1 e2 e3 : Byte) (rest : List Level), s.profile? = some P → isIsp P = true →
    roleSdi P ≠ 0 →
    (∀ b, (s.st = .ready ∨ s.st = .faulted) → s.target = .script (bitsMsbFirst e0 ++ rest) →
      ∃ t, exec (.ispXfer b) s = .next t ∧ t.target = .script rest ∧
        t.responses = s.responses ++ [{ status := .ok, val := e0.setWidth 32 }]) ∧
    (∀ addr, s.st = .ready → s.target = .script ([e0, e1, e2, e3].flatMap bitsMsbFirst ++ rest) →
      ∃ t, exec (.read addr) s = .next t ∧ t.target = .script rest ∧
        t.responses = s.responses ++ [{ status := .ok, val := e3.setWidth 32 }]) ∧
    ((s.st = .ready ∨ s.st = .faulted) → s.target = .script ([e0, e1, e2, e3].flatMap bitsMsbFirst ++ rest) →
      ∃ t, exec .ispProbe s = .next t ∧ t.target = .script rest ∧
        t.st = (if e2 = s.cfg.ispSentinel then .ready else .faulted) ∧
        t.responses = s.responses ++
          [{ status := if e2 = s.cfg.ispSentinel then .ok else .ispFail, val := e0 ++ e1 ++ e2 ++ e3 }])

/-! ## The parallel read -/

/-- R180 to R185: READ with a parallel profile in `Ready` completes: the trace gains the address drives in list order, one
propagation delay, then the passes; the passes stop at the first two neighbours that agree or at `N_SAMPLES`, and the
last one is returned. `st` stays `Ready`; never an error. For a data bus narrower than 8 bits the byte is left-justified:
the spec marks this as inferred (C3, U16) and the model follows it (log 13, DEDUCED). -/
def Obligations.ReadParallelConverges : Prop :=
  ∀ (s : State) (P : Profile) (addr : Arg), s.profile? = some P → isIsp P = false → P.dataWidth ≤ 8 → s.st = .ready →
    1 ≤ s.cfg.nSamples →
    ∃ t passes b, exec (.read addr) s = .next t ∧ Converges s.cfg.nSamples passes b ∧
      (∀ x ∈ passes, PassByte P x) ∧
      t.trace = s.trace ++ addressEvents P addr ++ [Event.dly .prop] ++ passes.flatMap (passEvents P) ∧
      t.responses = s.responses ++ [{ status := .ok, val := b.setWidth 32 }] ∧ t.st = .ready ∧ OnlySocket s t

/-- R64, R181: after a parallel READ of `addr` the address pin of index `i` is at `addr[i]`; no direction changes, and
every other level is as it was. -/
def Obligations.ReadParallelPins : Prop :=
  ∀ (s t : State) (P : Profile) (addr : Arg), s.profile? = some P → Profile.wf P = true → isIsp P = false →
    s.st = .ready → 1 ≤ s.cfg.nSamples → exec (.read addr) s = .next t →
    t.dir = s.dir ∧ (∀ i p, translatePin P (nth P.addrPins i) = some p → t.lvlOf p = addr.getLsbD i) ∧
    ∀ p, ¬ IsPinOf P P.addrPins p → t.lvlOf p = s.lvlOf p

/-- R185 (a), (g): a READ of a parallel profile appends `A + 1 + j * D` events, `j` the number of passes, at least 2 and at
most `N_SAMPLES` (1 when `N_SAMPLES` is 1). -/
def Obligations.ReadEventCount : Prop :=
  ∀ (s t : State) (P : Profile) (addr : Arg), s.profile? = some P → isIsp P = false → P.dataWidth ≤ 8 →
    s.st = .ready → 1 ≤ s.cfg.nSamples → exec (.read addr) s = .next t →
    ∃ j, j ≤ s.cfg.nSamples ∧ (2 ≤ s.cfg.nSamples → 2 ≤ j) ∧ 1 ≤ j ∧
      t.trace.length = s.trace.length +
        (P.addrPins.countP (· ≠ 0) + 1 + j * (List.range P.dataWidth).countP (fun i => nth P.dataPins i ≠ 0))

/-- R53, R145, R181, R212: bits of the address that reach no pin never matter. Two addresses that agree on the bits that
have a pin (parallel: the indexes whose entry of the address list names one, so that an unused entry below `addr_width`
is an address bit without a pin too; ISP: the low 13 bits, if the profile has an SDO) give the same outcome of READ in
every state, for every profile. For a well-formed parallel profile the bits that have a pin are below `addr_width`. -/
def Obligations.ReadIgnoresHighAddressBits : Prop :=
  ∀ P : Profile,
    (∀ (s : State) (a b : Arg), s.profile? = some P →
      (∀ i, i < 32 → addressBitHasPin P i = true → a.getLsbD i = b.getLsbD i) →
      exec (.read a) s = exec (.read b) s) ∧
    (Profile.wf P = true → isIsp P = false → ∀ i, addressBitHasPin P i = true → i < P.addrWidth)

/-- R184, R185 (b), (c), R68 under the named oracle `ScriptBytes` (bit 0 first) and an 8-bit profile whose data pins are
all present: the byte of the first pass that repeats its predecessor is returned; if none of `N_SAMPLES` does, the last
pass is. -/
def Obligations.ScriptedConvergence : Prop :=
  ∀ (s : State) (P : Profile) (addr : Arg) (bytes : List Byte), s.profile? = some P → P.dataWidth = 8 →
    (∀ i, i < 8 → nth P.dataPins i ≠ 0) → s.st = .ready → 1 ≤ s.cfg.nSamples → bytes.length = s.cfg.nSamples →
    s.target = parallelScript bytes →
    ∃ t b, exec (.read addr) s = .next t ∧ t.responses = s.responses ++ [{ status := .ok, val := b.setWidth 32 }] ∧
      (∀ j, j + 1 < bytes.length → bytes[j + 1]? = bytes[j]? →
        (∀ i, i < j → bytes[i + 1]? ≠ bytes[i]?) → bytes[j + 1]? = some b) ∧
      ((∀ i, i + 1 < bytes.length → bytes[i + 1]? ≠ bytes[i]?) → bytes.getLast? = some b)

/-- R180 to R184, R67: an ideal ROM behind a configured 8-bit profile is read right: READ `addr` returns `M(addr)`, the
address taken modulo `2^addr_width`. The oracle `IdealRom(M)` is a premise. -/
def Obligations.IdealRomIsReadBack : Prop :=
  ∀ (s : State) (P : Profile) (M : Memory) (addr : Arg), Inv s → s.profile? = some P → s.st = .ready →
    P.dataWidth = 8 → (∀ i, i < 8 → nth P.dataPins i ≠ 0) → (∀ i, i < P.addrWidth → nth P.addrPins i ≠ 0) →
    s.target = .idealRom M →
    ∃ t, exec (.read addr) s = .next t ∧ t.target = .idealRom M ∧
      t.responses = s.responses ++
        [{ status := .ok, val := (Memory.read M (addr.toNat % 2 ^ P.addrWidth)).setWidth 32 }]

/-- R148: a READ of the safe profile samples nothing, drives nothing and returns 0x00. -/
def Obligations.SafeProfileReadsZero : Prop :=
  ∀ (s : State) (P : Profile) (addr : Arg), s.profile? = some P → Profile.w7 P = true → s.st = .ready →
    exec (.read addr) s = .next { s with
      trace := s.trace ++ [Event.dly .prop], responses := s.responses ++ [{ status := .ok, val := 0#32 }] }

/-! ## Statuses -/

/-- R275, the whole table: a request not accepted in the present state answers `ERR_STATE`, and nothing changes; and no
request accepted there answers `ERR_STATE`: TRISTATE and XLATE never do. -/
def Obligations.RequestsRefusedInOtherStates : Prop :=
  ∀ s : State,
    (s.st ≠ .tristate → ∀ idx,
      exec (.select idx) s = .next { s with responses := s.responses ++ [{ status := .errState, val := 0#32 }] }) ∧
    (s.st ≠ .tristate →
      exec .setup s = .next { s with responses := s.responses ++ [{ status := .errState, val := 0#32 }] }) ∧
    (s.st ≠ .ready → ∀ addr,
      exec (.read addr) s = .next { s with responses := s.responses ++ [{ status := .errState, val := 0#32 }] }) ∧
    (∀ P, s.profile? = some P → (isIsp P = false ∨ (s.st ≠ .ready ∧ s.st ≠ .faulted)) →
      exec .ispProbe s = .next { s with responses := s.responses ++ [{ status := .errState, val := 0#32 }] } ∧
      (∀ b, exec (.ispXfer b) s =
        .next { s with responses := s.responses ++ [{ status := .errState, val := 0#32 }] }) ∧
      ∀ n, exec (.ispClock n) s =
        .next { s with responses := s.responses ++ [{ status := .errState, val := 0#32 }] }) ∧
    ∀ (i : Instr) (t : State) (v : BitVec 32), exec i s = .next t →
      t.responses = s.responses ++ [{ status := .errState, val := v }] →
      i ≠ .tristate ∧ (∀ k, i ≠ .xlate k) ∧ ((i = .setup ∨ ∃ idx, i = .select idx) → s.st ≠ .tristate) ∧
      ((∃ a, i = .read a) → s.st ≠ .ready) ∧
      ((i = .ispProbe ∨ (∃ b, i = .ispXfer b) ∨ ∃ n, i = .ispClock n) →
        ∀ P, s.profile? = some P → isIsp P = false ∨ (s.st ≠ .ready ∧ s.st ≠ .faulted))

/-- R271, R91, R273 to R277: `ERR_OP`, `ERR_RANGE`, `ERR_STATE` and `ERR_UNSUP` leave `st`, `sel`, `dir`, `lvl` and the
trace exactly as they were, with `val = 0`; `ISP_FAIL` leaves the engine in `Faulted`; and the block answers every
request with exactly one response. -/
def Obligations.ErrorsChangeNothing : Prop :=
  ∀ (i : Instr) (s t : State), exec i s = .next t → ∃ r, t.responses = s.responses ++ [r] ∧
    (r.status.noChange = true → r.val = 0#32 ∧ t.registers = s.registers ∧ t.trace = s.trace ∧ t.target = s.target) ∧
    (r.status = .ispFail → t.st = .faulted) ∧
    (r.status = .errUnsup → i = .setup ∧ t.refused = true) ∧
    (r.status ≠ .errUnsup → t.refused = s.refused) ∧ r.status ≠ .errOp

/-- R278: the first check that fails gives the status: decode before all others, state before range, state before the latch
option, and all of them before the handshake: SETUP of a latch ISP profile answers `ERR_UNSUP`, SETUP and ISP_PROBE of an
ISP profile in a state that does not accept them `ERR_STATE`, and no handshake is run. -/
def Obligations.StatusPriority : Prop :=
  ∀ (s : State) (w : ReqWord) (rest : List ReqWord), s.requests = w :: rest →
    ((∀ i, decode w ≠ .ok i) → step s = .next { s with
      requests := rest, responses := s.responses ++ [{ status := .errOp, val := 0#32 }] }) ∧
    (∀ idx, decode w = .ok (.select idx) → s.st ≠ .tristate → s.cfg.catalog.length ≤ idx → step s = .next { s with
      requests := rest, responses := s.responses ++ [{ status := .errState, val := 0#32 }] }) ∧
    (∀ P, decode w = .ok .setup → s.st ≠ .tristate → s.profile? = some P → optLatch P = true → step s = .next { s with
      requests := rest, responses := s.responses ++ [{ status := .errState, val := 0#32 }] }) ∧
    (∀ P, s.profile? = some P → isIsp P = true →
      (decode w = .ok .setup → s.st = .tristate → optLatch P = true → step s = .next { s with
        requests := rest, refused := true, responses := s.responses ++ [{ status := .errUnsup, val := 0#32 }] }) ∧
      (decode w = .ok .setup → s.st ≠ .tristate → step s = .next { s with
        requests := rest, responses := s.responses ++ [{ status := .errState, val := 0#32 }] }) ∧
      (decode w = .ok .ispProbe → s.st ≠ .ready → s.st ≠ .faulted → step s = .next { s with
        requests := rest, responses := s.responses ++ [{ status := .errState, val := 0#32 }] }))

/-- R23, R82, R282: while `sel` names a profile, every word presented is taken and answered: the block never halts. -/
def Obligations.EveryRequestIsAnswered : Prop :=
  ∀ (s : State) (w : ReqWord) (rest : List ReqWord), s.sel < s.cfg.catalog.length → s.requests = w :: rest →
    ∃ t r, step s = .next t ∧ t.responses = s.responses ++ [r] ∧ t.requests = rest ∧
      t.sel < t.cfg.catalog.length

/-- The model's own stop (log 5): with no active profile, the requests that read `P` stop with that fault. -/
def Obligations.NoActiveProfileStops : Prop :=
  ∀ s : State, s.profile? = none →
    (∀ k, exec (.xlate k) s = .fault .noActiveProfile) ∧
    (s.st = .tristate → exec .setup s = .fault .noActiveProfile) ∧
    (s.st = .ready → ∀ a, exec (.read a) s = .fault .noActiveProfile) ∧
    exec .ispProbe s = .fault .noActiveProfile ∧
    (∀ b, exec (.ispXfer b) s = .fault .noActiveProfile) ∧
    ∀ n, exec (.ispClock n) s = .fault .noActiveProfile

/-! ## Rules of the whole machine -/

/-- R40, R300, R301: the registers after reset of a block built with any parameters; no event, an idle port. The value
`sel = 0` is the spec's own decision (D20). -/
def Obligations.ResetValues : Prop :=
  ∀ (cfg : Config) (tgt : Target),
    (State.resetWith cfg tgt).st = .tristate ∧ (State.resetWith cfg tgt).sel = 0 ∧
    (∀ p, (State.resetWith cfg tgt).dirOf p = false ∧ (State.resetWith cfg tgt).lvlOf p = false) ∧
    (State.resetWith cfg tgt).trace = [] ∧ (State.resetWith cfg tgt).refused = false ∧
    (State.resetWith cfg tgt).requests = [] ∧ (State.resetWith cfg tgt).responses = []

/-- R22, R32, R35, R41 (e): who writes each register. `st`: SETUP, TRISTATE, ISP_PROBE. `sel`: SELECT, while `st` is
`Tristate`. The `refused` mark: set by SETUP, never cleared. The parameters: nobody. Directions: SETUP, TRISTATE and
ISP_PROBE. The trace is only ever extended. -/
def Obligations.RegistersAreWrittenBy : Prop :=
  ∀ (i : Instr) (s t : State), exec i s = .next t →
    (t.st ≠ s.st → i = .setup ∨ i = .tristate ∨ i = .ispProbe) ∧
    (t.sel ≠ s.sel → (∃ idx, i = .select idx) ∧ s.st = .tristate) ∧
    (t.refused ≠ s.refused → i = .setup ∧ t.refused = true) ∧ t.cfg = s.cfg ∧ t.requests = s.requests ∧
    (t.dir ≠ s.dir → i = .setup ∨ i = .tristate ∨ i = .ispProbe) ∧
    (t.lvl ≠ s.lvl → i ≠ .setup → i ≠ .tristate → i ≠ .ispProbe →
      (∃ a, i = .read a) ∨ (∃ b, i = .ispXfer b) ∨ ∃ n, i = .ispClock n) ∧
    ∃ es, t.trace = s.trace ++ es

/-- R24, R25: the transitions of `st`, at request boundaries. -/
def Obligations.SequencerTransitions : Prop :=
  ∀ (i : Instr) (s t : State), exec i s = .next t → t.st ≠ s.st →
    (i = .tristate ∧ t.st = .tristate) ∨
    ∃ P, s.profile? = some P ∧
      ((i = .setup ∧ s.st = .tristate ∧ isIsp P = false ∧ t.st = .ready) ∨
       (i = .setup ∧ s.st = .tristate ∧ isIsp P = true ∧ (t.st = .ready ∨ t.st = .faulted)) ∨
       (i = .ispProbe ∧ isIsp P = true ∧ s.st = .ready ∧ t.st = .faulted) ∨
       (i = .ispProbe ∧ isIsp P = true ∧ s.st = .faulted ∧ t.st = .ready))

/-- R14, R34 (c), R59: no request writes the target's memory. Under the named oracle `IdealRom(M)` the contents are `M`
after every step, so every address reads as before. -/
def Obligations.TargetMemoryIsNeverWritten : Prop :=
  ∀ (s t : State) (M : Memory), s.target = .idealRom M → step s = .next t →
    t.target = .idealRom M

/-- R66: whether a request has a step never depends on what the target answers, and neither do `sel`, the pins, the
`refused` mark, the waiting words, the parameters and the calls and delays it leaves. `st` and the response's status depend
on it only for SETUP and ISP_PROBE of an ISP profile; the number of samples only for READ of a parallel profile, whose
passes stop when two agree (R184); otherwise two runs differ in the sampled levels and the response's `val` alone. -/
def Obligations.TargetDecidesOnlyBytes : Prop :=
  ∀ (i : Instr) (s t : State) (g : Target), exec i s = .next t →
    ∃ u, exec i { s with target := g } = .next u ∧ u.sel = t.sel ∧ u.dir = t.dir ∧ u.lvl = t.lvl ∧
      u.refused = t.refused ∧ u.requests = t.requests ∧ u.cfg = t.cfg ∧
      (∃ r r', t.responses = s.responses ++ [r] ∧ u.responses = s.responses ++ [r'] ∧
        ((∀ P, s.profile? = some P → isIsp P = false) ∨ (i ≠ .setup ∧ i ≠ .ispProbe) →
          u.st = t.st ∧ r'.status = r.status)) ∧
      u.trace.filter notSample = t.trace.filter notSample ∧
      ((∀ P, s.profile? = some P → isIsp P = true) ∨ (∀ a, i ≠ .read a) →
        u.trace.map withoutLevel = t.trace.map withoutLevel)

/-- R318: no result of any rule depends on how long a delay lasts: a block built with other durations, in the same state,
gives the same next state up to those durations. -/
def Obligations.DurationsDoNotMatter : Prop :=
  ∀ (i : Instr) (s t : State) (settle ispSettle : Nat) (spin edge : Option Nat), exec i s = .next t →
    exec i { s with cfg := { s.cfg with
        settleMs := settle, ispSettleMs := ispSettle, propSpin := spin, ispEdgeUs := edge } } =
      .next { t with cfg := { t.cfg with
        settleMs := settle, ispSettleMs := ispSettle, propSpin := spin, ispEdgeUs := edge } }

/-- R25, R41 (a) to (d): the invariant holds after reset of a block built with well-formed parameters. That it holds of the
machine's own reset rests on the parameters that reset is built with, the spec's fixture catalog and vector values (log 3,
DESIGN CHOICE). -/
def Obligations.ResetMeetsInvariant : Prop :=
  (∀ (cfg : Config) (tgt : Target) (s : State), launch cfg tgt = some s → Inv s) ∧ Inv State.reset

/-- R25, R41 (a) to (d): every step from any state that meets the invariant gives one that meets it. The invariant's clause
on the pins of an ISP socket is the model's own (log 6, DEDUCED from R164, R201, R208 and R211): R41 states none. -/
def Obligations.StepKeepsInvariant : Prop :=
  ∀ s t : State, Inv s → step s = .next t → Inv t

/-- R15, R27 to R30: in every run the pins are what the trace says, no event names a pin outside 1..40, and a pin is an
input whenever it is sampled. Kept by every step from a state that meets both invariants; met by reset. -/
def Obligations.TraceExplainsPins : Prop :=
  (∀ (cfg : Config) (tgt : Target), TraceInv (State.resetWith cfg tgt)) ∧
  ∀ s t : State, Inv s → TraceInv s → step s = .next t → TraceInv t

/-- R108, R171 (c), R311: whatever happened in it, a session presented to an idle block ends in `Tristate` with every pin
undriven. -/
def Obligations.SessionsEndSafe : Prop :=
  ∀ (s : State) (l : List Instr), Inv s → s.requests = [] → isSession l = true → (∀ i ∈ l, i.WellFormed) →
    ∃ t, Host.Core.run Sys2Proof.core l.length (s.submit l) = .next t ∧ t.st = .tristate ∧ Undriven t ∧
      t.requests = [] ∧ t.responses.length = s.responses.length + l.length

/-- R107, R180 to R184, R67: the dump command on an ideal ROM behind an 8-bit parallel profile answers the 64 bytes of the
ROM at `a`, `a+1`, ..., `a+63`, and leaves the socket safe. The oracle `IdealRom(M)` is a premise. That the addresses wrap
modulo 2^32 is the model's own (log 20, DESIGN CHOICE). -/
def Obligations.DumpReadsTheRom : Prop :=
  ∀ (s : State) (P : Profile) (M : Memory) (a : Arg), Inv s → s.requests = [] → s.profile? = some P →
    s.st = .tristate → optLatch P = false → P.dataWidth = 8 → (∀ i, i < 8 → nth P.dataPins i ≠ 0) →
    (∀ i, i < P.addrWidth → nth P.addrPins i ≠ 0) → s.target = .idealRom M →
    ∃ t, Host.Core.run Sys2Proof.core 66 (s.submit (expandCommand (.dump a) s)) = .next t ∧
      t.responses = s.responses ++ [{ status := .ok, val := 0#32 }] ++
        (List.range 64).map (fun i =>
          { status := .ok, val := (Memory.read M ((a + BitVec.ofNat 32 i).toNat % 2 ^ P.addrWidth)).setWidth 32 }) ++
        [{ status := .ok, val := 0#32 }] ∧
      t.st = .tristate ∧ Undriven t

/-! ## Outside the block: the transfer protocol (R6) -/

/-- R242, R243: the 132 bytes of a block: header, number, complement `255 - block_num`, payload, checksum mod 256. -/
def Obligations.TransferBlockFormat : Prop :=
  ∀ (q : XferParams) (n : Byte) (d : Payload),
    (xferBlock q n d).length = 132 ∧ (xferBlock q n d)[0]? = some q.soh ∧ (xferBlock q n d)[1]? = some n ∧
    (∃ c, (xferBlock q n d)[2]? = some c ∧ c.toNat = 255 - n.toNat) ∧
    (∀ i (h : i < 128), (xferBlock q n d)[i + 3]? = some d[i]) ∧
    ∃ k, (xferBlock q n d)[131]? = some k ∧ k.toNat = (d.toList.map BitVec.toNat).sum % 256

/-- R245 to R250: a cancel byte in `AwaitStart` aborts with nothing sent; `m` negative-acknowledgements of a block, below
the ceiling, resend the identical block `m` times before an acknowledgement advances to the next number, mod 256. -/
def Obligations.TransferRetransmits : Prop :=
  ∀ (q : XferParams), q.wf = true →
    (∀ data, (Sender.start data).receive q q.can = some { phase := .aborted, sent := [] }) ∧
    ∀ (n : Byte) (d d2 : Payload) (rest : List Payload) (out : List Byte) (m : Nat), m < q.maxAttempts →
      Sender.receiveAll q (List.replicate m q.nak ++ [q.ack])
          { phase := .sending n 1 d (d2 :: rest), sent := out } =
        some { phase := .sending (n + 1) 1 d2 rest,
               sent := out ++ (List.replicate m (xferBlock q n d)).flatten ++ xferBlock q (n + 1) d2 }

/-- R248, R249: when the last payload is acknowledged the end byte is sent once; from then on every byte but acknowledgement
and cancel has it sent again, until acknowledgement (`Done`) or cancel (`Aborted`). The loop's ceiling is a parameter (U21):
with none this holds of every number of bytes, with ceiling `c` as long as the end byte is sent at most `c` times. That a
byte at the ceiling aborts, sending nothing, is the model's choice (log 19). -/
def Obligations.TransferFinishes : Prop :=
  ∀ (q : XferParams), q.wf = true →
    (∀ n tries cur out, Sender.receive q q.ack { phase := .sending n tries cur [], sent := out } =
      some { phase := .finishing 1, sent := out ++ [q.eot] }) ∧
    (∀ (tries : Nat) (out bs : List Byte), (∀ b ∈ bs, b ≠ q.ack ∧ b ≠ q.can) →
      (∀ c, q.eotCeiling = some c → tries + bs.length ≤ c) →
      Sender.receiveAll q (bs ++ [q.ack]) { phase := .finishing tries, sent := out } =
          some { phase := .done, sent := out ++ List.replicate bs.length q.eot } ∧
      Sender.receiveAll q (bs ++ [q.can]) { phase := .finishing tries, sent := out } =
          some { phase := .aborted, sent := out ++ List.replicate bs.length q.eot }) ∧
    ∀ (tries c : Nat) (out : List Byte) (b : Byte), q.eotCeiling = some c → c ≤ tries → b ≠ q.ack → b ≠ q.can →
      Sender.receive q b { phase := .finishing tries, sent := out } = some { phase := .aborted, sent := out }
end

