-- ==== Sys2Proof/Laws/Pins.lean ====
section
/-! SUPPORT. Pin files read back what was written (spec/10_state.md R27, R28), the translator's range and injectivity
(spec/40_translator.md R122), and the canonical form of a target's contents. -/

namespace Sys2Proof.Machine

/-- A pin reads the level last written to it; every other pin reads as before. -/
theorem PinFile.get_set (f : PinFile) (p q : Nat) (v : Level) :
    PinFile.get (PinFile.set f p v) q = if p = q ∧ 1 ≤ p ∧ p ≤ zifPins then v else PinFile.get f q := by
  cases p with
  | zero => rw [if_neg (by omega)]; rfl
  | succ m =>
    cases q with
    | zero => simp [PinFile.get]
    | succ n =>
      simp only [PinFile.set, PinFile.get, Vector.getElem?_setIfInBounds, zifPins]
      by_cases hm : m = n
      · subst hm
        by_cases h : m < 40
        · simp [h]
        · simp [h]
      · simp [hm]

theorem PinFile.get_set_self (f : PinFile) (p : Nat) (v : Level) (h1 : 1 ≤ p) (h2 : p ≤ zifPins) :
    PinFile.get (PinFile.set f p v) p = v := by
  rw [PinFile.get_set, if_pos ⟨rfl, h1, h2⟩]

theorem PinFile.get_set_of_ne (f : PinFile) (p q : Nat) (v : Level) (h : p ≠ q) :
    PinFile.get (PinFile.set f p v) q = PinFile.get f q := by
  rw [PinFile.get_set, if_neg (fun h' => h h'.1)]

/-- After reset every pin reads 0 (R40). -/
@[simp] theorem PinFile.get_replicate (p : Nat) :
    PinFile.get (Vector.replicate zifPins false) p = false := by
  cases p with
  | zero => rfl
  | succ n =>
    simp only [PinFile.get, Vector.getElem?_replicate]
    split <;> rfl

/-- Two pin files that read alike are equal. -/
theorem PinFile.ext_get (f g : PinFile) (h : ∀ p, PinFile.get f p = PinFile.get g p) : f = g := by
  apply Vector.ext
  intro i hi
  have := h (i + 1)
  simpa [PinFile.get, hi] using this

/-- Pins outside 1..40 read 0. -/
theorem PinFile.get_outside (f : PinFile) (p : Nat) (h : p = 0 ∨ zifPins < p) : PinFile.get f p = false := by
  cases p with
  | zero => rfl
  | succ n =>
    have : 40 ≤ n := by rcases h with h | h <;> simp [zifPins] at h; omega
    simp [PinFile.get, Vector.getElem?_eq_none this]

/-! The translator. -/

/-- An unused entry translates to `NONE` (R120). -/
@[simp] theorem translatePin_zero (P : Profile) : translatePin P 0 = none := rfl

/-- Only an unused entry translates to `NONE`. -/
theorem translatePin_eq_none (P : Profile) (k : Nat) : translatePin P k = none ↔ k = 0 := by
  unfold translatePin
  split
  · simp [*]
  · split <;> simp [*]

/-- A package pin of the chip translates to a pin of the socket (R122 (a)). -/
theorem translatePin_range (P : Profile) (k p : Nat) (hp : P.pins ≤ zifPins) (hk : k ≤ P.pins)
    (h : translatePin P k = some p) : 1 ≤ p ∧ p ≤ zifPins := by
  unfold translatePin at h
  simp only [zifPins] at *
  split at h
  · cases h
  · split at h <;> cases h <;> omega

/-- Two package pins of one chip never share a physical pin (R122 (b)). -/
theorem translatePin_inj (P : Profile) (k1 k2 p : Nat)
    (e1 : translatePin P k1 = some p) (e2 : translatePin P k2 = some p) : k1 = k2 := by
  unfold translatePin at e1 e2
  simp only [zifPins] at *
  split at e1
  · cases e1
  · split at e2
    · cases e2
    · split at e1 <;> split at e2 <;> simp only [Option.some.injEq] at e1 e2 <;> omega

/-! A target's contents. -/

/-- Reading back what was written (the other addresses as before). -/
theorem Memory.read_write (m : Memory) (a a' : Nat) (b : Byte) (lo : Nat) (h : Memory.wfFrom lo m = true) :
    Memory.read (Memory.write m a b) a' = if a' = a then b else Memory.read m a' := by
  induction m generalizing lo with
  | nil =>
    unfold Memory.write
    split
    · subst b; simp [Memory.read]
    · by_cases ha : a' = a
      · simp [Memory.read, ha]
      · simp [Memory.read, ha, Ne.symm ha]
  | cons c rest ih =>
    simp only [Memory.wfFrom, Bool.and_eq_true, decide_eq_true_eq] at h
    have hrest := ih _ h.2
    have hlow : ∀ (l : List Host.Cell) (lo x : Nat), Memory.wfFrom lo l = true → x < lo →
        Memory.read l x = Memory.unlisted := by
      intro l
      induction l with
      | nil => intros; rfl
      | cons d r ih2 =>
        intro lo x hw hx
        simp only [Memory.wfFrom, Bool.and_eq_true, decide_eq_true_eq] at hw
        have hne : d.1 ≠ x := by omega
        simp only [Memory.read, hne, if_false]
        exact ih2 _ _ hw.2 (by omega)
    unfold Memory.write
    by_cases h1 : a < c.1
    · rw [if_pos h1]
      by_cases hb : b = Memory.unlisted
      · rw [if_pos hb]
        by_cases ha : a' = a
        · have hne : c.1 ≠ a' := by omega
          rw [if_pos ha, hb, Memory.read, if_neg hne]
          exact hlow rest (c.1 + 1) a' h.2 (by omega)
        · simp [ha]
      · rw [if_neg hb]
        by_cases ha : a' = a
        · simp [Memory.read, ha]
        · simp [Memory.read, ha, Ne.symm ha]
    · rw [if_neg h1]
      by_cases h2 : c.1 = a
      · rw [if_pos h2]
        by_cases hb : b = Memory.unlisted
        · rw [if_pos hb]
          by_cases ha : a' = a
          · simp only [ha, if_true, hb]
            exact hlow rest (c.1 + 1) _ h.2 (by omega)
          · have hne : c.1 ≠ a' := by omega
            simp [Memory.read, ha, hne]
        · rw [if_neg hb]
          by_cases ha : a' = a
          · simp [Memory.read, ha]
          · have hne : c.1 ≠ a' := by omega
            simp [Memory.read, ha, Ne.symm ha, hne]
      · rw [if_neg h2]
        by_cases hc : c.1 = a'
        · have ha : a' ≠ a := by omega
          simp [Memory.read, hc, ha]
        · simp only [Memory.read, hc, if_false, hrest]

/-- Writing keeps the canonical form, from the same lower bound. -/
theorem Memory.write_wfFrom (m : Memory) (a : Nat) (b : Byte) (lo : Nat) (hlo : lo ≤ a)
    (h : Memory.wfFrom lo m = true) : Memory.wfFrom lo (Memory.write m a b) = true := by
  induction m generalizing lo with
  | nil =>
    unfold Memory.write
    split
    · rfl
    · next hb => simp [Memory.wfFrom, hlo, hb]
  | cons c rest ih =>
    have h0 := h
    simp only [Memory.wfFrom, Bool.and_eq_true, decide_eq_true_eq] at h
    have hweak : ∀ (l : List Host.Cell) (x y : Nat), x ≤ y → Memory.wfFrom y l = true → Memory.wfFrom x l = true := by
      intro l x y hxy hw
      cases l with
      | nil => rfl
      | cons d r =>
        simp only [Memory.wfFrom, Bool.and_eq_true, decide_eq_true_eq] at hw ⊢
        exact ⟨⟨by omega, hw.1.2⟩, hw.2⟩
    unfold Memory.write
    split
    · next h1 =>
      split
      · exact h0
      · next hb =>
        simp only [Memory.wfFrom, Bool.and_eq_true, decide_eq_true_eq]
        exact ⟨⟨hlo, hb⟩, ⟨by omega, h.1.2⟩, h.2⟩
    · next h1 =>
      split
      · next h2 =>
        split
        · exact hweak _ _ _ (by omega) h.2
        · next hb =>
          simp only [Memory.wfFrom, Bool.and_eq_true, decide_eq_true_eq]
          exact ⟨⟨hlo, hb⟩, h2 ▸ h.2⟩
      · next h2 =>
        simp only [Memory.wfFrom, Bool.and_eq_true, decide_eq_true_eq]
        exact ⟨h.1, ih _ (by omega) h.2⟩

/-- Writing keeps the canonical form. -/
theorem Memory.write_wf (m : Memory) (a : Nat) (b : Byte) (h : Memory.wf m = true) :
    Memory.wf (Memory.write m a b) = true :=
  Memory.write_wfFrom m a b 0 (Nat.zero_le a) h

end Sys2Proof.Machine
end

