-- ==== Sys2Proof/Laws/State.lean ====
section
/-! SUPPORT. What each update of the state leaves in each field: one lemma per field per update, true by rfl. -/

namespace Sys2Proof.Machine

/-! `setSt` -/

@[simp] theorem setSt_st (s : State) (v : SeqState) : (s.setSt v).st = v := rfl
@[simp] theorem setSt_sel (s : State) (v : SeqState) : (s.setSt v).sel = s.sel := rfl
@[simp] theorem setSt_dir (s : State) (v : SeqState) : (s.setSt v).dir = s.dir := rfl
@[simp] theorem setSt_lvl (s : State) (v : SeqState) : (s.setSt v).lvl = s.lvl := rfl
@[simp] theorem setSt_trace (s : State) (v : SeqState) : (s.setSt v).trace = s.trace := rfl
@[simp] theorem setSt_refused (s : State) (v : SeqState) : (s.setSt v).refused = s.refused := rfl
@[simp] theorem setSt_requests (s : State) (v : SeqState) : (s.setSt v).requests = s.requests := rfl
@[simp] theorem setSt_responses (s : State) (v : SeqState) : (s.setSt v).responses = s.responses := rfl
@[simp] theorem setSt_target (s : State) (v : SeqState) : (s.setSt v).target = s.target := rfl
@[simp] theorem setSt_cfg (s : State) (v : SeqState) : (s.setSt v).cfg = s.cfg := rfl

/-! `emit` -/

@[simp] theorem emit_st (s : State) (e : Event) : (s.emit e).st = s.st := rfl
@[simp] theorem emit_sel (s : State) (e : Event) : (s.emit e).sel = s.sel := rfl
@[simp] theorem emit_dir (s : State) (e : Event) : (s.emit e).dir = s.dir := rfl
@[simp] theorem emit_lvl (s : State) (e : Event) : (s.emit e).lvl = s.lvl := rfl
@[simp] theorem emit_trace (s : State) (e : Event) : (s.emit e).trace = s.trace ++ [e] := rfl
@[simp] theorem emit_refused (s : State) (e : Event) : (s.emit e).refused = s.refused := rfl
@[simp] theorem emit_requests (s : State) (e : Event) : (s.emit e).requests = s.requests := rfl
@[simp] theorem emit_responses (s : State) (e : Event) : (s.emit e).responses = s.responses := rfl
@[simp] theorem emit_target (s : State) (e : Event) : (s.emit e).target = s.target := rfl
@[simp] theorem emit_cfg (s : State) (e : Event) : (s.emit e).cfg = s.cfg := rfl

/-! `delay` -/

@[simp] theorem delay_st (s : State) (k : DelayKind) : (s.delay k).st = s.st := rfl
@[simp] theorem delay_sel (s : State) (k : DelayKind) : (s.delay k).sel = s.sel := rfl
@[simp] theorem delay_dir (s : State) (k : DelayKind) : (s.delay k).dir = s.dir := rfl
@[simp] theorem delay_lvl (s : State) (k : DelayKind) : (s.delay k).lvl = s.lvl := rfl
@[simp] theorem delay_trace (s : State) (k : DelayKind) : (s.delay k).trace = s.trace ++ [Event.dly k] := rfl
@[simp] theorem delay_refused (s : State) (k : DelayKind) : (s.delay k).refused = s.refused := rfl
@[simp] theorem delay_requests (s : State) (k : DelayKind) : (s.delay k).requests = s.requests := rfl
@[simp] theorem delay_responses (s : State) (k : DelayKind) : (s.delay k).responses = s.responses := rfl
@[simp] theorem delay_target (s : State) (k : DelayKind) : (s.delay k).target = s.target := rfl
@[simp] theorem delay_cfg (s : State) (k : DelayKind) : (s.delay k).cfg = s.cfg := rfl

/-! `setDirection` -/

@[simp] theorem setDirection_st (s : State) (p : Nat) (o : Level) : (s.setDirection p o).st = s.st := rfl
@[simp] theorem setDirection_sel (s : State) (p : Nat) (o : Level) : (s.setDirection p o).sel = s.sel := rfl
@[simp] theorem setDirection_dir (s : State) (p : Nat) (o : Level) : (s.setDirection p o).dir = PinFile.set s.dir p o := rfl
@[simp] theorem setDirection_lvl (s : State) (p : Nat) (o : Level) : (s.setDirection p o).lvl = s.lvl := rfl
@[simp] theorem setDirection_trace (s : State) (p : Nat) (o : Level) : (s.setDirection p o).trace = s.trace ++ [Event.dir p o] := rfl
@[simp] theorem setDirection_refused (s : State) (p : Nat) (o : Level) : (s.setDirection p o).refused = s.refused := rfl
@[simp] theorem setDirection_requests (s : State) (p : Nat) (o : Level) : (s.setDirection p o).requests = s.requests := rfl
@[simp] theorem setDirection_responses (s : State) (p : Nat) (o : Level) : (s.setDirection p o).responses = s.responses := rfl
@[simp] theorem setDirection_target (s : State) (p : Nat) (o : Level) : (s.setDirection p o).target = s.target := rfl
@[simp] theorem setDirection_cfg (s : State) (p : Nat) (o : Level) : (s.setDirection p o).cfg = s.cfg := rfl

/-! `drive` -/

@[simp] theorem drive_st (s : State) (p : Nat) (l : Level) : (s.drive p l).st = s.st := rfl
@[simp] theorem drive_sel (s : State) (p : Nat) (l : Level) : (s.drive p l).sel = s.sel := rfl
@[simp] theorem drive_dir (s : State) (p : Nat) (l : Level) : (s.drive p l).dir = s.dir := rfl
@[simp] theorem drive_lvl (s : State) (p : Nat) (l : Level) : (s.drive p l).lvl = PinFile.set s.lvl p l := rfl
@[simp] theorem drive_trace (s : State) (p : Nat) (l : Level) : (s.drive p l).trace = s.trace ++ [Event.drv p l] := rfl
@[simp] theorem drive_refused (s : State) (p : Nat) (l : Level) : (s.drive p l).refused = s.refused := rfl
@[simp] theorem drive_requests (s : State) (p : Nat) (l : Level) : (s.drive p l).requests = s.requests := rfl
@[simp] theorem drive_responses (s : State) (p : Nat) (l : Level) : (s.drive p l).responses = s.responses := rfl
@[simp] theorem drive_target (s : State) (p : Nat) (l : Level) : (s.drive p l).target = s.target := rfl
@[simp] theorem drive_cfg (s : State) (p : Nat) (l : Level) : (s.drive p l).cfg = s.cfg := rfl

/-! `respond` -/

@[simp] theorem respond_st (s : State) (r : Status) (v : BitVec 32) : (s.respond r v).st = s.st := rfl
@[simp] theorem respond_sel (s : State) (r : Status) (v : BitVec 32) : (s.respond r v).sel = s.sel := rfl
@[simp] theorem respond_dir (s : State) (r : Status) (v : BitVec 32) : (s.respond r v).dir = s.dir := rfl
@[simp] theorem respond_lvl (s : State) (r : Status) (v : BitVec 32) : (s.respond r v).lvl = s.lvl := rfl
@[simp] theorem respond_trace (s : State) (r : Status) (v : BitVec 32) : (s.respond r v).trace = s.trace := rfl
@[simp] theorem respond_refused (s : State) (r : Status) (v : BitVec 32) : (s.respond r v).refused = s.refused := rfl
@[simp] theorem respond_requests (s : State) (r : Status) (v : BitVec 32) : (s.respond r v).requests = s.requests := rfl
@[simp] theorem respond_responses (s : State) (r : Status) (v : BitVec 32) : (s.respond r v).responses = s.responses ++ [{ status := r, val := v }] := rfl
@[simp] theorem respond_target (s : State) (r : Status) (v : BitVec 32) : (s.respond r v).target = s.target := rfl
@[simp] theorem respond_cfg (s : State) (r : Status) (v : BitVec 32) : (s.respond r v).cfg = s.cfg := rfl

/-! `present` -/

@[simp] theorem present_st (s : State) (w : ReqWord) : (s.present w).st = s.st := rfl
@[simp] theorem present_sel (s : State) (w : ReqWord) : (s.present w).sel = s.sel := rfl
@[simp] theorem present_dir (s : State) (w : ReqWord) : (s.present w).dir = s.dir := rfl
@[simp] theorem present_lvl (s : State) (w : ReqWord) : (s.present w).lvl = s.lvl := rfl
@[simp] theorem present_trace (s : State) (w : ReqWord) : (s.present w).trace = s.trace := rfl
@[simp] theorem present_refused (s : State) (w : ReqWord) : (s.present w).refused = s.refused := rfl
@[simp] theorem present_requests (s : State) (w : ReqWord) : (s.present w).requests = w :: s.requests := rfl
@[simp] theorem present_responses (s : State) (w : ReqWord) : (s.present w).responses = s.responses := rfl
@[simp] theorem present_target (s : State) (w : ReqWord) : (s.present w).target = s.target := rfl
@[simp] theorem present_cfg (s : State) (w : ReqWord) : (s.present w).cfg = s.cfg := rfl

/-! The state of a sample. -/

@[simp] theorem sample_st (s : State) (p : Nat) : (s.sample p).2.st = s.st := rfl
@[simp] theorem sample_sel (s : State) (p : Nat) : (s.sample p).2.sel = s.sel := rfl
@[simp] theorem sample_dir (s : State) (p : Nat) : (s.sample p).2.dir = s.dir := rfl
@[simp] theorem sample_lvl (s : State) (p : Nat) : (s.sample p).2.lvl = s.lvl := rfl
@[simp] theorem sample_trace (s : State) (p : Nat) : (s.sample p).2.trace = s.trace ++ [Event.smp p (Target.answer s p).1] := rfl
@[simp] theorem sample_refused (s : State) (p : Nat) : (s.sample p).2.refused = s.refused := rfl
@[simp] theorem sample_requests (s : State) (p : Nat) : (s.sample p).2.requests = s.requests := rfl
@[simp] theorem sample_responses (s : State) (p : Nat) : (s.sample p).2.responses = s.responses := rfl
@[simp] theorem sample_target (s : State) (p : Nat) : (s.sample p).2.target = (Target.answer s p).2 := rfl
@[simp] theorem sample_cfg (s : State) (p : Nat) : (s.sample p).2.cfg = s.cfg := rfl

/-! What the accessors read after an update that writes neither pins nor `sel`. -/

@[simp] theorem setSt_dirOf (s : State) (v : SeqState) (q : Nat) : (s.setSt v).dirOf q = s.dirOf q := rfl
@[simp] theorem setSt_lvlOf (s : State) (v : SeqState) (q : Nat) : (s.setSt v).lvlOf q = s.lvlOf q := rfl
@[simp] theorem setSt_profile (s : State) (v : SeqState) : (s.setSt v).profile? = s.profile? := rfl
@[simp] theorem respond_dirOf (s : State) (r : Status) (v : BitVec 32) (q : Nat) :
    (s.respond r v).dirOf q = s.dirOf q := rfl
@[simp] theorem respond_lvlOf (s : State) (r : Status) (v : BitVec 32) (q : Nat) :
    (s.respond r v).lvlOf q = s.lvlOf q := rfl
@[simp] theorem respond_profile (s : State) (r : Status) (v : BitVec 32) : (s.respond r v).profile? = s.profile? := rfl

/-- With the active profile `P`, a request on it is the request on `P`. -/
theorem withProfile_some (s : State) (f : Profile → Out) (P : Profile) (h : s.profile? = some P) :
    s.withProfile f = f P := by
  simp [State.withProfile, h]

/-- A catalog index has an active profile. -/
theorem profile_of_lt (s : State) (h : s.sel < s.cfg.catalog.length) : ∃ P, s.profile? = some P :=
  ⟨s.cfg.catalog[s.sel], by simp [State.profile?, h]⟩

/-- The active profile stands in the catalog. -/
theorem profile_mem (s : State) (P : Profile) (h : s.profile? = some P) : P ∈ s.cfg.catalog :=
  List.mem_of_getElem? h

/-- `sel` is a catalog index when there is an active profile. -/
theorem lt_of_profile (s : State) (P : Profile) (h : s.profile? = some P) : s.sel < s.cfg.catalog.length := by
  unfold State.profile? at h
  exact (List.getElem?_eq_some_iff.mp h).1

end Sys2Proof.Machine
end

