-- ==== Sys2Proof/Laws/Did.lean ====
section
/-! SUPPORT. Everything a procedure of the block does to the state is in the events it appends: `State.did` is the state
after a list of events, and each procedure gets one lemma that says which list. Frames, pin effects and traces are all
read off `did`. -/

namespace Sys2Proof.Machine

/-- The pins of a state. -/
def State.pins (s : State) : Pins := { dir := s.dir, lvl := s.lvl }

/-- `s` after the events `es`, with `tgt` left seated. -/
def State.did (s : State) (es : List Event) (tgt : Target) : State :=
  { s with
    dir := (es.foldl Pins.apply s.pins).dir
    lvl := (es.foldl Pins.apply s.pins).lvl
    trace := s.trace ++ es
    target := tgt }

@[simp] theorem did_st (s : State) (es : List Event) (g : Target) : (s.did es g).st = s.st := rfl
@[simp] theorem did_sel (s : State) (es : List Event) (g : Target) : (s.did es g).sel = s.sel := rfl
@[simp] theorem did_trace (s : State) (es : List Event) (g : Target) : (s.did es g).trace = s.trace ++ es := rfl
@[simp] theorem did_refused (s : State) (es : List Event) (g : Target) : (s.did es g).refused = s.refused := rfl
@[simp] theorem did_requests (s : State) (es : List Event) (g : Target) : (s.did es g).requests = s.requests := rfl
@[simp] theorem did_responses (s : State) (es : List Event) (g : Target) : (s.did es g).responses = s.responses := rfl
@[simp] theorem did_target (s : State) (es : List Event) (g : Target) : (s.did es g).target = g := rfl
@[simp] theorem did_cfg (s : State) (es : List Event) (g : Target) : (s.did es g).cfg = s.cfg := rfl
@[simp] theorem did_profile (s : State) (es : List Event) (g : Target) : (s.did es g).profile? = s.profile? := rfl
@[simp] theorem did_pins (s : State) (es : List Event) (g : Target) :
    (s.did es g).pins = es.foldl Pins.apply s.pins := rfl
@[simp] theorem setSt_pins (s : State) (v : SeqState) : (s.setSt v).pins = s.pins := rfl
@[simp] theorem respond_pins (s : State) (r : Status) (v : BitVec 32) : (s.respond r v).pins = s.pins := rfl

theorem did_dirOf (s : State) (es : List Event) (g : Target) (p : Nat) :
    (s.did es g).dirOf p = PinFile.get (es.foldl Pins.apply s.pins).dir p := rfl
theorem did_lvlOf (s : State) (es : List Event) (g : Target) (p : Nat) :
    (s.did es g).lvlOf p = PinFile.get (es.foldl Pins.apply s.pins).lvl p := rfl

/-- No event, no change. -/
@[simp] theorem did_nil (s : State) : s.did [] s.target = s := by
  cases s; simp [State.did, State.pins]

/-- One list of events after another. -/
@[simp] theorem did_did (s : State) (e1 e2 : List Event) (g1 g2 : Target) :
    (s.did e1 g1).did e2 g2 = s.did (e1 ++ e2) g2 := by
  simp only [State.did, State.pins, List.append_assoc, List.foldl_append]

/-- The events of two procedures run one after the other. -/
theorem did_chain {s a b : State} {e1 e2 : List Event} {g1 g2 : Target} (h1 : a = s.did e1 g1)
    (h2 : b = a.did e2 g2) : b = s.did (e1 ++ e2) g2 := by
  rw [h2, h1, did_did]

/-- `did` passes a change of `st`. -/
theorem setSt_did (s : State) (v : SeqState) (es : List Event) (g : Target) :
    (s.setSt v).did es g = (s.did es g).setSt v := rfl

/-! The GPIO port and the delay port. -/

theorem setDirection_did (s : State) (p : Nat) (o : Level) : s.setDirection p o = s.did [.dir p o] s.target := rfl
theorem drive_did (s : State) (p : Nat) (l : Level) : s.drive p l = s.did [.drv p l] s.target := rfl
theorem delay_did (s : State) (k : DelayKind) : s.delay k = s.did [.dly k] s.target := rfl
theorem sample_did (s : State) (p : Nat) :
    (s.sample p).2 = s.did [.smp p (s.sample p).1] (Target.answer s p).2 := rfl

/-! The pin primitives. -/

/-- R124. -/
theorem pinOut_did (P : Profile) (k : Nat) (v : Level) (s : State) :
    pinOut P k v s = s.did ((physPins P [k]).flatMap (outEvents v)) s.target := by
  unfold pinOut
  cases h : translatePin P k with
  | none => simp [physPins, h]
  | some p => simp [physPins, h, drive_did, setDirection_did, outEvents]

/-- R125. -/
theorem pinIn_did (P : Profile) (k : Nat) (u : Level) (s : State) :
    pinIn P k u s = s.did ((physPins P [k]).flatMap (inEvents u)) s.target := by
  unfold pinIn
  cases h : translatePin P k with
  | none => simp [physPins, h]
  | some p => simp [physPins, h, drive_did, setDirection_did, inEvents]

/-- R126. -/
theorem pinSet_did (P : Profile) (k : Nat) (v : Level) (s : State) :
    pinSet P k v s = s.did (roleDrive P k v) s.target := by
  unfold pinSet roleDrive
  cases translatePin P k <;> simp [drive_did]

/-- R127: a sample changes the target and the trace only, and an absent pin counts as 0. -/
theorem pinGet_did (P : Profile) (k : Nat) (s : State) :
    ∃ g, (pinGet P k s).2 = s.did (roleSample P k (pinGet P k s).1) g ∧
      (translatePin P k = none → (pinGet P k s).1 = false) := by
  unfold pinGet roleSample
  cases translatePin P k with
  | none => exact ⟨s.target, by simp, fun _ => rfl⟩
  | some p => exact ⟨_, sample_did s p, by simp⟩

/-- A list of pins made outputs (R162 to R164). -/
theorem forPins_out_did (P : Profile) (L : List Nat) (v : Level) (s : State) :
    forPins L (fun k => pinOut P k v) s = s.did ((physPins P L).flatMap (outEvents v)) s.target := by
  induction L generalizing s with
  | nil => simp [forPins, physPins]
  | cons k rest ih =>
    rw [forPins, ih, pinOut_did, did_did]
    simp only [did_target, physPins, ← List.flatMap_append, ← List.filterMap_append, List.singleton_append]

/-- A list of pins made inputs (R165). -/
theorem forPins_in_did (P : Profile) (L : List Nat) (u : Level) (s : State) :
    forPins L (fun k => pinIn P k u) s = s.did ((physPins P L).flatMap (inEvents u)) s.target := by
  induction L generalizing s with
  | nil => simp [forPins, physPins]
  | cons k rest ih =>
    rw [forPins, ih, pinIn_did, did_did]
    simp only [did_target, physPins, ← List.flatMap_append, ← List.filterMap_append, List.singleton_append]

/-- SETUP's five steps (R160). -/
theorem configure_did (P : Profile) (s : State) :
    configure P s = (s.did (setupEvents P) s.target).setSt .configuring := by
  unfold configure configurePins setupEvents
  rw [forPins_out_did, forPins_out_did, forPins_out_did, forPins_in_did, delay_did]
  simp only [did_did, did_target, setSt_target, setSt_did]

/-- TRISTATE's release of the pins from `p` on (R170). -/
theorem releaseFrom_did (n p : Nat) (s : State) :
    releaseFrom n p s =
      s.did ((List.range n).flatMap fun i => [.dir (i + p) false, .drv (i + p) false]) s.target := by
  induction n generalizing p s with
  | zero => simp [releaseFrom]
  | succ m ih =>
    rw [releaseFrom, ih, releasePin, setDirection_did, drive_did, did_did, did_did]
    simp only [did_target, List.range_succ_eq_map, List.flatMap_cons, List.flatMap_map]
    simp [Nat.add_assoc, Nat.add_comm 1 p]

/-! The ISP engine. -/

/-- R202. -/
theorem auxCycle_did (P : Profile) (s : State) : auxCycle P s = s.did (cycleEvents P) s.target := by
  unfold auxCycle cycleEvents
  simp only [pinSet_did, delay_did, did_did, did_target, List.append_assoc]

/-- R202. -/
theorem auxClock_did (P : Profile) (n : Nat) (s : State) : auxClock P n s = s.did (clockEvents P n) s.target := by
  induction n generalizing s with
  | zero => simp [auxClock, clockEvents]
  | succ m ih =>
    rw [auxClock, ih, auxCycle_did, did_did]
    simp [clockEvents, List.replicate_succ]

/-- One bit of an exchange (R206). -/
theorem xferBit_did (P : Profile) (bit : Level) (s : State) :
    ∃ g, (xferBit P bit s).2 = s.did (bitEvents P s.cfg.ispBitCycles bit (xferBit P bit s).1) g ∧
      (translatePin P (roleSdi P) = none → (xferBit P bit s).1 = false) := by
  obtain ⟨g, hg, hz⟩ := pinGet_did P (roleSdi P) (xferRaise P bit s)
  refine ⟨g, ?_, hz⟩
  unfold xferBit
  simp only [hg, pinSet_did, did_did, did_target]
  simp only [xferRaise, pinSet_did, auxClock_did, did_did, did_target, bitEvents, List.append_assoc]

/-- The bits of an exchange in order: the levels sampled are the levels inserted at the bottom (R206). -/
theorem xferBits_did (P : Profile) (bits : List Level) (r : Byte) (s : State) :
    ∃ ls g, ls.length = bits.length ∧ (xferBits P bits r s).1 = ls.foldl insertBottom r ∧
      (xferBits P bits r s).2 =
        s.did ((bits.zip ls).flatMap fun x => bitEvents P s.cfg.ispBitCycles x.1 x.2) g ∧
      (translatePin P (roleSdi P) = none → ∀ l ∈ ls, l = false) := by
  induction bits generalizing r s with
  | nil => exact ⟨[], s.target, rfl, rfl, by simp [xferBits], by simp⟩
  | cons b rest ih =>
    obtain ⟨g1, h1, z1⟩ := xferBit_did P b s
    obtain ⟨ls, g, hl, hr, hs, hz⟩ := ih (insertBottom r (xferBit P b s).1) (xferBit P b s).2
    refine ⟨(xferBit P b s).1 :: ls, g, by simp [hl], by simp [xferBits, hr], ?_, ?_⟩
    · have hc : (xferBit P b s).2.cfg = s.cfg := by rw [h1]; rfl
      rw [hc] at hs
      exact did_chain h1 hs
    · intro hn l hl'
      rcases List.mem_cons.mp hl' with h | h
      · rw [h]; exact z1 hn
      · exact hz hn l h

/-- A bit of a byte after a left-shift and insert at the bottom (R206). -/
theorem insertBottom_bit (x : Byte) (l : Level) (i : Nat) : (insertBottom x l).getLsbD i =
    if i = 0 then l else decide (i < 8) && x.getLsbD (i - 1) := by
  by_cases h8 : i < 8
  · interval_cases i <;> cases l <;> simp [insertBottom, levelByte]
  · have : i ≠ 0 := by omega
    simp [h8, this, BitVec.getLsbD_of_ge _ _ (Nat.le_of_not_lt h8)]

/-- Eight levels inserted at the bottom are the byte's bits, the first at the top (R206). -/
theorem bitsMsbFirst_foldl (l0 l1 l2 l3 l4 l5 l6 l7 : Level) (r : Byte) :
    bitsMsbFirst ([l0, l1, l2, l3, l4, l5, l6, l7].foldl insertBottom r) = [l0, l1, l2, l3, l4, l5, l6, l7] := by
  simp only [bitsMsbFirst, List.foldl, insertBottom_bit]
  simp

/-- A byte exchange (R206): every byte sent produces a byte received, whose bits are the levels sampled, most
significant first; nothing else happens than the events say. -/
theorem xfer_did (P : Profile) (b : Byte) (s : State) :
    ∃ g, (xfer P b s).2 = s.did (xferEvents P s.cfg.ispBitCycles b (xfer P b s).1) g ∧
      (translatePin P (roleSdi P) = none → (xfer P b s).1 = 0x00#8) := by
  obtain ⟨ls, g, hl, hr, hs, hz⟩ := xferBits_did P (bitsMsbFirst b) 0x00#8 s
  refine ⟨g, ?_, ?_⟩
  · unfold xfer xferEvents
    rw [hs, hr]
    match ls, hl with
    | [l0, l1, l2, l3, l4, l5, l6, l7], _ => rw [bitsMsbFirst_foldl]
  · intro hn
    unfold xfer
    rw [hr]
    match ls, hl, hz hn with
    | [l0, l1, l2, l3, l4, l5, l6, l7], _, hz =>
      simp only [List.mem_cons, List.not_mem_nil, or_false, forall_eq_or_imp, forall_eq] at hz
      obtain ⟨h0, h1, h2, h3, h4, h5, h6, h7⟩ := hz
      subst h0 h1 h2 h3 h4 h5 h6 h7
      decide

/-- A four-byte frame (R100). -/
theorem xferFrame_did (P : Profile) (c0 c1 c2 c3 : Byte) (s : State) :
    ∃ g, (xferFrame P c0 c1 c2 c3 s).2 =
        s.did (frameEvents P s.cfg.ispBitCycles c0 c1 c2 c3 (xferFrame P c0 c1 c2 c3 s).1.e0
          (xferFrame P c0 c1 c2 c3 s).1.e1 (xferFrame P c0 c1 c2 c3 s).1.e2 (xferFrame P c0 c1 c2 c3 s).1.e3) g ∧
      (translatePin P (roleSdi P) = none → (xferFrame P c0 c1 c2 c3 s).1 = ⟨0x00#8, 0x00#8, 0x00#8, 0x00#8⟩) := by
  obtain ⟨g0, h0, z0⟩ := xfer_did P c0 s
  obtain ⟨g1, h1, z1⟩ := xfer_did P c1 (xfer P c0 s).2
  obtain ⟨g2, h2, z2⟩ := xfer_did P c2 (xfer P c1 (xfer P c0 s).2).2
  obtain ⟨g3, h3, z3⟩ := xfer_did P c3 (xfer P c2 (xfer P c1 (xfer P c0 s).2).2).2
  have e1 : (xfer P c0 s).2.cfg = s.cfg := by rw [h0]; rfl
  have e2 : (xfer P c1 (xfer P c0 s).2).2.cfg = s.cfg := by rw [h1]; exact e1
  have e3 : (xfer P c2 (xfer P c1 (xfer P c0 s).2).2).2.cfg = s.cfg := by rw [h2]; exact e2
  rw [e1] at h1
  rw [e2] at h2
  rw [e3] at h3
  refine ⟨g3, ?_, ?_⟩
  · exact did_chain (did_chain (did_chain h0 h1) h2) h3
  · intro hn
    simp only [xferFrame, z0 hn, z1 hn, z2 hn, z3 hn]

/-- The entry sequence up to the first exchange (R208). -/
theorem ispPrepare_did (P : Profile) (s : State) :
    ispPrepare P s = s.did (prepareEvents P s.cfg.ispRstCycles) s.target := by
  simp only [ispPrepare, prepareEvents, pinSet_did, pinIn_did, auxClock_did, delay_did, did_did, did_target,
    List.append_assoc]

/-- The entry sequence (R208, R209): its events, and the one echo that decides where it ends. -/
theorem ispEnter_did (P : Profile) (s : State) :
    ∃ e g, ispEnter P s = ispConclude e (s.did (entryEvents P s.cfg e.e0 e.e1 e.e2 e.e3) g) ∧
      (translatePin P (roleSdi P) = none → e = ⟨0x00#8, 0x00#8, 0x00#8, 0x00#8⟩) := by
  have hc : (ispPrepare P s).cfg = s.cfg := by rw [ispPrepare_did]; rfl
  obtain ⟨g, hg, hz⟩ := xferFrame_did P s.cfg.ispHandshake[0] s.cfg.ispHandshake[1] s.cfg.ispHandshake[2]
    s.cfg.ispHandshake[3] (ispPrepare P s)
  rw [hc] at hg
  refine ⟨(ispHandshake P (ispPrepare P s)).1, g, ?_, ?_⟩
  · have := did_chain (ispPrepare_did P s) hg
    simp only [ispEnter, ispHandshake, hc]
    exact congrArg (ispConclude _) this
  · simp only [ispHandshake, hc]
    exact hz

/-- Where an entry sequence ends (R208, R209). -/
theorem ispConclude_eq (e : Echoes) (s : State) :
    ispConclude e s = (s.setSt (if e.e2 = s.cfg.ispSentinel then .ready else .faulted)).respond
      (if e.e2 = s.cfg.ispSentinel then .ok else .ispFail) (packEchoes e.e0 e.e1 e.e2 e.e3) := by
  unfold ispConclude
  split <;> rfl

/-- The memory read (R212). -/
theorem ispRead_did (P : Profile) (addr : Arg) (s : State) :
    ∃ r0 r1 r2 g, (ispRead P addr s).2 =
        s.did (frameEvents P s.cfg.ispBitCycles (readOpcode s.cfg addr) (readMiddle addr) (readLow addr) s.cfg.ispDummy
          r0 r1 r2 (ispRead P addr s).1) g ∧
      (translatePin P (roleSdi P) = none → (ispRead P addr s).1 = 0x00#8) := by
  obtain ⟨g, hg, hz⟩ := xferFrame_did P (readOpcode s.cfg addr) (readMiddle addr) (readLow addr) s.cfg.ispDummy s
  refine ⟨_, _, _, g, hg, fun hn => ?_⟩
  show (xferFrame P _ _ _ _ s).1.e3 = _
  rw [hz hn]

/-! The parallel read. -/

/-- The address drives (R181): the entry of index `i` gets bit `i` of the address. -/
theorem driveAddress_did (P : Profile) (ks : List Nat) (n : Nat) (addr : Arg) (s : State) :
    driveAddress P ks (addr >>> n) s =
      s.did ((ks.zipIdx n).flatMap fun x => roleDrive P x.1 (addr.getLsbD x.2)) s.target := by
  induction ks generalizing n s with
  | nil => simp [driveAddress]
  | cons k rest ih =>
    have hb : (addr >>> n).getLsbD 0 = addr.getLsbD n := by simp
    rw [driveAddress, ← BitVec.shiftRight_add, ih, hb, pinSet_did, did_did]
    simp

/-- R181. -/
theorem setAddress_did (P : Profile) (addr : Arg) (s : State) :
    setAddress P addr s = s.did (addressEvents P addr) s.target := by
  have := driveAddress_did P P.addrPins 0 addr s
  simpa [setAddress, addressEvents] using this

/-- A pass over a list of pins (R183). -/
theorem samplePins_did (P : Profile) (ks : List Nat) (b : Byte) (s : State) :
    ∃ ls g, ls.length = ks.length ∧ (samplePins P ks b s).1 = ls.foldl insertTop b ∧
      (samplePins P ks b s).2 = s.did ((ks.zip ls).flatMap fun x => roleSample P x.1 x.2) g ∧
      ∀ x ∈ ks.zip ls, translatePin P x.1 = none → x.2 = false := by
  induction ks generalizing b s with
  | nil => exact ⟨[], s.target, rfl, rfl, by simp [samplePins], by simp⟩
  | cons k rest ih =>
    obtain ⟨g1, h1, z1⟩ := pinGet_did P k s
    obtain ⟨ls, g, hl, hr, hs, hz⟩ := ih (insertTop b (pinGet P k s).1) (pinGet P k s).2
    refine ⟨(pinGet P k s).1 :: ls, g, by simp [hl], by simp [samplePins, hr], did_chain h1 hs, ?_⟩
    intro x hx
    rw [List.zip_cons_cons, List.mem_cons] at hx
    rcases hx with rfl | hx
    · exact z1
    · exact hz x hx

/-- A bit of a byte after a right-shift and insert at the top (R183). -/
theorem insertTop_bit (x : Byte) (l : Level) (i : Nat) : (insertTop x l).getLsbD i =
    if i = 7 then l else x.getLsbD (i + 1) := by
  by_cases h8 : i < 8
  · interval_cases i <;> cases l <;> simp [insertTop, levelByte]
  · have : i ≠ 7 := by omega
    simp [this, BitVec.getLsbD_of_ge _ _ (Nat.le_of_not_lt h8), BitVec.getLsbD_of_ge x (i + 1) (by omega)]

/-- After `n <= 8` levels inserted at the top, the level of index `i` stands in bit `8 - n + i`, and what was there
has moved down (R183). -/
theorem foldl_insertTop_bit (ls : List Level) (b : Byte) (h : ls.length ≤ 8) (j : Nat) (hj : j < 8) :
    (ls.foldl insertTop b).getLsbD j =
      if 8 - ls.length ≤ j then ls.getD (j - (8 - ls.length)) false else b.getLsbD (j + ls.length) := by
  induction ls generalizing b with
  | nil => simp [show ¬ 8 ≤ j by omega]
  | cons l rest ih =>
    simp only [List.length_cons] at h
    rw [List.foldl_cons, ih _ (by omega)]
    simp only [List.length_cons, insertTop_bit]
    by_cases h1 : 8 - rest.length ≤ j
    · rw [if_pos h1, if_pos (by omega)]
      have : j - (8 - (rest.length + 1)) = (j - (8 - rest.length)) + 1 := by omega
      rw [this, List.getD_cons_succ]
    · rw [if_neg h1]
      by_cases h2 : j + rest.length = 7
      · rw [if_pos h2, if_pos (by omega)]
        have : j - (8 - (rest.length + 1)) = 0 := by omega
        rw [this, List.getD_cons_zero]
      · rw [if_neg h2, if_neg (by omega)]
        rw [Nat.add_assoc]

/-- One pass (R183): the samples it takes, and what its byte can be. -/
theorem sampleByte_did (P : Profile) (hw : P.dataWidth ≤ ndMax) (s : State) :
    ∃ g, (sampleByte P s).2 = s.did (passEvents P (sampleByte P s).1) g ∧ PassByte P (sampleByte P s).1 := by
  obtain ⟨ls, g, hl, hr, hs, hz⟩ := samplePins_did P (passPins P) 0x00#8 s
  have hlen : ls.length = P.dataWidth := by rw [hl]; simp [passPins]
  have hbit := foldl_insertTop_bit ls 0x00#8 (by rw [hlen]; exact hw)
  simp only [ndMax] at hw
  have hlev : ∀ i, i < P.dataWidth → (ls.foldl insertTop 0x00#8).getLsbD (8 - P.dataWidth + i) = ls.getD i false := by
    intro i hi
    rw [hbit _ (by omega), hlen, if_pos (by omega)]
    congr 1
    omega
  refine ⟨g, ?_, ?_, ?_⟩
  · unfold sampleByte passEvents
    rw [hs, hr]
    congr 1
    have : (passPins P).zip ls = (List.range P.dataWidth).map fun i => (nth P.dataPins i, ls.getD i false) := by
      apply List.ext_getElem
      · simp [passPins, hlen]
      · intro i h1 h2
        have hi : i < ls.length := by simp [passPins, hlen] at h1; omega
        simp [passPins, hi]
    rw [this, List.flatMap_map]
    apply List.flatMap_congr
    intro i hi
    rw [hlev i (List.mem_range.mp hi)]
  · intro j hj
    unfold sampleByte
    rw [hr, hbit j (by omega), hlen, if_neg (by omega)]
    simp
  · intro i hi hn
    unfold sampleByte
    rw [hr, hlev i hi]
    apply hz (nth P.dataPins i, ls.getD i false) _ hn
    have h1 : i < (passPins P).length := by simp [passPins, hi]
    have h2 : i < ls.length := by omega
    rw [List.mem_iff_getElem]
    exact ⟨i, by simp [h1, h2], by simp [passPins, h2]⟩

/-- The loop of a convergence read (R184): the passes it makes after one that returned `prev`. -/
theorem converge_did (P : Profile) (hw : P.dataWidth ≤ ndMax) (n : Nat) (prev : Byte) (s : State) :
    ∃ more g, Converges (n + 1) (prev :: more) (converge P n prev s).1 ∧
      (∀ b ∈ more, PassByte P b) ∧ (converge P n prev s).2 = s.did (more.flatMap (passEvents P)) g := by
  induction n generalizing prev s with
  | zero =>
    refine ⟨[], s.target, ⟨rfl, by simp, ?_, .inl rfl⟩, by simp, by simp [converge]⟩
    intro j x y hj
    simp at hj
  | succ m ih =>
    obtain ⟨g1, h1, p1⟩ := sampleByte_did P hw s
    unfold converge
    by_cases he : (sampleByte P s).1 = prev
    · rw [if_pos he]
      refine ⟨[(sampleByte P s).1], g1, ⟨by simp, by simp, ?_, .inr ⟨[], by simp [he]⟩⟩, by simp [p1], by simpa using h1⟩
      intro j x y hj
      simp at hj
    · rw [if_neg he]
      obtain ⟨more, g, hc, hp, hs⟩ := ih (sampleByte P s).1 (sampleByte P s).2
      refine ⟨(sampleByte P s).1 :: more, g, ⟨?_, ?_, ?_, ?_⟩, ?_, ?_⟩
      · rw [List.getLast?_cons_cons]; exact hc.result
      · have := hc.atMost
        simp only [List.length_cons] at this ⊢
        omega
      · intro j x y hj hx hy
        cases j with
        | zero =>
          simp at hx hy
          rw [← hx, ← hy]
          exact fun h => he h.symm
        | succ i =>
          rw [List.getElem?_cons_succ] at hx hy
          exact hc.disagree i x y (by simp only [List.length_cons] at hj ⊢; omega) hx hy
      · rcases hc.stop with h | ⟨l, h⟩
        · left
          simp only [List.length_cons] at h ⊢
          omega
        · exact .inr ⟨prev :: l, by rw [h]; rfl⟩
      · intro b hb
        rcases List.mem_cons.mp hb with h | h
        · rw [h]; exact p1
        · exact hp b h
      · exact did_chain h1 hs

/-- The parallel read (R184, R185): address drives, one propagation delay, the passes. -/
theorem parallelRead_did (P : Profile) (hw : P.dataWidth ≤ ndMax) (addr : Arg) (s : State) (hN : 1 ≤ s.cfg.nSamples) :
    ∃ passes g, Converges s.cfg.nSamples passes (parallelRead P addr s).1 ∧ (∀ b ∈ passes, PassByte P b) ∧
      (parallelRead P addr s).2 =
        s.did (addressEvents P addr ++ [.dly .prop] ++ passes.flatMap (passEvents P)) g := by
  have h0 : (setAddress P addr s).delay .prop = s.did (addressEvents P addr ++ [.dly .prop]) s.target := by
    rw [setAddress_did, delay_did, did_did]; rfl
  obtain ⟨g1, h1, p1⟩ := sampleByte_did P hw ((setAddress P addr s).delay .prop)
  obtain ⟨more, g, hc, hp, hs⟩ := converge_did P hw (s.cfg.nSamples - 1)
    (sampleByte P ((setAddress P addr s).delay .prop)).1 (sampleByte P ((setAddress P addr s).delay .prop)).2
  refine ⟨(sampleByte P ((setAddress P addr s).delay .prop)).1 :: more, g, ?_, ?_, ?_⟩
  · have : s.cfg.nSamples - 1 + 1 = s.cfg.nSamples := by omega
    rw [this] at hc
    exact hc
  · intro b hb
    rcases List.mem_cons.mp hb with h | h
    · rw [h]; exact p1
    · exact hp b h
  · have := did_chain h0 (did_chain h1 hs)
    exact this

end Sys2Proof.Machine
end

