-- ==== Sys2Proof/Laws/PinEffects.lean ====
section
/-! SUPPORT. What a list of events leaves on the pins. -/

namespace Sys2Proof.Machine

/-- The pins of a list are the physical pins of its entries. -/
theorem mem_physPins (P : Profile) (L : List Nat) (p : Nat) : p ∈ physPins P L ↔ IsPinOf P L p := by
  simp [physPins, IsPinOf, List.mem_filterMap]

/-- Events that set no direction of `p` leave `dir[p]`. -/
theorem foldl_dir_untouched (es : List Event) (x : Pins) (p : Nat) (h : ∀ o, Event.dir p o ∉ es) :
    PinFile.get (es.foldl Pins.apply x).dir p = PinFile.get x.dir p := by
  induction es generalizing x with
  | nil => rfl
  | cons e rest ih =>
    rw [List.foldl_cons, ih _ (fun o ho => h o (List.mem_cons_of_mem _ ho))]
    cases e with
    | dir q o =>
      apply PinFile.get_set_of_ne
      rintro rfl
      exact h o List.mem_cons_self
    | _ => rfl

/-- Events that drive no `p` leave `lvl[p]`. -/
theorem foldl_lvl_untouched (es : List Event) (x : Pins) (p : Nat) (h : ∀ l, Event.drv p l ∉ es) :
    PinFile.get (es.foldl Pins.apply x).lvl p = PinFile.get x.lvl p := by
  induction es generalizing x with
  | nil => rfl
  | cons e rest ih =>
    rw [List.foldl_cons, ih _ (fun o ho => h o (List.mem_cons_of_mem _ ho))]
    cases e with
    | drv q o =>
      apply PinFile.get_set_of_ne
      rintro rfl
      exact h o List.mem_cons_self
    | _ => rfl

/-- Events with no `Dir` leave every direction. -/
theorem foldl_dir_none (es : List Event) (x : Pins) (h : ∀ p o, Event.dir p o ∉ es) :
    (es.foldl Pins.apply x).dir = x.dir :=
  PinFile.ext_get _ _ fun p => foldl_dir_untouched es x p (h p)

/-- A last direction written to `p` stays when nothing after it sets it. -/
theorem foldl_dir_last (es fs : List Event) (x : Pins) (p : Nat) (o : Level) (h1 : 1 ≤ p) (h2 : p ≤ zifPins)
    (h : ∀ o', Event.dir p o' ∉ fs) : PinFile.get ((es ++ Event.dir p o :: fs).foldl Pins.apply x).dir p = o := by
  rw [List.foldl_append, List.foldl_cons, foldl_dir_untouched fs _ p h]
  exact PinFile.get_set_self _ p o h1 h2

/-- A last level driven on `p` stays when nothing after it drives it. -/
theorem foldl_lvl_last (es fs : List Event) (x : Pins) (p : Nat) (l : Level) (h1 : 1 ≤ p) (h2 : p ≤ zifPins)
    (h : ∀ l', Event.drv p l' ∉ fs) : PinFile.get ((es ++ Event.drv p l :: fs).foldl Pins.apply x).lvl p = l := by
  rw [List.foldl_append, List.foldl_cons, foldl_lvl_untouched fs _ p h]
  exact PinFile.get_set_self _ p l h1 h2

/-- Pins made outputs at level `v`: those of the list, no other. -/
theorem foldl_outEvents (ps : List Nat) (v : Level) (x : Pins) (hr : ∀ p ∈ ps, 1 ≤ p ∧ p ≤ zifPins) (q : Nat) :
    PinFile.get ((ps.flatMap (outEvents v)).foldl Pins.apply x).dir q =
        (if q ∈ ps then true else PinFile.get x.dir q) ∧
    PinFile.get ((ps.flatMap (outEvents v)).foldl Pins.apply x).lvl q =
        (if q ∈ ps then v else PinFile.get x.lvl q) := by
  induction ps generalizing x with
  | nil => simp
  | cons p rest ih =>
    have hp := hr p List.mem_cons_self
    have := ih ((outEvents v p).foldl Pins.apply x) (fun p' h => hr p' (List.mem_cons_of_mem _ h))
    rw [List.flatMap_cons, List.foldl_append, this.1, this.2]
    simp only [outEvents, List.foldl, Pins.apply, PinFile.get_set, List.mem_cons, hp.1, hp.2, and_true]
    by_cases h : q ∈ rest <;> by_cases h' : q = p <;> simp [h, h', eq_comm]

/-- Pins made inputs at level `u`: those of the list, no other. -/
theorem foldl_inEvents (ps : List Nat) (u : Level) (x : Pins) (hr : ∀ p ∈ ps, 1 ≤ p ∧ p ≤ zifPins) (q : Nat) :
    PinFile.get ((ps.flatMap (inEvents u)).foldl Pins.apply x).dir q =
        (if q ∈ ps then false else PinFile.get x.dir q) ∧
    PinFile.get ((ps.flatMap (inEvents u)).foldl Pins.apply x).lvl q =
        (if q ∈ ps then u else PinFile.get x.lvl q) := by
  induction ps generalizing x with
  | nil => simp
  | cons p rest ih =>
    have hp := hr p List.mem_cons_self
    have := ih ((inEvents u p).foldl Pins.apply x) (fun p' h => hr p' (List.mem_cons_of_mem _ h))
    rw [List.flatMap_cons, List.foldl_append, this.1, this.2]
    simp only [inEvents, List.foldl, Pins.apply, PinFile.get_set, List.mem_cons, hp.1, hp.2, and_true]
    by_cases h : q ∈ rest <;> by_cases h' : q = p <;> simp [h, h', eq_comm]

/-! Which pins the event sequences of the ISP engine name. -/

theorem mem_roleDrive (P : Profile) (k : Nat) (v : Level) (e : Event) :
    e ∈ roleDrive P k v ↔ ∃ p, translatePin P k = some p ∧ e = .drv p v := by
  unfold roleDrive
  cases translatePin P k <;> simp

theorem mem_roleSample (P : Profile) (k : Nat) (v : Level) (e : Event) :
    e ∈ roleSample P k v ↔ ∃ p, translatePin P k = some p ∧ e = .smp p v := by
  unfold roleSample
  cases translatePin P k <;> simp

theorem mem_cycleEvents (P : Profile) (e : Event) (h : e ∈ cycleEvents P) :
    (∃ p v, translatePin P (roleXclk P) = some p ∧ e = .drv p v) ∨ e = .dly .ispEdge := by
  simp only [cycleEvents, List.mem_append, mem_roleDrive, List.mem_singleton] at h
  rcases h with ((⟨p, h, rfl⟩ | rfl) | ⟨p, h, rfl⟩) | rfl
  · exact .inl ⟨p, _, h, rfl⟩
  · exact .inr rfl
  · exact .inl ⟨p, _, h, rfl⟩
  · exact .inr rfl

theorem mem_clockEvents (P : Profile) (n : Nat) (e : Event) (h : e ∈ clockEvents P n) :
    (∃ p v, translatePin P (roleXclk P) = some p ∧ e = .drv p v) ∨ e = .dly .ispEdge := by
  simp only [clockEvents, List.mem_flatten, List.mem_replicate] at h
  obtain ⟨l, ⟨-, rfl⟩, h⟩ := h
  exact mem_cycleEvents P e h

/-- The events of one bit: drives of SDO, SCK and XCLK, the sample of SDI, delays. -/
theorem mem_bitEvents (P : Profile) (c : Nat) (b l : Level) (e : Event) (h : e ∈ bitEvents P c b l) :
    (∃ p v, translatePin P (roleSdo P) = some p ∧ e = .drv p v) ∨
    (∃ p v, translatePin P (roleSck P) = some p ∧ e = .drv p v) ∨
    (∃ p v, translatePin P (roleXclk P) = some p ∧ e = .drv p v) ∨
    (∃ p v, translatePin P (roleSdi P) = some p ∧ e = .smp p v) ∨ e = .dly .ispEdge := by
  simp only [bitEvents, List.mem_append, mem_roleDrive, mem_roleSample] at h
  rcases h with ((((⟨p, h, rfl⟩ | h) | ⟨p, h, rfl⟩) | h) | ⟨p, h, rfl⟩) | ⟨p, h, rfl⟩
  · exact .inl ⟨p, _, h, rfl⟩
  · rcases mem_clockEvents P c e h with ⟨p, v, hp, he⟩ | he
    · exact .inr (.inr (.inl ⟨p, v, hp, he⟩))
    · exact .inr (.inr (.inr (.inr he)))
  · exact .inr (.inl ⟨p, _, h, rfl⟩)
  · rcases mem_clockEvents P c e h with ⟨p, v, hp, he⟩ | he
    · exact .inr (.inr (.inl ⟨p, v, hp, he⟩))
    · exact .inr (.inr (.inr (.inr he)))
  · exact .inr (.inr (.inr (.inl ⟨p, _, h, rfl⟩)))
  · exact .inr (.inl ⟨p, _, h, rfl⟩)

/-- A list of events made of bits of an exchange (one byte, or a frame of them). -/
def SerialEvents (P : Profile) (es : List Event) : Prop :=
  ∀ e ∈ es, (∃ p v, translatePin P (roleSdo P) = some p ∧ e = .drv p v) ∨
    (∃ p v, translatePin P (roleSck P) = some p ∧ e = .drv p v) ∨
    (∃ p v, translatePin P (roleXclk P) = some p ∧ e = .drv p v) ∨
    (∃ p v, translatePin P (roleSdi P) = some p ∧ e = .smp p v) ∨ e = .dly .ispEdge

theorem xferEvents_serial (P : Profile) (c : Nat) (b r : Byte) : SerialEvents P (xferEvents P c b r) := by
  intro e he
  simp only [xferEvents, List.mem_flatMap] at he
  obtain ⟨x, -, he⟩ := he
  exact mem_bitEvents P c _ _ e he

theorem frameEvents_serial (P : Profile) (c : Nat) (b0 b1 b2 b3 r0 r1 r2 r3 : Byte) :
    SerialEvents P (frameEvents P c b0 b1 b2 b3 r0 r1 r2 r3) := by
  intro e he
  simp only [frameEvents, List.mem_append] at he
  rcases he with ((he | he) | he) | he <;> exact xferEvents_serial P c _ _ e he

/-- An exchange sets no direction. -/
theorem serial_dir (P : Profile) (es : List Event) (h : SerialEvents P es) (x : Pins) :
    (es.foldl Pins.apply x).dir = x.dir := by
  apply foldl_dir_none
  intro p o ho
  rcases h _ ho with ⟨_, _, _, h⟩ | ⟨_, _, _, h⟩ | ⟨_, _, _, h⟩ | ⟨_, _, _, h⟩ | h <;> cases h

/-- An exchange drives SDO, SCK and XCLK only. -/
theorem serial_lvl_other (P : Profile) (es : List Event) (h : SerialEvents P es) (x : Pins) (p : Nat)
    (hp : ¬ IsPinOf P [roleSdo P, roleSck P, roleXclk P] p) :
    PinFile.get (es.foldl Pins.apply x).lvl p = PinFile.get x.lvl p := by
  apply foldl_lvl_untouched
  intro l hl
  apply hp
  rcases h _ hl with ⟨q, v, hq, h⟩ | ⟨q, v, hq, h⟩ | ⟨q, v, hq, h⟩ | ⟨q, v, hq, h⟩ | h <;>
    first | (cases h; exact ⟨_, by simp, hq⟩) | cases h

/-- TRISTATE's events leave every pin as after reset, whatever it was (R170, R40). -/
theorem tristate_pins (x : Pins) : tristateEvents.foldl Pins.apply x = Pins.reset := by
  have key : ∀ (n : Nat) (x : Pins) (q : Nat), n ≤ zifPins →
      PinFile.get (((List.range n).flatMap fun i => [Event.dir (i + 1) false, Event.drv (i + 1) false]).foldl
        Pins.apply x).dir q = (if 1 ≤ q ∧ q ≤ n then false else PinFile.get x.dir q) ∧
      PinFile.get (((List.range n).flatMap fun i => [Event.dir (i + 1) false, Event.drv (i + 1) false]).foldl
        Pins.apply x).lvl q = (if 1 ≤ q ∧ q ≤ n then false else PinFile.get x.lvl q) := by
    intro n
    induction n with
    | zero =>
      intro x q _
      have : ¬ (1 ≤ q ∧ q ≤ 0) := by omega
      rw [if_neg this, if_neg this]
      exact ⟨rfl, rfl⟩
    | succ m ih =>
      intro x q hm
      have hih := ih x q (by omega)
      rw [List.range_succ, List.flatMap_append, List.foldl_append]
      simp only [List.flatMap_cons, List.flatMap_nil, List.append_nil, List.foldl_cons, List.foldl_nil, Pins.apply,
        PinFile.get_set]
      rw [hih.1, hih.2]
      by_cases h1 : m + 1 = q
      · have a : m + 1 = q ∧ 1 ≤ m + 1 ∧ m + 1 ≤ zifPins := ⟨h1, by omega, hm⟩
        have b : 1 ≤ q ∧ q ≤ m + 1 := by omega
        rw [if_pos a, if_pos a, if_pos b, if_pos b]
        exact ⟨rfl, rfl⟩
      · have a : ¬ (m + 1 = q ∧ 1 ≤ m + 1 ∧ m + 1 ≤ zifPins) := fun h => h1 h.1
        have b : (1 ≤ q ∧ q ≤ m + 1) ↔ (1 ≤ q ∧ q ≤ m) := by omega
        rw [if_neg a, if_neg a]
        simp only [b, and_self]
  have fin : ∀ q, PinFile.get (tristateEvents.foldl Pins.apply x).dir q = false ∧
      PinFile.get (tristateEvents.foldl Pins.apply x).lvl q = false := by
    intro q
    by_cases h : 1 ≤ q ∧ q ≤ 40
    · have := key 40 x q (Nat.le_refl _)
      rw [if_pos h, if_pos h] at this
      exact this
    · have hq : q = 0 ∨ zifPins < q := by simp only [zifPins]; omega
      exact ⟨PinFile.get_outside _ q hq, PinFile.get_outside _ q hq⟩
  have e1 : (tristateEvents.foldl Pins.apply x).dir = Pins.reset.dir :=
    PinFile.ext_get _ _ fun q => by rw [(fin q).1]; exact (PinFile.get_replicate q).symm
  have e2 : (tristateEvents.foldl Pins.apply x).lvl = Pins.reset.lvl :=
    PinFile.ext_get _ _ fun q => by rw [(fin q).2]; exact (PinFile.get_replicate q).symm
  generalize tristateEvents.foldl Pins.apply x = y at e1 e2
  cases y
  cases e1
  cases e2
  rfl

end Sys2Proof.Machine
end

