-- ==== Sys2Proof/Laws/Exec.lean ====
section
/-! SUPPORT. What each request can do, said once: the state it answers, as the events it makes (`State.did`), the `st` it
ends in and the response it gives. -/

namespace Sys2Proof.Machine

/-- XLATE (R128). -/
theorem exec_xlate (s : State) (P : Profile) (k : Nat) (hP : s.profile? = some P) :
    exec (.xlate k) s = .next (if P.pins < k then s.respond .errRange 0
      else s.respond .ok (BitVec.ofNat 32 (pinNumber (translatePin P k)))) := by
  simp only [exec, execXlate, withProfile_some s _ P hP, raise]
  split <;> rfl

/-- SELECT (R150). -/
theorem exec_select (s : State) (idx : Nat) :
    exec (.select idx) s = .next (if s.st ≠ .tristate then s.respond .errState 0
      else if s.cfg.catalog.length ≤ idx then s.respond .errRange 0 else { s with sel := idx }.respond .ok 0) := by
  simp only [exec, execSelect, raise]
  split
  · rfl
  · split <;> rfl

/-- TRISTATE (R170). -/
theorem exec_tristate (s : State) :
    exec .tristate s = .next (((s.did tristateEvents s.target).setSt .tristate).respond .ok 0) := by
  simp only [exec, execTristate, releaseFrom_did, tristateEvents]

/-- SETUP of a parallel profile (R160). -/
theorem exec_setup_parallel (s : State) (P : Profile) (hP : s.profile? = some P) (hs : s.st = .tristate)
    (hl : optLatch P = false) (hi : isIsp P = false) :
    exec .setup s = .next (((s.did (setupEvents P) s.target).setSt .ready).respond .ok 0) := by
  simp only [exec, execSetup, hs, ne_eq, not_true_eq_false, if_false, withProfile_some s _ P hP, hl, hi,
    Bool.false_eq_true, configure_did]
  rfl

/-- SETUP of an ISP profile (R160, R167). -/
theorem exec_setup_isp (s : State) (P : Profile) (hP : s.profile? = some P) (hs : s.st = .tristate)
    (hl : optLatch P = false) (hi : isIsp P = true) :
    ∃ e g, exec .setup s = .next (ispConclude e (s.did (setupEvents P ++ entryEvents P s.cfg e.e0 e.e1 e.e2 e.e3) g)) ∧
      (translatePin P (roleSdi P) = none → e = ⟨0x00#8, 0x00#8, 0x00#8, 0x00#8⟩) := by
  obtain ⟨e, g, h, hz⟩ := ispEnter_did P ((configure P s).setSt .ispHandshake)
  refine ⟨e, g, ?_, hz⟩
  simp only [exec, execSetup, hs, ne_eq, not_true_eq_false, if_false, withProfile_some s _ P hP, hl, hi, if_true,
    Bool.false_eq_true]
  rw [h]
  congr 1
  simp only [configure_did, ispConclude_eq, setSt_did, did_did]
  rfl

/-- SETUP of a profile with `OPT_LATCH` (R161). -/
theorem exec_setup_latch (s : State) (P : Profile) (hP : s.profile? = some P) (hs : s.st = .tristate)
    (hl : optLatch P = true) :
    exec .setup s = .next ({ s with refused := true }.respond .errUnsup 0) := by
  simp only [exec, execSetup, hs, ne_eq, not_true_eq_false, if_false, withProfile_some s _ P hP, hl, if_true, raise]

/-- SETUP outside `Tristate` (R275). -/
theorem exec_setup_refused (s : State) (hs : s.st ≠ .tristate) :
    exec .setup s = .next (s.respond .errState 0) := by
  simp only [exec, execSetup, hs, ne_eq, not_false_eq_true, if_true, raise]

/-- READ outside `Ready` (R275). -/
theorem exec_read_refused (s : State) (addr : Arg) (hs : s.st ≠ .ready) :
    exec (.read addr) s = .next (s.respond .errState 0) := by
  simp only [exec, execRead, hs, ne_eq, not_false_eq_true, if_true, raise]

/-- READ of a parallel profile (R180, R184). -/
theorem exec_read_parallel (s : State) (P : Profile) (addr : Arg) (hP : s.profile? = some P) (hs : s.st = .ready)
    (hi : isIsp P = false) (hw : P.dataWidth ≤ ndMax) (hN : 1 ≤ s.cfg.nSamples) :
    ∃ passes b g, exec (.read addr) s =
        .next ((s.did (addressEvents P addr ++ [.dly .prop] ++ passes.flatMap (passEvents P)) g).respond .ok
          (b.setWidth 32)) ∧
      Converges s.cfg.nSamples passes b ∧ ∀ x ∈ passes, PassByte P x := by
  obtain ⟨passes, g, hc, hp, h⟩ := parallelRead_did P hw addr s hN
  refine ⟨passes, _, g, ?_, hc, hp⟩
  simp only [exec, execRead, hs, ne_eq, not_true_eq_false, if_false, withProfile_some s _ P hP, readByte, hi,
    Bool.false_eq_true]
  rw [h]

/-- READ of an ISP profile (R180, R212). -/
theorem exec_read_isp (s : State) (P : Profile) (addr : Arg) (hP : s.profile? = some P) (hs : s.st = .ready)
    (hi : isIsp P = true) :
    ∃ r0 r1 r2 r3 g, exec (.read addr) s =
        .next ((s.did (frameEvents P s.cfg.ispBitCycles (readOpcode s.cfg addr) (readMiddle addr) (readLow addr)
          s.cfg.ispDummy r0 r1 r2 r3) g).respond .ok (r3.setWidth 32)) ∧
      (translatePin P (roleSdi P) = none → r3 = 0x00#8) := by
  obtain ⟨r0, r1, r2, g, h, hz⟩ := ispRead_did P addr s
  refine ⟨r0, r1, r2, _, g, ?_, hz⟩
  simp only [exec, execRead, hs, ne_eq, not_true_eq_false, if_false, withProfile_some s _ P hP, readByte, hi, if_true]
  rw [h]

/-- When the ISP requests are accepted (R201). -/
theorem ispAccepts_iff (P : Profile) (s : State) :
    ispAccepts P s = true ↔ isIsp P = true ∧ (s.st = .ready ∨ s.st = .faulted) := by
  simp [ispAccepts]

/-- ISP_CLOCK (R203). -/
theorem exec_ispClock (s : State) (P : Profile) (n : Nat) (hP : s.profile? = some P) :
    exec (.ispClock n) s = .next (if ispAccepts P s then (s.did (clockEvents P n) s.target).respond .ok 0
      else s.respond .errState 0) := by
  simp only [exec, execIspClock, withProfile_some s _ P hP, raise, auxClock_did]
  split <;> rfl

/-- ISP_XFER turned away (R201). -/
theorem exec_ispXfer_refused (s : State) (P : Profile) (b : Byte) (hP : s.profile? = some P)
    (h : ispAccepts P s = false) : exec (.ispXfer b) s = .next (s.respond .errState 0) := by
  simp only [exec, execIspXfer, withProfile_some s _ P hP, h, raise, Bool.false_eq_true, if_false]

/-- ISP_XFER (R207). -/
theorem exec_ispXfer (s : State) (P : Profile) (b : Byte) (hP : s.profile? = some P) (h : ispAccepts P s = true) :
    ∃ r g, exec (.ispXfer b) s =
        .next ((s.did (xferEvents P s.cfg.ispBitCycles b r) g).respond .ok (r.setWidth 32)) ∧
      (translatePin P (roleSdi P) = none → r = 0x00#8) := by
  obtain ⟨g, hg, hz⟩ := xfer_did P b s
  refine ⟨_, g, ?_, hz⟩
  simp only [exec, execIspXfer, withProfile_some s _ P hP, h, if_true]
  rw [hg]

/-- ISP_PROBE turned away (R201). -/
theorem exec_ispProbe_refused (s : State) (P : Profile) (hP : s.profile? = some P)
    (h : ispAccepts P s = false) : exec .ispProbe s = .next (s.respond .errState 0) := by
  simp only [exec, execIspProbe, withProfile_some s _ P hP, h, raise, Bool.false_eq_true, if_false]

/-- ISP_PROBE (R210). -/
theorem exec_ispProbe (s : State) (P : Profile) (hP : s.profile? = some P) (h : ispAccepts P s = true) :
    ∃ e g, exec .ispProbe s = .next (ispConclude e (s.did (entryEvents P s.cfg e.e0 e.e1 e.e2 e.e3) g)) ∧
      (translatePin P (roleSdi P) = none → e = ⟨0x00#8, 0x00#8, 0x00#8, 0x00#8⟩) := by
  obtain ⟨e, g, hg, hz⟩ := ispEnter_did P (s.setSt .ispHandshake)
  refine ⟨e, g, ?_, hz⟩
  simp only [exec, execIspProbe, withProfile_some s _ P hP, h, if_true]
  rw [hg]
  congr 1

/-- A list of samples of data pins and nothing else. -/
def OnlySamples (P : Profile) (es : List Event) : Prop :=
  ∀ e ∈ es, ∃ i p l, i < P.dataWidth ∧ translatePin P (nth P.dataPins i) = some p ∧ e = .smp p l

/-- A pass takes samples only, whatever the profile. -/
theorem sampleByte_samples (P : Profile) (s : State) :
    ∃ es g, (sampleByte P s).2 = s.did es g ∧ OnlySamples P es := by
  obtain ⟨ls, g, -, -, hs, -⟩ := samplePins_did P (passPins P) 0x00#8 s
  refine ⟨_, g, hs, ?_⟩
  intro e he
  simp only [List.mem_flatMap, mem_roleSample] at he
  obtain ⟨x, hx, p, hp, rfl⟩ := he
  have hm := (List.of_mem_zip hx).1
  simp only [passPins, List.mem_map, List.mem_range] at hm
  obtain ⟨i, hi, he⟩ := hm
  exact ⟨i, p, _, hi, by rw [he]; exact hp, rfl⟩

/-- The convergence loop takes samples only, whatever the profile. -/
theorem converge_samples (P : Profile) (n : Nat) (prev : Byte) (s : State) :
    ∃ es g, (converge P n prev s).2 = s.did es g ∧ OnlySamples P es := by
  induction n generalizing prev s with
  | zero => exact ⟨[], s.target, by simp [converge], by simp [OnlySamples]⟩
  | succ m ih =>
    obtain ⟨e1, g1, h1, o1⟩ := sampleByte_samples P s
    unfold converge
    split
    · exact ⟨e1, g1, h1, o1⟩
    · obtain ⟨e2, g2, h2, o2⟩ := ih (sampleByte P s).1 (sampleByte P s).2
      refine ⟨e1 ++ e2, g2, did_chain h1 h2, ?_⟩
      intro e he
      rcases List.mem_append.mp he with h | h
      · exact o1 e h
      · exact o2 e h

/-- A parallel read drives the address and then samples, whatever the profile and the parameters. -/
theorem parallelRead_samples (P : Profile) (addr : Arg) (s : State) :
    ∃ es g, (parallelRead P addr s).2 = s.did (addressEvents P addr ++ [.dly .prop] ++ es) g ∧ OnlySamples P es := by
  have h0 : (setAddress P addr s).delay .prop = s.did (addressEvents P addr ++ [.dly .prop]) s.target := by
    rw [setAddress_did, delay_did, did_did]; rfl
  obtain ⟨e1, g1, h1, o1⟩ := sampleByte_samples P ((setAddress P addr s).delay .prop)
  obtain ⟨e2, g2, h2, o2⟩ := converge_samples P (s.cfg.nSamples - 1)
    (sampleByte P ((setAddress P addr s).delay .prop)).1 (sampleByte P ((setAddress P addr s).delay .prop)).2
  refine ⟨e1 ++ e2, g2, did_chain h0 (did_chain h1 h2), ?_⟩
  intro e he
  rcases List.mem_append.mp he with h | h
  · exact o1 e h
  · exact o2 e h

/-- What a request can answer, from any state. -/
inductive ExecCase (s : State) : Instr → State → Prop
  /-- Turned away, nothing changed. -/
  | refused (i : Instr) (r : Status) (h : r = .errState ∨ r = .errRange) : ExecCase s i (s.respond r 0)
  /-- SETUP of a profile with `OPT_LATCH`. -/
  | latch (P : Profile) (hP : s.profile? = some P) (hs : s.st = .tristate) (hl : optLatch P = true) :
      ExecCase s .setup ({ s with refused := true }.respond .errUnsup 0)
  /-- SELECT. -/
  | select (idx : Nat) (hs : s.st = .tristate) (h : idx < s.cfg.catalog.length) :
      ExecCase s (.select idx) ({ s with sel := idx }.respond .ok 0)
  /-- XLATE. -/
  | xlate (k : Nat) (v : BitVec 32) : ExecCase s (.xlate k) (s.respond .ok v)
  /-- TRISTATE. -/
  | tristate : ExecCase s .tristate (((s.did tristateEvents s.target).setSt .tristate).respond .ok 0)
  /-- SETUP of a parallel profile. -/
  | setupParallel (P : Profile) (hP : s.profile? = some P) (hs : s.st = .tristate) (hl : optLatch P = false)
      (hi : isIsp P = false) : ExecCase s .setup (((s.did (setupEvents P) s.target).setSt .ready).respond .ok 0)
  /-- SETUP of an ISP profile. -/
  | setupIsp (P : Profile) (e : Echoes) (g : Target) (hP : s.profile? = some P) (hs : s.st = .tristate)
      (hl : optLatch P = false) (hi : isIsp P = true) :
      ExecCase s .setup (ispConclude e (s.did (setupEvents P ++ entryEvents P s.cfg e.e0 e.e1 e.e2 e.e3) g))
  /-- ISP_PROBE. -/
  | probe (P : Profile) (e : Echoes) (g : Target) (hP : s.profile? = some P) (hi : isIsp P = true)
      (hs : s.st = .ready ∨ s.st = .faulted) :
      ExecCase s .ispProbe (ispConclude e (s.did (entryEvents P s.cfg e.e0 e.e1 e.e2 e.e3) g))
  /-- READ of a parallel profile. -/
  | readParallel (P : Profile) (addr : Arg) (es : List Event) (g : Target) (v : BitVec 32) (hP : s.profile? = some P)
      (hs : s.st = .ready) (hi : isIsp P = false) (ho : OnlySamples P es) :
      ExecCase s (.read addr) ((s.did (addressEvents P addr ++ [.dly .prop] ++ es) g).respond .ok v)
  /-- READ of an ISP profile. -/
  | readIsp (P : Profile) (addr : Arg) (r0 r1 r2 r3 : Byte) (g : Target) (hP : s.profile? = some P)
      (hi : isIsp P = true) (hs : s.st = .ready) :
      ExecCase s (.read addr) ((s.did (frameEvents P s.cfg.ispBitCycles (readOpcode s.cfg addr) (readMiddle addr)
        (readLow addr) s.cfg.ispDummy r0 r1 r2 r3) g).respond .ok (r3.setWidth 32))
  /-- ISP_XFER. -/
  | xfer (P : Profile) (b r : Byte) (g : Target) (hP : s.profile? = some P) (hi : isIsp P = true)
      (hs : s.st = .ready ∨ s.st = .faulted) :
      ExecCase s (.ispXfer b) ((s.did (xferEvents P s.cfg.ispBitCycles b r) g).respond .ok (r.setWidth 32))
  /-- ISP_CLOCK. -/
  | clock (P : Profile) (n : Nat) (hP : s.profile? = some P) (hi : isIsp P = true)
      (hs : s.st = .ready ∨ s.st = .faulted) :
      ExecCase s (.ispClock n) ((s.did (clockEvents P n) s.target).respond .ok 0)

/-- With no active profile, the requests that would read it stop or are turned away before. -/
theorem withProfile_none (s : State) (f : Profile → Out) (h : s.profile? = none) :
    s.withProfile f = .fault .noActiveProfile := by
  simp [State.withProfile, h]

/-- Every next state of a request is one of the cases. -/
theorem exec_cases (i : Instr) (s t : State) (h : exec i s = .next t) : ExecCase s i t := by
  have noP : ∀ f, s.profile? = none → s.withProfile f ≠ .next t := by
    intro f hn hf
    rw [withProfile_none s f hn] at hf
    cases hf
  cases i with
  | tristate =>
    rw [exec_tristate] at h
    cases h
    exact .tristate
  | select idx =>
    rw [exec_select] at h
    by_cases h1 : s.st = .tristate
    · by_cases h2 : s.cfg.catalog.length ≤ idx
      · simp only [h1, ne_eq, not_true_eq_false, if_false, h2, if_true] at h
        cases h
        exact .refused _ _ (.inr rfl)
      · rw [if_neg (by simp [h1]), if_neg h2] at h
        cases h
        exact .select idx h1 (Nat.not_le.mp h2)
    · simp only [ne_eq, h1, not_false_eq_true, if_true] at h
      cases h
      exact .refused _ _ (.inl rfl)
  | setup =>
    by_cases hs : s.st = .tristate
    · cases hP : s.profile? with
      | none =>
        simp only [exec, execSetup, hs, ne_eq, not_true_eq_false, if_false] at h
        exact absurd h (noP _ hP)
      | some P =>
        cases hl : optLatch P with
        | true =>
          rw [exec_setup_latch s P hP hs hl] at h
          cases h
          exact .latch P hP hs hl
        | false =>
          cases hi : isIsp P with
          | false =>
            rw [exec_setup_parallel s P hP hs hl hi] at h
            cases h
            exact .setupParallel P hP hs hl hi
          | true =>
            obtain ⟨e, g, he, -⟩ := exec_setup_isp s P hP hs hl hi
            rw [he] at h
            cases h
            exact .setupIsp P e g hP hs hl hi
    · rw [exec_setup_refused s hs] at h
      cases h
      exact .refused _ _ (.inl rfl)
  | read addr =>
    by_cases hs : s.st = .ready
    · cases hP : s.profile? with
      | none =>
        simp only [exec, execRead, hs, ne_eq, not_true_eq_false, if_false] at h
        exact absurd h (noP _ hP)
      | some P =>
        cases hi : isIsp P with
        | true =>
          obtain ⟨r0, r1, r2, r3, g, he, -⟩ := exec_read_isp s P addr hP hs hi
          rw [he] at h
          cases h
          exact .readIsp P addr r0 r1 r2 r3 g hP hi hs
        | false =>
          obtain ⟨es, g, he, ho⟩ := parallelRead_samples P addr s
          simp only [exec, execRead, hs, ne_eq, not_true_eq_false, if_false, withProfile_some s _ P hP, readByte, hi,
            Bool.false_eq_true, he] at h
          cases h
          exact .readParallel P addr es g _ hP hs hi ho
    · rw [exec_read_refused s addr hs] at h
      cases h
      exact .refused _ _ (.inl rfl)
  | ispProbe =>
    cases hP : s.profile? with
    | none => exact absurd h (noP _ hP)
    | some P =>
      cases ha : ispAccepts P s with
      | false =>
        rw [exec_ispProbe_refused s P hP ha] at h
        cases h
        exact .refused _ _ (.inl rfl)
      | true =>
        obtain ⟨e, g, he, -⟩ := exec_ispProbe s P hP ha
        rw [he] at h
        cases h
        obtain ⟨h1, h2⟩ := (ispAccepts_iff P s).mp ha
        exact .probe P e g hP h1 h2
  | ispXfer b =>
    cases hP : s.profile? with
    | none => exact absurd h (noP _ hP)
    | some P =>
      cases ha : ispAccepts P s with
      | false =>
        rw [exec_ispXfer_refused s P b hP ha] at h
        cases h
        exact .refused _ _ (.inl rfl)
      | true =>
        obtain ⟨r, g, he, -⟩ := exec_ispXfer s P b hP ha
        rw [he] at h
        cases h
        obtain ⟨h1, h2⟩ := (ispAccepts_iff P s).mp ha
        exact .xfer P b r g hP h1 h2
  | ispClock n =>
    cases hP : s.profile? with
    | none => exact absurd h (noP _ hP)
    | some P =>
      rw [exec_ispClock s P n hP] at h
      cases ha : ispAccepts P s with
      | false =>
        simp only [ha, Bool.false_eq_true, if_false] at h
        cases h
        exact .refused _ _ (.inl rfl)
      | true =>
        simp only [ha, if_true] at h
        cases h
        obtain ⟨h1, h2⟩ := (ispAccepts_iff P s).mp ha
        exact .clock P n hP h1 h2
  | xlate k =>
    cases hP : s.profile? with
    | none => exact absurd h (noP _ hP)
    | some P =>
      rw [exec_xlate s P k hP] at h
      split at h
      · cases h
        exact .refused _ _ (.inr rfl)
      · cases h
        exact .xlate k _

end Sys2Proof.Machine
end

