-- ==== Sys2Proof/Laws/Profiles.lean ====
section
/-! SUPPORT. What a well-formed profile guarantees (spec/41_catalog_select.md R142 to R147): its pins lie in the socket,
and no physical pin is the pin of two entries. -/

namespace Sys2Proof.Machine

/-- A well-formed catalog holds well-formed profiles. -/
theorem wf_of_mem (cfg : Config) (P : Profile) (h : configWf cfg = true) (hP : P ∈ cfg.catalog) :
    Profile.wf P = true := by
  simp only [configWf, catalogWf, Bool.and_eq_true, List.all_eq_true] at h
  exact h.1.1.1 P hP

/-- W1 to W6 of a well-formed profile, one by one. -/
theorem wf_fields (P : Profile) (h : Profile.wf P = true) :
    Profile.fieldsOk P = true ∧ Profile.w1 P = true ∧ Profile.w2 P = true ∧ Profile.w3 P = true ∧
      Profile.w4 P = true ∧ Profile.w5 P = true ∧ Profile.w6 P = true := by
  simpa [Profile.wf, and_assoc] using h

/-- W6: at most `ND_MAX` data bits (R147). -/
theorem wf_dataWidth (P : Profile) (h : Profile.wf P = true) : P.dataWidth ≤ ndMax := by
  have := (wf_fields P h).2.2.2.2.2.2
  simp only [Profile.w6, Bool.and_eq_true, decide_eq_true_eq] at this
  exact this.1.1

/-- The used entries are the nonzero entries of the four lists. -/
theorem mem_allUsedPins (P : Profile) (k : Nat) : k ∈ allUsedPins P ↔ k ∈ allPins P ∧ k ≠ 0 := by
  simp only [allUsedPins, usedPins, allPins, List.mem_append, List.mem_filter, bne_iff_ne]
  tauto

/-- W1, W2: every entry with a physical pin has one of the socket (R122 (a), R142, R143). -/
theorem wf_range (P : Profile) (h : Profile.wf P = true) (k p : Nat) (hk : k ∈ allPins P)
    (hp : translatePin P k = some p) : 1 ≤ p ∧ p ≤ zifPins := by
  obtain ⟨-, h1, h2, -⟩ := wf_fields P h
  simp only [Profile.w1, Bool.and_eq_true, decide_eq_true_eq] at h1
  simp only [Profile.w2, List.all_eq_true, decide_eq_true_eq] at h2
  have hk0 : k ≠ 0 := by
    rintro rfl
    cases hp
  exact translatePin_range P k p h1.2 (h2 k ((mem_allUsedPins P k).mpr ⟨hk, hk0⟩)) hp

/-- W5: the used entries are pairwise different (R146). -/
theorem wf_nodup (P : Profile) (h : Profile.wf P = true) : (allUsedPins P).Nodup :=
  of_decide_eq_true (wf_fields P h).2.2.2.2.2.1

theorem mem_usedPins (L : List Nat) (k : Nat) : k ∈ usedPins L ↔ k ∈ L ∧ k ≠ 0 := by
  simp [usedPins]

/-- W5: the four lists share no physical pin (R146). -/
theorem wf_disjoint (P : Profile) (h : Profile.wf P = true) (p : Nat) :
    (IsPinOf P P.loPins p → ¬ IsPinOf P P.hiPins p ∧ ¬ IsPinOf P P.addrPins p ∧ ¬ IsPinOf P P.dataPins p) ∧
    (IsPinOf P P.hiPins p → ¬ IsPinOf P P.loPins p ∧ ¬ IsPinOf P P.addrPins p ∧ ¬ IsPinOf P P.dataPins p) ∧
    (IsPinOf P P.addrPins p → ¬ IsPinOf P P.loPins p ∧ ¬ IsPinOf P P.hiPins p ∧ ¬ IsPinOf P P.dataPins p) ∧
    (IsPinOf P P.dataPins p → ¬ IsPinOf P P.loPins p ∧ ¬ IsPinOf P P.hiPins p ∧ ¬ IsPinOf P P.addrPins p) := by
  have h5 := wf_nodup P h
  simp only [allUsedPins, List.nodup_append, List.mem_append] at h5
  have key : ∀ A B : List Nat, (∀ a ∈ usedPins A, ∀ b ∈ usedPins B, a ≠ b) → IsPinOf P A p → ¬ IsPinOf P B p := by
    rintro A B hd ⟨a, ha, hpa⟩ ⟨b, hb, hpb⟩
    have ha0 : a ≠ 0 := by rintro rfl; cases hpa
    have hb0 : b ≠ 0 := by rintro rfl; cases hpb
    exact hd a ((mem_usedPins A a).mpr ⟨ha, ha0⟩) b ((mem_usedPins B b).mpr ⟨hb, hb0⟩)
      (translatePin_inj P a b p hpa hpb)
  obtain ⟨⟨⟨-, -, d1⟩, -, d2⟩, -, d3⟩ := h5
  have lh := key P.loPins P.hiPins d1
  have la := key P.loPins P.addrPins fun a ha => d2 a (.inl ha)
  have ha := key P.hiPins P.addrPins fun a h => d2 a (.inr h)
  have ld := key P.loPins P.dataPins fun a ha => d3 a (.inl (.inl ha))
  have hd := key P.hiPins P.dataPins fun a h => d3 a (.inl (.inr h))
  have ad := key P.addrPins P.dataPins fun a h => d3 a (.inr h)
  exact ⟨fun x => ⟨lh x, la x, ld x⟩, fun x => ⟨fun y => lh y x, ha x, hd x⟩,
    fun x => ⟨fun y => la y x, fun y => ha y x, ad x⟩, fun x => ⟨fun y => ld y x, fun y => hd y x, fun y => ad y x⟩⟩

/-- In a list whose nonzero entries are pairwise different, equal nonzero entries stand at one index. -/
theorem nodup_index (L : List Nat) (h : (usedPins L).Nodup) (i j : Nat) (he : nth L i = nth L j) (h0 : nth L i ≠ 0) :
    i = j := by
  induction L generalizing i j with
  | nil => exact absurd rfl h0
  | cons k rest ih =>
    have mem : ∀ m, nth rest m ≠ 0 → nth rest m ∈ usedPins rest := by
      intro m hm
      refine (mem_usedPins _ _).mpr ⟨?_, hm⟩
      unfold nth at hm ⊢
      by_cases hl : m < rest.length
      · simp [hl]
      · simp [Nat.le_of_not_lt hl] at hm
    have hrest : (usedPins rest).Nodup ∧ (k ≠ 0 → k ∉ usedPins rest) := by
      unfold usedPins at h
      rw [List.filter_cons] at h
      split at h
      · exact ⟨(List.nodup_cons.mp h).2, fun _ => (List.nodup_cons.mp h).1⟩
      · next hk => exact ⟨h, fun h0 => absurd (by simpa using h0) hk⟩
    cases i with
    | zero =>
      cases j with
      | zero => rfl
      | succ n =>
        have e : k = nth rest n := he
        exact absurd (e ▸ mem n (e ▸ h0)) (hrest.2 h0)
    | succ m =>
      cases j with
      | zero =>
        have e : nth rest m = k := he
        exact absurd (e ▸ mem m h0) (hrest.2 (e ▸ h0))
      | succ n => exact congrArg (· + 1) (ih hrest.1 m n he h0)

/-- W5 within the address list: two indexes of one physical pin are one index (R146). -/
theorem wf_addr_index (P : Profile) (h : Profile.wf P = true) (i j p : Nat)
    (hi : translatePin P (nth P.addrPins i) = some p) (hj : translatePin P (nth P.addrPins j) = some p) : i = j := by
  have h5 := wf_nodup P h
  simp only [allUsedPins, List.nodup_append] at h5
  exact nodup_index P.addrPins h5.1.2.1 i j (translatePin_inj P _ _ p hi hj) (by
    intro h0
    rw [h0] at hi
    cases hi)

/-- W5 within the data list (R146). -/
theorem wf_data_index (P : Profile) (h : Profile.wf P = true) (i j p : Nat)
    (hi : translatePin P (nth P.dataPins i) = some p) (hj : translatePin P (nth P.dataPins j) = some p) : i = j := by
  have h5 := wf_nodup P h
  simp only [allUsedPins, List.nodup_append] at h5
  exact nodup_index P.dataPins h5.2.1 i j (translatePin_inj P _ _ p hi hj) (by
    intro h0
    rw [h0] at hi
    cases hi)

/-- A nonzero entry beyond no end is an entry of the list. -/
theorem nth_mem (L : List Nat) (i : Nat) (h : nth L i ≠ 0) : nth L i ∈ L := by
  unfold nth at *
  by_cases hi : i < L.length
  · simp [hi]
  · simp [Nat.le_of_not_lt hi] at h

end Sys2Proof.Machine
end

