-- ==== Sys2Proof/Laws/Configured.lean ====
section
/-! SUPPORT. The pins SETUP's configuration leaves (spec/42_setup_tristate.md R162 to R165), and the levels a serial
exchange rests at (spec/44_isp_engine.md R202, R206). -/

namespace Sys2Proof.Machine

theorem isPinOf_all (P : Profile) (p : Nat) : IsPinOf P (allPins P) p ↔
    IsPinOf P P.loPins p ∨ IsPinOf P P.hiPins p ∨ IsPinOf P P.addrPins p ∨ IsPinOf P P.dataPins p := by
  simp only [IsPinOf, allPins, List.mem_append]
  constructor
  · rintro ⟨k, ((h | h) | h) | h, e⟩
    · exact .inl ⟨k, h, e⟩
    · exact .inr (.inl ⟨k, h, e⟩)
    · exact .inr (.inr (.inl ⟨k, h, e⟩))
    · exact .inr (.inr (.inr ⟨k, h, e⟩))
  · rintro (⟨k, h, e⟩ | ⟨k, h, e⟩ | ⟨k, h, e⟩ | ⟨k, h, e⟩)
    · exact ⟨k, .inl (.inl (.inl h)), e⟩
    · exact ⟨k, .inl (.inl (.inr h)), e⟩
    · exact ⟨k, .inl (.inr h), e⟩
    · exact ⟨k, .inr h, e⟩

/-- The pins after SETUP's configuration of a well-formed profile, from pins `x`. -/
theorem setup_pins (P : Profile) (hw : Profile.wf P = true) (x : Pins) (p : Nat) :
    let y := (setupEvents P).foldl Pins.apply x
    (IsPinOf P P.loPins p → PinFile.get y.dir p = true ∧ PinFile.get y.lvl p = false) ∧
    (IsPinOf P P.hiPins p → PinFile.get y.dir p = true ∧ PinFile.get y.lvl p = true) ∧
    (IsPinOf P P.addrPins p → PinFile.get y.dir p = true ∧ PinFile.get y.lvl p = false) ∧
    (IsPinOf P P.dataPins p → PinFile.get y.dir p = false ∧ PinFile.get y.lvl p = optPullup P) ∧
    (¬ IsPinOf P (allPins P) p → PinFile.get y.dir p = PinFile.get x.dir p ∧ PinFile.get y.lvl p = PinFile.get x.lvl p) := by
  have range : ∀ L : List Nat, (∀ k ∈ L, k ∈ allPins P) → ∀ q ∈ physPins P L, 1 ≤ q ∧ q ≤ zifPins := by
    intro L hL q hq
    obtain ⟨k, hk, e⟩ := (mem_physPins P L q).mp hq
    exact wf_range P hw k q (hL k hk) e
  have rl := range P.loPins (fun k h => by simp [allPins, h])
  have rh := range P.hiPins (fun k h => by simp [allPins, h])
  have ra := range P.addrPins (fun k h => by simp [allPins, h])
  have rd := range P.dataPins (fun k h => by simp [allPins, h])
  obtain ⟨dl, dh, da, dd⟩ := wf_disjoint P hw p
  intro y
  have hy : PinFile.get y.dir p =
      (if p ∈ physPins P P.dataPins then false else if p ∈ physPins P P.addrPins then true
        else if p ∈ physPins P P.hiPins then true else if p ∈ physPins P P.loPins then true else PinFile.get x.dir p) ∧
      PinFile.get y.lvl p =
      (if p ∈ physPins P P.dataPins then optPullup P else if p ∈ physPins P P.addrPins then false
        else if p ∈ physPins P P.hiPins then true else if p ∈ physPins P P.loPins then false else PinFile.get x.lvl p) := by
    simp only [y, setupEvents, List.foldl_append, List.foldl_cons, List.foldl_nil]
    refine ⟨?_, ?_⟩
    · simp only [Pins.apply, (foldl_inEvents _ _ _ rd p).1, (foldl_outEvents _ _ _ ra p).1,
        (foldl_outEvents _ _ _ rh p).1, (foldl_outEvents _ _ _ rl p).1]
    · simp only [Pins.apply, (foldl_inEvents _ _ _ rd p).2, (foldl_outEvents _ _ _ ra p).2,
        (foldl_outEvents _ _ _ rh p).2, (foldl_outEvents _ _ _ rl p).2]
  rw [hy.1, hy.2, isPinOf_all]
  simp only [← mem_physPins] at dl dh da dd ⊢
  refine ⟨fun h => ?_, fun h => ?_, fun h => ?_, fun h => ?_, fun h => ?_⟩
  · obtain ⟨a, b, c⟩ := dl h
    simp [h, a, b, c]
  · obtain ⟨a, b, c⟩ := dh h
    simp [h, b, c]
  · obtain ⟨a, b, c⟩ := da h
    simp [h, c]
  · simp [h]
  · simp only [not_or] at h
    simp [h.1, h.2.1, h.2.2.1, h.2.2.2]

/-- The role slots of a profile are entries of its lists, or unused. -/
theorem role_mem (P : Profile) (p : Nat) :
    (translatePin P (roleSck P) = some p → IsPinOf P P.addrPins p) ∧
    (translatePin P (roleSdo P) = some p → IsPinOf P P.addrPins p) ∧
    (translatePin P (roleRst P) = some p → IsPinOf P P.addrPins p) ∧
    (translatePin P (roleXclk P) = some p → IsPinOf P P.addrPins p) ∧
    (translatePin P (roleSdi P) = some p → IsPinOf P P.dataPins p) := by
  have key : ∀ L i, translatePin P (nth L i) = some p → IsPinOf P L p := by
    intro L i h
    refine ⟨nth L i, nth_mem L i ?_, h⟩
    intro h0
    rw [h0] at h
    cases h
  exact ⟨key _ _, key _ _, key _ _, key _ _, key _ _⟩

/-- XCLK rests at 0 after a cycle; the level of any other pin is as before (R202). -/
theorem clock_lvl (P : Profile) (n : Nat) (x : Pins) (p : Nat) (hr : 1 ≤ p ∧ p ≤ zifPins) :
    PinFile.get ((clockEvents P n).foldl Pins.apply x).lvl p =
      if translatePin P (roleXclk P) = some p ∧ 1 ≤ n then false else PinFile.get x.lvl p := by
  by_cases h : translatePin P (roleXclk P) = some p
  · cases n with
    | zero => simp [clockEvents]
    | succ m =>
      rw [if_pos ⟨h, by omega⟩]
      have hc : clockEvents P (m + 1) = (clockEvents P m ++ [.drv p true, .dly .ispEdge]) ++
          Event.drv p false :: [.dly .ispEdge] := by
        simp [clockEvents, List.replicate_succ', cycleEvents, roleDrive, h]
      rw [hc]
      exact foldl_lvl_last _ _ _ p false hr.1 hr.2 (by simp)
  · rw [if_neg (fun h' => h h'.1)]
    apply foldl_lvl_untouched
    intro l hl
    rcases mem_clockEvents P n _ hl with ⟨q, v, hq, e⟩ | e
    · cases e
      exact h hq
    · cases e

/-- `aux_clock` sets no direction. -/
theorem clock_dir (P : Profile) (n : Nat) (x : Pins) : ((clockEvents P n).foldl Pins.apply x).dir = x.dir := by
  apply foldl_dir_none
  intro p o h
  rcases mem_clockEvents P n _ h with ⟨_, _, _, e⟩ | e <;> cases e

/-- The level a role's drive leaves. -/
theorem roleDrive_lvl (P : Profile) (k : Nat) (v : Level) (x : Pins) (p : Nat) (hr : 1 ≤ p ∧ p ≤ zifPins) :
    PinFile.get ((roleDrive P k v).foldl Pins.apply x).lvl p =
      if translatePin P k = some p then v else PinFile.get x.lvl p := by
  unfold roleDrive
  cases h : translatePin P k with
  | none => simp
  | some q =>
    simp only [List.foldl_cons, List.foldl_nil, Pins.apply, PinFile.get_set, Option.some.injEq]
    by_cases hq : q = p
    · subst hq
      simp [hr]
    · simp [hq]

/-- A role's drive sets no direction. -/
theorem roleDrive_dir (P : Profile) (k : Nat) (v : Level) (x : Pins) :
    ((roleDrive P k v).foldl Pins.apply x).dir = x.dir := by
  unfold roleDrive
  cases translatePin P k <;> rfl

/-- A sample leaves the pins. -/
theorem roleSample_pins (P : Profile) (k : Nat) (v : Level) (x : Pins) :
    (roleSample P k v).foldl Pins.apply x = x := by
  unfold roleSample
  cases translatePin P k <;> rfl

/-- The three driven roles of a serial exchange have three different pins, as far as they have one. -/
structure RolesApart (P : Profile) : Prop where
  sckSdo : ∀ p, translatePin P (roleSck P) = some p → translatePin P (roleSdo P) ≠ some p
  sckXclk : ∀ p, translatePin P (roleSck P) = some p → translatePin P (roleXclk P) ≠ some p
  sdoXclk : ∀ p, translatePin P (roleSdo P) = some p → translatePin P (roleXclk P) ≠ some p
  rstSck : ∀ p, translatePin P (roleRst P) = some p → translatePin P (roleSck P) ≠ some p
  rstSdo : ∀ p, translatePin P (roleRst P) = some p → translatePin P (roleSdo P) ≠ some p
  rstXclk : ∀ p, translatePin P (roleRst P) = some p → translatePin P (roleXclk P) ≠ some p

/-- A well-formed profile keeps its roles apart (R146). -/
theorem wf_rolesApart (P : Profile) (hw : Profile.wf P = true) : RolesApart P := by
  have key : ∀ i j p, i ≠ j → translatePin P (nth P.addrPins i) = some p → translatePin P (nth P.addrPins j) ≠ some p :=
    fun i j p hij h1 h2 => hij (wf_addr_index P hw i j p h1 h2)
  exact ⟨fun p => key 0 1 p (by decide), fun p => key 0 3 p (by decide), fun p => key 1 3 p (by decide),
    fun p => key 2 0 p (by decide), fun p => key 2 1 p (by decide), fun p => key 2 3 p (by decide)⟩

/-- The levels one bit of an exchange leaves: SCK at 0, SDO at the bit, XCLK at 0 when a pulse has a cycle (R206). -/
theorem bit_lvl (P : Profile) (ha : RolesApart P) (c : Nat) (b l : Level) (x : Pins) (p : Nat)
    (hr : 1 ≤ p ∧ p ≤ zifPins) :
    PinFile.get ((bitEvents P c b l).foldl Pins.apply x).lvl p =
      if translatePin P (roleSck P) = some p then false
      else if translatePin P (roleSdo P) = some p then b
      else if translatePin P (roleXclk P) = some p ∧ 1 ≤ c then false else PinFile.get x.lvl p := by
  simp only [bitEvents, List.foldl_append, roleDrive_lvl P _ _ _ p hr, clock_lvl P _ _ p hr, roleSample_pins]
  have h1 := ha.sckSdo p
  have h2 := ha.sckXclk p
  have h3 := ha.sdoXclk p
  by_cases a : translatePin P (roleSck P) = some p
  · simp [a]
  · by_cases b : translatePin P (roleSdo P) = some p
    · simp [a, b, h3 b]
    · by_cases d : translatePin P (roleXclk P) = some p ∧ 1 ≤ c <;> simp [a, b, d]

/-- Bits of an exchange leave every level but SCK's, SDO's and, when a pulse has a cycle, XCLK's. -/
theorem bits_lvl_other (P : Profile) (ha : RolesApart P) (c : Nat) (zs : List (Level × Level)) (x : Pins) (p : Nat)
    (hr : 1 ≤ p ∧ p ≤ zifPins) (h1 : translatePin P (roleSck P) ≠ some p) (h2 : translatePin P (roleSdo P) ≠ some p)
    (h3 : ¬ (translatePin P (roleXclk P) = some p ∧ 1 ≤ c)) :
    PinFile.get ((zs.flatMap fun z => bitEvents P c z.1 z.2).foldl Pins.apply x).lvl p = PinFile.get x.lvl p := by
  induction zs generalizing x with
  | nil => rfl
  | cons z rest ih =>
    rw [List.flatMap_cons, List.foldl_append, ih, bit_lvl P ha c _ _ _ p hr, if_neg h1, if_neg h2, if_neg h3]

/-- The levels a byte exchange leaves (R206). -/
theorem xfer_lvl (P : Profile) (ha : RolesApart P) (c : Nat) (b r : Byte) (x : Pins) (p : Nat)
    (hr : 1 ≤ p ∧ p ≤ zifPins) :
    PinFile.get ((xferEvents P c b r).foldl Pins.apply x).lvl p =
      if translatePin P (roleSck P) = some p then false
      else if translatePin P (roleSdo P) = some p then b.getLsbD 0
      else if translatePin P (roleXclk P) = some p ∧ 1 ≤ c then false else PinFile.get x.lvl p := by
  have hz : (bitsMsbFirst b).zip (bitsMsbFirst r) = (bitsMsbFirst b).dropLast.zip (bitsMsbFirst r).dropLast ++
      [(b.getLsbD 0, r.getLsbD 0)] := rfl
  rw [xferEvents, hz, List.flatMap_append, List.foldl_append]
  simp only [List.flatMap_cons, List.flatMap_nil, List.append_nil]
  rw [bit_lvl P ha c _ _ _ p hr]
  by_cases h1 : translatePin P (roleSck P) = some p
  · rw [if_pos h1, if_pos h1]
  · by_cases h2 : translatePin P (roleSdo P) = some p
    · rw [if_neg h1, if_neg h1, if_pos h2, if_pos h2]
    · by_cases h3 : translatePin P (roleXclk P) = some p ∧ 1 ≤ c
      · rw [if_neg h1, if_neg h1, if_neg h2, if_neg h2, if_pos h3, if_pos h3]
      · rw [if_neg h1, if_neg h1, if_neg h2, if_neg h2, if_neg h3, if_neg h3]
        exact bits_lvl_other P ha c _ x p hr h1 h2 h3

/-- The levels a four-byte frame leaves (R100, R206). -/
theorem frame_lvl (P : Profile) (ha : RolesApart P) (c : Nat) (b0 b1 b2 b3 r0 r1 r2 r3 : Byte) (x : Pins) (p : Nat)
    (hr : 1 ≤ p ∧ p ≤ zifPins) :
    PinFile.get ((frameEvents P c b0 b1 b2 b3 r0 r1 r2 r3).foldl Pins.apply x).lvl p =
      if translatePin P (roleSck P) = some p then false
      else if translatePin P (roleSdo P) = some p then b3.getLsbD 0
      else if translatePin P (roleXclk P) = some p ∧ 1 ≤ c then false else PinFile.get x.lvl p := by
  simp only [frameEvents, List.foldl_append]
  rw [xfer_lvl P ha c b3 r3 _ p hr]
  by_cases h1 : translatePin P (roleSck P) = some p
  · rw [if_pos h1, if_pos h1]
  · by_cases h2 : translatePin P (roleSdo P) = some p
    · rw [if_neg h1, if_neg h1, if_pos h2, if_pos h2]
    · by_cases h3 : translatePin P (roleXclk P) = some p ∧ 1 ≤ c
      · rw [if_neg h1, if_neg h1, if_neg h2, if_neg h2, if_pos h3, if_pos h3]
      · rw [if_neg h1, if_neg h1, if_neg h2, if_neg h2, if_neg h3, if_neg h3]
        simp only [xfer_lvl P ha c _ _ _ p hr, if_neg h1, if_neg h2, if_neg h3]

/-- The pins an entry sequence leaves (R208, R211): SDI an input with its pull-up on, RST and SCK at 0, XCLK at 0 if it
was or a pulse has a cycle; every direction but SDI's and every level but the roles' as before. -/
theorem entry_pins (P : Profile) (hw : Profile.wf P = true) (cfg : Config) (e0 e1 e2 e3 : Byte) (x : Pins) (p : Nat)
    (hr : 1 ≤ p ∧ p ≤ zifPins) :
    let y := (entryEvents P cfg e0 e1 e2 e3).foldl Pins.apply x
    PinFile.get y.dir p = (if translatePin P (roleSdi P) = some p then false else PinFile.get x.dir p) ∧
    (translatePin P (roleSdi P) = some p → PinFile.get y.lvl p = true) ∧
    (translatePin P (roleSck P) = some p → PinFile.get y.lvl p = false) ∧
    (translatePin P (roleRst P) = some p → PinFile.get y.lvl p = false) ∧
    (translatePin P (roleXclk P) = some p → PinFile.get x.lvl p = false → PinFile.get y.lvl p = false) ∧
    (¬ IsPinOf P [roleSck P, roleSdo P, roleRst P, roleXclk P, roleSdi P] p →
      PinFile.get y.lvl p = PinFile.get x.lvl p) := by
  have ha := wf_rolesApart P hw
  obtain ⟨m1, m2, m3, m4, m5⟩ := role_mem P p
  have dA := (wf_disjoint P hw p).2.2.1
  have hsdi : ∀ q, q ∈ physPins P [roleSdi P] ↔ translatePin P (roleSdi P) = some q := by
    intro q
    rw [mem_physPins]
    exact ⟨fun ⟨k, hk, h⟩ => by rw [List.mem_singleton] at hk; rwa [← hk], fun h => ⟨_, List.mem_singleton_self _, h⟩⟩
  have hsr : ∀ q ∈ physPins P [roleSdi P], 1 ≤ q ∧ q ≤ zifPins := by
    intro q hq
    have h := (hsdi q).mp hq
    obtain ⟨k, hk, he⟩ := (role_mem P q).2.2.2.2 h
    exact wf_range P hw k q (by simp [allPins, hk]) he
  intro y
  have hd : PinFile.get y.dir p = (if translatePin P (roleSdi P) = some p then false else PinFile.get x.dir p) := by
    simp only [y, entryEvents, prepareEvents, List.foldl_append,
      serial_dir P _ (frameEvents_serial P _ _ _ _ _ _ _ _ _), (foldl_inEvents _ _ _ hsr p).1, hsdi,
      List.foldl_cons, List.foldl_nil, Pins.apply, clock_dir, roleDrive_dir]
  have hl : PinFile.get y.lvl p =
      (if translatePin P (roleSck P) = some p then false
      else if translatePin P (roleSdo P) = some p then cfg.ispHandshake[3].getLsbD 0
      else if translatePin P (roleXclk P) = some p ∧ 1 ≤ cfg.ispBitCycles then false
      else if translatePin P (roleSdi P) = some p then true
      else if translatePin P (roleXclk P) = some p ∧ 1 ≤ cfg.ispRstCycles then false
      else if translatePin P (roleRst P) = some p then false
      else PinFile.get x.lvl p) := by
    simp only [y, entryEvents, prepareEvents, List.foldl_append, frame_lvl P ha _ _ _ _ _ _ _ _ _ _ p hr,
      (foldl_inEvents _ _ _ hsr p).2, hsdi, List.foldl_cons, List.foldl_nil, Pins.apply, clock_lvl P _ _ p hr,
      roleDrive_lvl P _ _ _ p hr]
    by_cases h1 : translatePin P (roleSck P) = some p
    · simp [h1]
    · by_cases h2 : translatePin P (roleSdi P) = some p
      · simp [h1, h2]
      · by_cases h3 : translatePin P (roleXclk P) = some p ∧ 1 ≤ cfg.ispRstCycles
        · simp [h1, h2, h3]
        · by_cases h4 : translatePin P (roleRst P) = some p <;> simp [h1, h2, h3, h4]
  refine ⟨hd, ?_, ?_, ?_, ?_, ?_⟩
  · intro h
    have hA : ¬ IsPinOf P P.addrPins p := fun ha' => (dA ha').2.2 (m5 h)
    have n1 : translatePin P (roleSck P) ≠ some p := fun h' => hA (m1 h')
    have n2 : translatePin P (roleSdo P) ≠ some p := fun h' => hA (m2 h')
    have n4 : translatePin P (roleXclk P) ≠ some p := fun h' => hA (m4 h')
    rw [hl]
    simp [n1, n2, n4, h]
  · intro h
    rw [hl, if_pos h]
  · intro h
    have n1 := ha.rstSck p h
    have n2 := ha.rstSdo p h
    have n4 := ha.rstXclk p h
    have n5 : translatePin P (roleSdi P) ≠ some p := fun h' => (dA (m3 h)).2.2 (m5 h')
    rw [hl]
    simp [n1, n2, n4, n5, h]
  · intro h hx
    have n1 : translatePin P (roleSck P) ≠ some p := fun h' => ha.sckXclk p h' h
    have n2 : translatePin P (roleSdo P) ≠ some p := fun h' => ha.sdoXclk p h' h
    have n3 : translatePin P (roleRst P) ≠ some p := fun h' => ha.rstXclk p h' h
    have n5 : translatePin P (roleSdi P) ≠ some p := fun h' => (dA (m4 h)).2.2 (m5 h')
    rw [hl]
    simp [n1, n2, n3, n5, hx]
  · intro h
    have n : ∀ k, k ∈ [roleSck P, roleSdo P, roleRst P, roleXclk P, roleSdi P] → translatePin P k ≠ some p :=
      fun k hk h' => h ⟨k, hk, h'⟩
    have n1 := n (roleSck P) (by simp)
    have n2 := n (roleSdo P) (by simp)
    have n3 := n (roleRst P) (by simp)
    have n4 := n (roleXclk P) (by simp)
    have n5 := n (roleSdi P) (by simp)
    rw [hl]
    simp [n1, n2, n3, n4, n5]

end Sys2Proof.Machine
end

