-- ==== Sys2Proof/Laws/Encoding.lean ====
section
/-! SUPPORT. The fields of a request word (spec/30_encoding.md R83) and the zero check (R88). -/

namespace Sys2Proof

@[simp] theorem opField_reqWord (op : BitVec 8) (arg : Arg) : opField (reqWord op arg) = op := by
  apply BitVec.eq_of_getLsbD_eq
  intro i hi
  simp only [opField, reqWord, BitVec.getLsbD_extractLsb', BitVec.getLsbD_append]
  simp [hi]

@[simp] theorem argField_reqWord (op : BitVec 8) (arg : Arg) : argField (reqWord op arg) = arg := by
  apply BitVec.eq_of_getLsbD_eq
  intro i hi
  simp only [argField, reqWord, BitVec.getLsbD_extractLsb', BitVec.getLsbD_append]
  simp [hi]

/-- A word is its two fields. -/
theorem reqWord_fields (w : ReqWord) : reqWord (opField w) (argField w) = w := by
  apply BitVec.eq_of_getLsbD_eq
  intro i hi
  simp only [opField, argField, reqWord, BitVec.getLsbD_extractLsb', BitVec.getLsbD_append]
  by_cases h : i < 32
  · simp [h]
  · have : i - 32 < 8 := by omega
    simp [h, this, show 32 + (i - 32) = i by omega]

/-- What the zero check accepts (R88). -/
theorem zeroChecked_ok (n : Nat) (arg : Arg) (i j : Instr) :
    zeroChecked n arg i = .ok j ↔ arg.toNat < 2 ^ n ∧ i = j := by
  unfold zeroChecked upperZero
  by_cases h : arg.toNat < 2 ^ n <;> simp [h]

end Sys2Proof
end

