-- ==== Sys2Proof/Laws/Keep.lean ====
section
/-! SUPPORT. What a proof that a request keeps an invariant needs: pins outside the socket, states alike, and the pin
conditions of a configured socket carried from one state to the next. -/

namespace Sys2Proof.Machine

/-- Outside 1..40 there is no pin: both bits read 0 (spec/20_memory.md R51). -/
theorem outside_socket (s : State) (p : Nat) (h : ¬ (1 ≤ p ∧ p ≤ zifPins)) : s.dirOf p = false ∧ s.lvlOf p = false := by
  have : p = 0 ∨ zifPins < p := by simp only [zifPins] at *; omega
  exact ⟨PinFile.get_outside _ _ this, PinFile.get_outside _ _ this⟩

/-- The pins after reset are undriven. -/
theorem undriven_of_pins (s : State) (h : s.pins = Pins.reset) : Undriven s := by
  intro p
  have h1 : s.dir = Pins.reset.dir := congrArg Pins.dir h
  have h2 : s.lvl = Pins.reset.lvl := congrArg Pins.lvl h
  constructor
  · show PinFile.get s.dir p = false
    rw [h1]
    exact PinFile.get_replicate p
  · show PinFile.get s.lvl p = false
    rw [h2]
    exact PinFile.get_replicate p

/-- The pins of a list of a well-formed profile are pins of the socket. -/
theorem isPinOf_range (P : Profile) (hw : Profile.wf P = true) (L : List Nat) (hL : ∀ k ∈ L, k ∈ allPins P) (p : Nat)
    (hp : IsPinOf P L p) : 1 ≤ p ∧ p ≤ zifPins := by
  obtain ⟨k, hk, e⟩ := hp
  exact wf_range P hw k p (hL k hk) e

/-- A pin of neither the address nor the data list is the pin of no role. -/
theorem not_role (P : Profile) (p : Nat) (h1 : ¬ IsPinOf P P.addrPins p) (h2 : ¬ IsPinOf P P.dataPins p) :
    ¬ IsPinOf P [roleSck P, roleSdo P, roleRst P, roleXclk P, roleSdi P] p := by
  rintro ⟨k, hk, e⟩
  obtain ⟨m1, m2, m3, m4, m5⟩ := role_mem P p
  simp only [List.mem_cons, List.not_mem_nil, or_false] at hk
  rcases hk with rfl | rfl | rfl | rfl | rfl
  · exact h1 (m1 e)
  · exact h1 (m2 e)
  · exact h1 (m3 e)
  · exact h1 (m4 e)
  · exact h2 (m5 e)

/-- A parallel read drives address pins only (R181). -/
theorem read_lvl_untouched (P : Profile) (a : Arg) (p : Nat) (x : Pins) (h : ¬ IsPinOf P P.addrPins p)
    (es : List Event) (ho : OnlySamples P es) :
    PinFile.get ((addressEvents P a ++ [Event.dly .prop] ++ es).foldl Pins.apply x).lvl p = PinFile.get x.lvl p := by
  apply foldl_lvl_untouched
  intro l hl
  simp only [List.mem_append, List.mem_singleton] at hl
  rcases hl with (hl | hl) | hl
  · simp only [addressEvents, List.mem_flatMap, mem_roleDrive] at hl
    obtain ⟨z, hz, q, hq, e⟩ := hl
    cases e
    exact h ⟨z.1, by have := List.mem_zipIdx' hz; rw [this.2]; simp, hq⟩
  · cases hl
  · obtain ⟨_, _, _, _, _, e⟩ := ho _ hl
    cases e

/-- A parallel read sets no direction (R181). -/
theorem read_dir (P : Profile) (a : Arg) (x : Pins) (es : List Event) (ho : OnlySamples P es) :
    ((addressEvents P a ++ [Event.dly .prop] ++ es).foldl Pins.apply x).dir = x.dir := by
  apply foldl_dir_none
  intro p l hl
  simp only [List.mem_append, List.mem_singleton] at hl
  rcases hl with (hl | hl) | hl
  · simp only [addressEvents, List.mem_flatMap, mem_roleDrive] at hl
    obtain ⟨z, hz, q, hq, e⟩ := hl
    cases e
  · cases hl
  · obtain ⟨_, _, _, _, _, e⟩ := ho _ hl
    cases e

/-- The pins of a configured ISP socket are kept by whatever leaves SCK, RST and XCLK low, SDI an input with its
pull-up, and every pin of no role alone. -/
theorem ispPins_keep (P : Profile) (hw : Profile.wf P = true) (s t : State) (hs : IspPins P s)
    (hd : ∀ p, t.dirOf p = if translatePin P (roleSdi P) = some p then false else s.dirOf p)
    (h1 : ∀ p, translatePin P (roleSck P) = some p → t.lvlOf p = false)
    (h2 : ∀ p, translatePin P (roleRst P) = some p → t.lvlOf p = false)
    (h3 : ∀ p, translatePin P (roleXclk P) = some p → t.lvlOf p = false)
    (h4 : ∀ p, translatePin P (roleSdi P) = some p → t.lvlOf p = true)
    (h5 : ∀ p, ¬ IsPinOf P [roleSck P, roleSdo P, roleRst P, roleXclk P, roleSdi P] p → t.lvlOf p = s.lvlOf p) :
    IspPins P t := by
  obtain ⟨x1, x2, x3, x4, x5, x6, x7, x8⟩ := hs
  have nd : ∀ p, ¬ IsPinOf P P.dataPins p → t.dirOf p = s.dirOf p := fun p h => by
    rw [hd, if_neg (fun h' => h ((role_mem P p).2.2.2.2 h'))]
  constructor
  · intro p hp
    have dj := (wf_disjoint P hw p).1 hp
    rw [nd p dj.2.2, h5 p (not_role P p dj.2.1 dj.2.2)]
    exact x1 p hp
  · intro p hp
    have dj := (wf_disjoint P hw p).2.1 hp
    rw [nd p dj.2.2, h5 p (not_role P p dj.2.1 dj.2.2)]
    exact x2 p hp
  · intro p hp
    have dj := (wf_disjoint P hw p).2.2.1 ((role_mem P p).1 hp)
    rw [nd p dj.2.2, h1 p hp]
    exact ⟨(x3 p hp).1, rfl⟩
  · intro p hp
    have dj := (wf_disjoint P hw p).2.2.1 ((role_mem P p).2.1 hp)
    rw [nd p dj.2.2]
    exact x4 p hp
  · intro p hp
    have dj := (wf_disjoint P hw p).2.2.1 ((role_mem P p).2.2.1 hp)
    rw [nd p dj.2.2, h2 p hp]
    exact ⟨(x5 p hp).1, rfl⟩
  · intro p hp
    have dj := (wf_disjoint P hw p).2.2.1 ((role_mem P p).2.2.2.1 hp)
    rw [nd p dj.2.2, h3 p hp]
    exact ⟨(x6 p hp).1, rfl⟩
  · intro p hp
    rw [hd, if_pos hp, h4 p hp]
    exact ⟨rfl, rfl⟩
  · intro p hp
    have hp' := hp
    rw [isPinOf_all] at hp'
    simp only [not_or] at hp'
    rw [nd p hp'.2.2.2, h5 p (not_role P p hp'.2.2.1 hp'.2.2.2)]
    exact x8 p hp

/-- The invariant reads only `st`, `sel`, the pins and the parameters. -/
theorem inv_congr (s t : State) (h : Inv s) (h1 : t.st = s.st) (h2 : t.sel = s.sel) (h3 : t.cfg = s.cfg)
    (h4 : t.dir = s.dir) (h5 : t.lvl = s.lvl) : Inv t := by
  have hp : t.profile? = s.profile? := by simp [State.profile?, h2, h3]
  have hd : ∀ p, t.dirOf p = s.dirOf p := fun p => congrArg (PinFile.get · p) h4
  have hl : ∀ p, t.lvlOf p = s.lvlOf p := fun p => congrArg (PinFile.get · p) h5
  constructor
  · rw [h3]; exact h.params
  · rw [h2, h3]; exact h.selBound
  · rw [h1]; exact h.boundary
  · rw [h1]; intro a p; rw [hd, hl]; exact h.safe a p
  · rw [h1, hp]; exact h.faultedIsp
  · rw [h1, hp]; exact h.noLatch
  · rw [h1, hp]
    intro a P b c
    obtain ⟨x1, x2, x3, x4, x5⟩ := h.parallel a P b c
    constructor <;> intro p hp <;> simp only [hd, hl]
    · exact x1 p hp
    · exact x2 p hp
    · exact x3 p hp
    · exact x4 p hp
    · exact x5 p hp
  · rw [h1, hp]
    intro a P b c
    obtain ⟨x1, x2, x3, x4, x5, x6, x7, x8⟩ := h.isp a P b c
    constructor <;> intro p hp <;> simp only [hd, hl]
    · exact x1 p hp
    · exact x2 p hp
    · exact x3 p hp
    · exact x4 p hp
    · exact x5 p hp
    · exact x6 p hp
    · exact x7 p hp
    · exact x8 p hp

end Sys2Proof.Machine
end

