-- ==== Sys2Proof/Laws/Levels.lean ====
section
/-! SUPPORT. Event sequences without the levels a target answered: what they do to the pins, and that an exchange's
sequence does not depend on the bytes received (spec/20_memory.md R66). -/

namespace Sys2Proof.Machine

/-- The pins do not depend on the levels sampled. -/
theorem foldl_withoutLevel (es : List Event) (x : Pins) :
    (es.map withoutLevel).foldl Pins.apply x = es.foldl Pins.apply x := by
  induction es generalizing x with
  | nil => rfl
  | cons e rest ih =>
    rw [List.map_cons, List.foldl_cons, List.foldl_cons, ih]
    cases e <;> rfl

/-- Sequences alike but for the levels sampled leave the same pins. -/
theorem foldl_of_withoutLevel (es fs : List Event) (h : es.map withoutLevel = fs.map withoutLevel) (x : Pins) :
    es.foldl Pins.apply x = fs.foldl Pins.apply x := by
  rw [← foldl_withoutLevel es, h, foldl_withoutLevel]

/-- Sequences alike but for the levels sampled have the same calls and delays. -/
theorem filter_of_withoutLevel (es fs : List Event) (h : es.map withoutLevel = fs.map withoutLevel) :
    es.filter notSample = fs.filter notSample := by
  have key : ∀ es : List Event, es.filter notSample = (es.map withoutLevel).filter notSample := by
    intro es
    induction es with
    | nil => rfl
    | cons e rest ih => cases e <;> simp [withoutLevel, notSample, List.filter_cons, ih]
  rw [key es, key fs, h]

/-- One bit of an exchange, whatever level is sampled. -/
theorem bitEvents_withoutLevel (P : Profile) (c : Nat) (b l l' : Level) :
    (bitEvents P c b l).map withoutLevel = (bitEvents P c b l').map withoutLevel := by
  simp only [bitEvents, List.map_append, roleSample]
  cases translatePin P (roleSdi P) <;> rfl

/-- One byte of an exchange, whatever byte is received. -/
theorem xferEvents_withoutLevel (P : Profile) (c : Nat) (b r r' : Byte) :
    (xferEvents P c b r).map withoutLevel = (xferEvents P c b r').map withoutLevel := by
  simp only [xferEvents, bitsMsbFirst, List.zip_cons_cons, List.zip_nil_right, List.flatMap_cons, List.map_append,
    List.flatMap_nil]
  simp only [bitEvents_withoutLevel P c _ _ false]

/-- A frame, whatever bytes are received. -/
theorem frameEvents_withoutLevel (P : Profile) (c : Nat) (b0 b1 b2 b3 r0 r1 r2 r3 q0 q1 q2 q3 : Byte) :
    (frameEvents P c b0 b1 b2 b3 r0 r1 r2 r3).map withoutLevel =
      (frameEvents P c b0 b1 b2 b3 q0 q1 q2 q3).map withoutLevel := by
  simp only [frameEvents, List.map_append, xferEvents_withoutLevel P c b0 r0 q0, xferEvents_withoutLevel P c b1 r1 q1,
    xferEvents_withoutLevel P c b2 r2 q2, xferEvents_withoutLevel P c b3 r3 q3]

/-- An entry sequence, whatever is echoed. -/
theorem entryEvents_withoutLevel (P : Profile) (cfg : Config) (e0 e1 e2 e3 f0 f1 f2 f3 : Byte) :
    (entryEvents P cfg e0 e1 e2 e3).map withoutLevel = (entryEvents P cfg f0 f1 f2 f3).map withoutLevel := by
  simp only [entryEvents, List.map_append]
  rw [frameEvents_withoutLevel]

end Sys2Proof.Machine
end

