-- ==== Sys2Proof/Laws/PerInstr.lean ====
section
/-! SUPPORT. Statements for all requests as syntax, one lemma per constructor. -/

namespace Sys2Proof.Laws.EncodeSelectsRow

/-- A request's word selects the row of its mnemonic in the operation map (spec/30_encoding.md R85). -/
def Statement (i : Instr) : Prop := ∃ r ∈ opTable, r.mnemonic = i.mnemonic ∧ r.selects (encode i) = true

/-- A word's field-wise `and` with a mask. -/
theorem and_reqWord (op m : BitVec 8) (arg a : Arg) : reqWord op arg &&& reqWord m a = reqWord (op &&& m) (arg &&& a) := by
  apply BitVec.eq_of_getLsbD_eq
  intro i hi
  simp only [reqWord, BitVec.getLsbD_and, BitVec.getLsbD_append]
  split <;> rfl

/-- An operand of at most `n` bits has no bit under a mask of the bits above. -/
theorem and_eq_zero (x m : Arg) (n : Nat) (hx : x.toNat < 2 ^ n) (hm : ∀ i, i < n → m.getLsbD i = false) :
    x &&& m = 0 := by
  apply BitVec.eq_of_getLsbD_eq
  intro i hi
  by_cases h : i < n
  · simp [BitVec.getLsbD_and, hm i h]
  · have : x.getLsbD i = false := by
      apply Nat.testBit_lt_two_pow
      exact Nat.lt_of_lt_of_le hx (Nat.pow_le_pow_right (by decide) (Nat.le_of_not_lt h))
    simp [BitVec.getLsbD_and, this]

/-- A row selects the word when its mask keeps the operation code and no bit of the operand. -/
theorem selects_of (mn : String) (op m : BitVec 8) (arg a : Arg) (h1 : op &&& m = op) (h2 : arg &&& a = 0) :
    (OpRow.mk mn (reqWord m a) (reqWord op 0)).selects (reqWord op arg) = true := by
  simp [OpRow.selects, and_reqWord, h1, h2]

theorem tristate : Statement .tristate := ⟨opTable[0], by decide, rfl, by decide⟩

theorem select (idx : Nat) : Statement (.select idx) :=
  ⟨opTable[1], by decide, rfl, selects_of "SELECT" 0x01#8 0xFF#8 _ 0#32 (by decide) (by simp)⟩

theorem setup : Statement .setup := ⟨opTable[2], by decide, rfl, by decide⟩

theorem read (addr : Arg) : Statement (.read addr) :=
  ⟨opTable[3], by decide, rfl, selects_of "READ" 0x03#8 0xFF#8 _ 0#32 (by decide) (by simp)⟩

theorem ispProbe : Statement .ispProbe := ⟨opTable[4], by decide, rfl, by decide⟩

theorem ispXfer (byte : Byte) : Statement (.ispXfer byte) :=
  ⟨opTable[5], by decide, rfl, selects_of "ISP_XFER" 0x05#8 0xFF#8 _ 0xFFFFFF00#32 (by decide)
    (and_eq_zero _ _ 8 (by simpa [Instr.arg] using Nat.lt_of_le_of_lt (Nat.mod_le _ _) byte.isLt) (by decide))⟩

theorem ispClock (n : Nat) : Statement (.ispClock n) :=
  ⟨opTable[6], by decide, rfl, selects_of "ISP_CLOCK" 0x06#8 0xFF#8 _ 0xFFFF0000#32 (by decide)
    (and_eq_zero _ _ 16 (by simp [Instr.arg]; omega) (by decide))⟩

theorem xlate (k : Nat) : Statement (.xlate k) :=
  ⟨opTable[7], by decide, rfl, selects_of "XLATE" 0x07#8 0xFF#8 _ 0xFFFFFF00#32 (by decide)
    (and_eq_zero _ _ 8 (by simp [Instr.arg]; omega) (by decide))⟩

end Sys2Proof.Laws.EncodeSelectsRow
end

