-- ==== Sys2Proof/Tests/Slice0.lean ====
section
/-! SUPPORT. Tests of the model and a witness for every statement with hypotheses. The expected results are the spec's own:
its operation map (R85), its worked examples, and its vectors V1 to V50 (spec/95_test_vectors.md), which the spec made
by a reference run of its own pseudocode. -/

namespace Sys2Proof.Tests

open Sys2Proof Sys2Proof.Machine

/-! ## Helpers -/

/-- A block built with the vectors' parameters, in the given state, profile `sel` active, `tgt` seated. -/
def bench (st : SeqState) (sel : Nat) (tgt : Target) : State :=
  { State.resetWith Config.standard tgt with st := st, sel := sel }

/-- A pin file with the listed pins at 1. -/
def onPins (ps : List Nat) : PinFile := ps.foldl (fun f p => PinFile.set f p true) (Vector.replicate zifPins false)

/-- A state with the outputs and the latches at 1 as listed. -/
def wired (s : State) (outputs latches : List Nat) : State := { s with dir := onPins outputs, lvl := onPins latches }

/-- The responses of a step; none where it stops. -/
def answers (o : Out) : List Response :=
  match o with
  | .next t => t.responses
  | .fault _ => []
  | .refused _ => []

/-- The trace after a step. -/
def traceOf (o : Out) : List Event :=
  match o with
  | .next t => t.trace
  | .fault _ => []
  | .refused _ => []

/-- The registers after a step. -/
def regsOf (o : Out) : Option Registers :=
  match o with
  | .next t => some t.registers
  | .fault _ => none
  | .refused _ => none

/-- The `refused` mark after a step. -/
def markOf (o : Out) : Option Bool :=
  match o with
  | .next t => some t.refused
  | .fault _ => none
  | .refused _ => none

/-- F28 set up with an ideal ROM seated: the pins are those of V21. -/
def readyF28 (m : Memory) : State :=
  wired (bench .ready 1 (.idealRom m)) [1, 2, 3, 4, 5, 6, 7, 8, 9, 10, 14, 32, 33, 34, 35, 36, 37, 38, 39, 40] [1, 40]

/-- FISP20 after an entry sequence, in `Ready` or `Faulted`, with a scripted target: the pins are those of V40 and V42. -/
def enteredIsp (st : SeqState) (bytes : List Byte) : State :=
  wired (bench st 3 (ispScript bytes)) [1, 5, 10, 37, 39, 40] [38, 40]

/-! ## Well-formedness: the checks refuse ill-formed requests, and ill-formed parameters are refused at launch -/

theorem test_wf_select : (Instr.select (2 ^ 32)).wellFormed = false ∧ (Instr.select (2 ^ 32 - 1)).wellFormed = true := by decide
theorem test_wf_ispClock : (Instr.ispClock 65536).wellFormed = false ∧ (Instr.ispClock 65535).wellFormed = true := by decide
theorem test_wf_xlate : (Instr.xlate 256).wellFormed = false ∧ (Instr.xlate 255).wellFormed = true := by decide

/-- All six fixture profiles pass W1 to W7 (95 section 2); the constants meet R10 and R186. -/
theorem test_wf_standard : configWf Config.standard = true := by decide

/-- W1 (R142): no profile of 41 pins, nor of none. -/
theorem test_w1 : Profile.w1 { Config.f28 with pins := 41 } = false ∧ Profile.w1 { Config.f28 with pins := 0 } = false := by
  decide
/-- W2 (R143): no entry above `pins`. -/
theorem test_w2 : Profile.w2 { Config.f28 with hiPins := [29] } = false := by decide
/-- W3 (R144): no address pin is also a fixed pin. -/
theorem test_w3 : Profile.w3 { Config.f28 with loPins := [14, 10] } = false := by decide
/-- W4 (R145): no used entry at an index `>= addr_width`; at most 32 entries. -/
theorem test_w4 : Profile.w4 { Config.f28 with addrWidth := 14 } = false ∧
    Profile.fieldsOk { Config.f28 with addrPins := List.replicate 33 0 } = false := by decide
/-- W5 (R146): no pin twice. -/
theorem test_w5 : Profile.w5 { Config.f28 with hiPins := [28, 28] } = false := by decide
/-- W6 (R147): at most 8 data bits, the reserved option bits zero, one data slot in an ISP profile. -/
theorem test_w6 : Profile.w6 { Config.f28 with dataWidth := 9 } = false ∧
    Profile.w6 { Config.f28 with options := 0x04#8 } = false ∧
    Profile.w6 { Config.fisp20 with dataPins := [18, 11] } = false := by decide
/-- W7 (R148) and R149: a catalog without the safe profile at index 0, or with none at all, is refused at launch. -/
theorem test_w7 : catalogWf [Config.f28] = false ∧ catalogWf [] = false ∧
    launch { Config.standard with catalog := [Config.f28] } (.free 0) = none := by decide

/-! ## Decoding: words written out from R83 to R85 -/

theorem test_decode_tristate : decode 0x0000000000#40 = .ok .tristate := by decide
theorem test_decode_select : decode 0x0100000001#40 = .ok (.select 1) := by decide
theorem test_decode_setup : decode 0x0200000000#40 = .ok .setup := by decide
theorem test_decode_read : decode 0x0300004000#40 = .ok (.read 0x4000#32) := by decide
theorem test_decode_ispProbe : decode 0x0400000000#40 = .ok .ispProbe := by decide
theorem test_decode_ispXfer : decode 0x05000000FF#40 = .ok (.ispXfer 0xFF#8) := by decide
theorem test_decode_ispClock : decode 0x0600000003#40 = .ok (.ispClock 3) := by decide
theorem test_decode_xlate : decode 0x070000000F#40 = .ok (.xlate 15) := by decide
/-- V10: reserved operations and must-be-zero bits. -/
theorem test_decode_illegal : decode 0x0800000000#40 = .error (.reservedOp 0x08#8) ∧
    decode 0xFF12345678#40 = .error (.reservedOp 0xFF#8) ∧ decode 0x8000000000#40 = .error (.reservedOp 0x80#8) ∧
    decode 0x0000000001#40 = .error (.mustBeZero "TRISTATE" 1#32) ∧
    decode 0x0200000001#40 = .error (.mustBeZero "SETUP" 1#32) ∧
    decode 0x0400000001#40 = .error (.mustBeZero "ISP_PROBE" 1#32) ∧
    decode 0x0500000100#40 = .error (.mustBeZero "ISP_XFER" 0x100#32) ∧
    decode 0x0600010000#40 = .error (.mustBeZero "ISP_CLOCK" 0x10000#32) ∧
    decode 0x0700000100#40 = .error (.mustBeZero "XLATE" 0x100#32) := by decide
/-- The opcode table's numbering: one 40-bit word, bit 0 the least significant. -/
theorem test_decodeTableWord : decodeTableWord 40 0x0300001234 = some (.read 0x1234#32) ∧
    decodeTableWord 40 0x0900000000 = none := by decide

/-! ## The translator -/

/-- V1, the rows of 28, 16 and 39 pins. -/
theorem test_translate_rows :
    (List.range 28).map (fun i => translatePin Config.f28 (i + 1)) =
      [1, 2, 3, 4, 5, 6, 7, 8, 9, 10, 11, 12, 13, 14, 27, 28, 29, 30, 31, 32, 33, 34, 35, 36, 37, 38, 39, 40].map some ∧
    (List.range 16).map (fun i => translatePin Config.f16 (i + 1)) =
      [1, 2, 3, 4, 5, 6, 7, 8, 33, 34, 35, 36, 37, 38, 39, 40].map some ∧
    translatePin { Config.f28 with pins := 39 } 19 = some 19 ∧ translatePin { Config.f28 with pins := 39 } 20 = some 21 := by
  decide
/-- V2, the corner cases: one pin, odd counts, the sentinel. -/
theorem test_translate_corners : translatePin { Config.f28 with pins := 1 } 1 = some 40 ∧
    translatePin { Config.f28 with pins := 2 } 1 = some 1 ∧ translatePin { Config.f28 with pins := 3 } 1 = some 1 ∧
    translatePin { Config.f28 with pins := 3 } 2 = some 39 ∧ translatePin { Config.f28 with pins := 40 } 20 = some 20 ∧
    translatePin { Config.f28 with pins := 40 } 21 = some 21 ∧ translatePin Config.f28 0 = none := by decide
/-- R26: the four meanings of a pin. -/
theorem test_pin_roles : (wired State.reset [1, 2] [2, 3]).pinRole 1 = .outputLow ∧
    (wired State.reset [1, 2] [2, 3]).pinRole 2 = .outputHigh ∧
    (wired State.reset [1, 2] [2, 3]).pinRole 3 = .inputWithPullup ∧
    (wired State.reset [1, 2] [2, 3]).pinRole 40 = .undrivenInput := by decide

/-! ## The requests, against the vectors -/

/-- V3: `XLATE 15` of a 28-pin profile is 27; it writes no register and appends nothing. -/
theorem test_xlate : answers (exec (.xlate 15) (bench .tristate 1 (.free 0))) = [⟨.ok, 0x1B#32⟩] ∧
    traceOf (exec (.xlate 15) (bench .tristate 1 (.free 0))) = [] := by decide
/-- V3: the last pin, one above it, and the unused pin. -/
theorem test_xlate_edges : answers (exec (.xlate 28) (bench .ready 1 (.free 0))) = [⟨.ok, 40#32⟩] ∧
    answers (exec (.xlate 29) (bench .ready 1 (.free 0))) = [⟨.errRange, 0#32⟩] ∧
    answers (exec (.xlate 0) (bench .faulted 3 (.free 0))) = [⟨.ok, 0#32⟩] := by decide

/-- V10: `SELECT 5`. -/
theorem test_select : answers (exec (.select 5) State.reset) = [⟨.ok, 0#32⟩] ∧
    regsOf (exec (.select 5) State.reset) = some { State.reset.registers with sel := 5 } := by decide
/-- V10, V15, V50: the range check is exact and unsigned, and the state check comes first. -/
theorem test_select_refused : answers (exec (.select 6) State.reset) = [⟨.errRange, 0#32⟩] ∧
    answers (exec (.select 0xFFFFFFFF) State.reset) = [⟨.errRange, 0#32⟩] ∧
    answers (exec (.select 99) (bench .ready 1 (.free 0))) = [⟨.errState, 0#32⟩] := by decide

/-- V21: the trace of SETUP of F28, in physical pins: each output `Drv(p,l) Dir(p,1)`, each input `Dir(p,0) Drv(p,0)`. -/
def traceV21 : List Event :=
  List.flatten [[14, 32, 34].flatMap (fun p => [Event.drv p false, Event.dir p true]),
    [40, 1].flatMap (fun p => [Event.drv p true, Event.dir p true]),
    [10, 9, 8, 7, 6, 5, 4, 3, 37, 36, 33, 35, 2, 38, 39].flatMap (fun p => [Event.drv p false, Event.dir p true]),
    [11, 12, 13, 27, 28, 29, 30, 31].flatMap (fun p => [Event.dir p false, Event.drv p false]), [Event.dly .settle]]
/-- V21: SETUP of F28, the whole trace. -/
theorem test_setup_f28 : traceOf (exec .setup (bench .tristate 1 (.free 0))) = traceV21 ∧ traceV21.length = 57 := by
  decide +kernel
/-- V21, V15, V22: the pins SETUP of F28 leaves; the latch profile is refused and marked; the safe profile. -/
theorem test_setup_outcomes : regsOf (exec .setup (bench .tristate 1 (.free 0))) = some (readyF28 []).registers ∧
    answers (exec .setup (bench .tristate 4 (.free 0))) = [⟨.errUnsup, 0#32⟩] ∧
    markOf (exec .setup (bench .tristate 4 (.free 0))) = some true ∧
    traceOf (exec .setup State.reset) = [.dly .settle] := by decide +kernel

/-- V23: TRISTATE from Ready (F28): the pins of reset, `sel` kept, 80 events. -/
theorem test_tristate : regsOf (exec .tristate (readyF28 [])) = some { State.reset.registers with sel := 1 } ∧
    (traceOf (exec .tristate (readyF28 []))).length = 80 ∧
    (traceOf (exec .tristate (readyF28 []))).take 4 = [.dir 1 false, .drv 1 false, .dir 2 false, .drv 2 false] ∧
    (traceOf (exec .tristate (readyF28 []))).drop 78 = [.dir 40 false, .drv 40 false] := by decide +kernel

/-- V30: the trace of READ 0x4000 on F28: 15 drives, the delay, two passes that read 0x03. -/
def traceV30 : List Event :=
  List.flatten [[10, 9, 8, 7, 6, 5, 4, 3, 37, 36, 33, 35, 2, 38].map (fun p => Event.drv p false),
    [Event.drv 39 true, Event.dly .prop], [11, 12].map (fun p => Event.smp p true),
    [13, 27, 28, 29, 30, 31].map (fun p => Event.smp p false), [11, 12].map (fun p => Event.smp p true),
    [13, 27, 28, 29, 30, 31].map (fun p => Event.smp p false)]
/-- V30 (the source's scenario S7): READ 0x4000 of an ideal ROM with `M(0x4000) = 0x03`: the whole trace and the byte. -/
theorem test_read_f28 : traceOf (exec (.read 0x4000#32) (readyF28 [(0x4000, 0x03#8)])) = traceV30 ∧
    answers (exec (.read 0x4000#32) (readyF28 [(0x4000, 0x03#8)])) = [⟨.ok, 0x03#32⟩] := by decide +kernel
/-- V33 and V36: a 4-bit bus is left-justified; an unused data entry counts as 0 and still shifts. -/
theorem test_read_narrow :
    answers (exec (.read 0xA5#32) (bench .ready 5 (.script [true, true, false, true, true, true, false, true]))) =
      [⟨.ok, 0xB0#32⟩] ∧
    (sampleByte { Config.f16 with dataPins := [1, 2, 3, 4, 5, 6, 7, 0] }
      (bench .ready 2 (.script [true, true, true, true, true, true, true]))).1 = 0x7F#8 := by decide +kernel

/-- V43: ISP_XFER 0xFF, the target shifts out 0xC3: the byte, 96 events, SDO driven to 1 eight times, the samples. -/
theorem test_ispXfer : answers (exec (.ispXfer 0xFF#8) (enteredIsp .ready [0xC3#8])) = [⟨.ok, 0xC3#32⟩] ∧
    (traceOf (exec (.ispXfer 0xFF#8) (enteredIsp .ready [0xC3#8]))).length = 96 ∧
    (traceOf (exec (.ispXfer 0xFF#8) (enteredIsp .ready [0xC3#8]))).filter (fun e => e == .drv 37 true || e == .drv 37 false) =
      List.replicate 8 (.drv 37 true) := by decide +kernel
/-- V40: the first bit of a handshake byte 0xAC, in order. -/
theorem test_ispXfer_bit : (traceOf (exec (.ispXfer 0xAC#8) (enteredIsp .faulted [0x00#8]))).take 12 =
    [.drv 37 true, .drv 5 true, .dly .ispEdge, .drv 5 false, .dly .ispEdge, .drv 39 true, .drv 5 true, .dly .ispEdge,
     .drv 5 false, .dly .ispEdge, .smp 38 false, .drv 39 false] := by decide +kernel

/-- V44: ISP_CLOCK 3, and ISP_CLOCK 0. -/
theorem test_ispClock : traceOf (exec (.ispClock 3) (enteredIsp .ready [])) =
    [.drv 5 true, .dly .ispEdge, .drv 5 false, .dly .ispEdge, .drv 5 true, .dly .ispEdge, .drv 5 false, .dly .ispEdge,
     .drv 5 true, .dly .ispEdge, .drv 5 false, .dly .ispEdge] ∧
    traceOf (exec (.ispClock 0) (enteredIsp .ready [])) = [] ∧
    answers (exec (.ispClock 0) (enteredIsp .ready [])) = [⟨.ok, 0#32⟩] := by decide
/-- V15: ISP requests with a parallel profile, or in `Tristate`. -/
theorem test_isp_refused : answers (exec (.ispClock 0) (bench .ready 1 (.free 0))) = [⟨.errState, 0#32⟩] ∧
    answers (exec (.ispXfer 1#8) State.reset) = [⟨.errState, 0#32⟩] ∧
    answers (exec .ispProbe (bench .tristate 3 (.free 0))) = [⟨.errState, 0#32⟩] := by decide

/-- V45 and program P3: a probe that fails from `Ready`, with the command mirrored: `ISP_FAIL`, the echoes, `Faulted`,
406 events. -/
theorem test_ispProbe : answers (exec .ispProbe (enteredIsp .ready [0xAC#8, 0x53#8, 0x00#8, 0x00#8])) =
      [⟨.ispFail, 0xAC530000#32⟩] ∧
    (regsOf (exec .ispProbe (enteredIsp .ready [0xAC#8, 0x53#8, 0x00#8, 0x00#8]))).map (fun r => r.st) = some .faulted ∧
    (traceOf (exec .ispProbe (enteredIsp .ready [0xAC#8, 0x53#8, 0x00#8, 0x00#8]))).length = 406 := by decide +kernel
/-- V45: only the third echo is tested. -/
theorem test_third_echo_decides :
    (ispConclude ⟨0x12#8, 0x34#8, 0x53#8, 0x78#8⟩ State.reset).responses = [⟨.ok, 0x12345378#32⟩] ∧
    (ispConclude ⟨0x12#8, 0x34#8, 0x53#8, 0x78#8⟩ State.reset).st = .ready ∧
    (ispConclude ⟨0x53#8, 0x53#8, 0x00#8, 0x53#8⟩ State.reset).st = .faulted := by decide
/-- V40: the entry sequence up to the pull-up. -/
theorem test_entry_prefix : (ispPrepare Config.fisp20 (enteredIsp .ready [])).trace =
    [.drv 39 false, .drv 1 true, .drv 5 true, .dly .ispEdge, .drv 5 false, .dly .ispEdge, .drv 5 true, .dly .ispEdge,
     .drv 5 false, .dly .ispEdge, .drv 1 false, .drv 5 true, .dly .ispEdge, .drv 5 false, .dly .ispEdge, .drv 5 true,
     .dly .ispEdge, .drv 5 false, .dly .ispEdge, .dly .ispSettle, .dir 38 false, .drv 38 true] := by decide
/-- V46: the frames of 0x1FFF, 0x0234 and 0xFFFFFFFF. -/
theorem test_isp_frames : readOpcode Config.standard 0x1FFF#32 = 0x28#8 ∧ readMiddle 0x1FFF#32 = 0x0F#8 ∧
    readLow 0x1FFF#32 = 0xFF#8 ∧ readOpcode Config.standard 0x0234#32 = 0x20#8 ∧ readMiddle 0x0234#32 = 0x02#8 ∧
    readLow 0x0234#32 = 0x34#8 ∧ readOpcode Config.standard 0xFFFFFFFF#32 = 0x28#8 ∧ readMiddle 0xFFFFFFFF#32 = 0x0F#8 := by
  decide

/-- V10: an illegal word is answered ERR_OP and changes nothing. -/
theorem test_step_illegal : answers (step (State.reset.withFetchWord 40 0xFF12345678)) = [⟨.errOp, 0#32⟩] ∧
    regsOf (step (State.reset.withFetchWord 40 0xFF12345678)) = some State.reset.registers := by decide
/-- V50: decode before state, decode before range. -/
theorem test_step_priority : answers (step ((bench .ready 1 (.free 0)).withFetchWord 40 0x0200000001)) = [⟨.errOp, 0#32⟩] ∧
    answers (step (State.reset.withFetchWord 40 0x0700000129)) = [⟨.errOp, 0#32⟩] ∧
    answers (step (State.reset.withFetchWord 40 0x0700000029)) = [⟨.errRange, 0#32⟩] := by decide
/-- R89 to R91: the response word of V40 and of an error. -/
theorem test_response_word : Response.word ⟨.ok, 0x00AC5300#32⟩ = 0x0000AC5300#40 ∧
    Response.word ⟨.errUnsup, 0#32⟩ = 0x0500000000#40 ∧ packEchoes 0x12#8 0x34#8 0x53#8 0x78#8 = 0x12345378#32 := by decide

/-! ## The fixture memory, the commands, the transfer protocol -/

/-- Writing what an unlisted address reads as removes the entry; entries stay sorted. -/
theorem test_memory : Memory.write (Memory.write [] 5 0xAA#8) 3 0x01#8 = [(3, 0x01#8), (5, 0xAA#8)] ∧
    Memory.write [(3, 0x01#8), (5, 0xAA#8)] 5 0x00#8 = [(3, 0x01#8)] ∧ Memory.read [(3, 0x01#8)] 5 = 0x00#8 := by decide
/-- R183's worked example: levels 1,0,1,0,0,1,0,1 make 0xA5. -/
theorem test_insert_top : [true, false, true, false, false, true, false, true].foldl insertTop 0x00#8 = 0xA5#8 := by decide
/-- R107: the dump is SETUP, 64 READs, TRISTATE. -/
theorem test_dump : (expandCommand (.dump 0x10#32) State.reset).length = 66 ∧
    (expandCommand (.dump 0x10#32) State.reset)[1]? = some (.read 0x10#32) ∧
    (expandCommand (.dump 0x10#32) State.reset)[64]? = some (.read 0x4F#32) := by decide
/-- S3 and S4: the checksum of 128 bytes 0x03, the complements of blocks 1 and 0. -/
theorem test_transfer_sums : xferChecksum (Vector.replicate 128 0x03#8) = 0x80#8 ∧ xferComplement 0x01#8 = 0xFE#8 ∧
    xferComplement 0x00#8 = 0xFF#8 := by decide +kernel
/-- S8 and S9: three negative acknowledgements of block 1, then an acknowledgement; a cancel in `AwaitStart`. -/
theorem test_transfer_scenarios :
    let q := XferParams.xmodem false none
    let d : Payload := Vector.replicate 128 0x03#8
    (Sender.receiveAll q [q.nak, q.nak, q.nak, q.nak, q.ack] (Sender.start [d, d])).map (fun x => x.sent) =
      some (xferBlock q 1#8 d ++ xferBlock q 1#8 d ++ xferBlock q 1#8 d ++ xferBlock q 1#8 d ++ xferBlock q 2#8 d) ∧
    Sender.receiveAll q [q.can] (Sender.start [d]) = some { phase := .aborted, sent := [] } := by decide +kernel

/-! ## Witnesses: states and operands that meet all the hypotheses of a statement together, per clause where it has
several, at the ends of the ranges -/

theorem witness_DecodeReadsBackEncode :
    (Instr.select 4294967295).WellFormed ∧ (Instr.ispClock 65535).WellFormed ∧ (Instr.xlate 255).WellFormed ∧
    (Instr.ispXfer 0xFF#8).WellFormed ∧ (Instr.read 0xFFFFFFFF#32).WellFormed ∧ Instr.tristate.WellFormed ∧
    Instr.setup.WellFormed ∧ Instr.ispProbe.WellFormed := by decide

theorem witness_EncodeReadsBackDecode : decode 0x060000FFFF#40 = .ok (.ispClock 65535) := by decide

theorem witness_OperationRowsDoNotOverlap : ∃ w : ReqWord, ∃ r1 ∈ opTable, ∃ r2 ∈ opTable,
    r1.selects w = true ∧ r2.selects w = true :=
  ⟨0x0100000005#40, opTable[1], by decide, opTable[1], by decide, by decide, by decide⟩

/-- One word for each clause, at the ends: `op` 0x08 and 0xFF; the lowest and the highest must-be-zero bit. -/
theorem witness_IllegalWordsAnswerErrOp :
    8 = ((0x0800000000#40).extractLsb' 32 8).toNat ∧ 255 = ((0xFF00000000#40).extractLsb' 32 8).toNat ∧
    (∀ w ∈ [0x0000000001#40, 0x0080000000#40, 0x0200000001#40, 0x0280000000#40, 0x0400000001#40, 0x0480000000#40],
      ((w.extractLsb' 32 8).toNat = 0 ∨ (w.extractLsb' 32 8).toNat = 2 ∨ (w.extractLsb' 32 8).toNat = 4) ∧
        w.extractLsb' 0 32 ≠ 0#32) ∧
    (∀ w ∈ [0x0500000100#40, 0x0580000000#40, 0x0700000100#40, 0x0780000000#40],
      ((w.extractLsb' 32 8).toNat = 5 ∨ (w.extractLsb' 32 8).toNat = 7) ∧ w.extractLsb' 8 24 ≠ 0#24) ∧
    (∀ w ∈ [0x0600010000#40, 0x0680000000#40], (w.extractLsb' 32 8).toNat = 6 ∧ w.extractLsb' 16 16 ≠ 0#16) ∧
    (State.reset.present 0x0800000000#40).requests = 0x0800000000#40 :: [] :=
  ⟨by decide, by decide, by simp, by simp, by simp, rfl⟩

theorem witness_StepRunsNextRequest : State.reset.requests = [] ∧
    (State.reset.present 0x0300000005#40).requests = 0x0300000005#40 :: [] ∧
    decode 0x0300000005#40 = .ok (.read 5#32) ∧ decodeTableWord 40 0x0300000005 = some (.read 5#32) := by decide

theorem witness_ResponseWordFormat : 6 ≤ (0x06#8).toNat ∧ 6 ≤ (0xFF#8).toNat := by decide

theorem witness_TranslatorProperties : (∀ n ∈ [1, 2, 39, 40], 1 ≤ { Config.f28 with pins := n }.pins ∧
      { Config.f28 with pins := n }.pins ≤ 40) ∧
    translatePin { Config.f28 with pins := 40 } 40 = some 40 ∧ translatePin { Config.f28 with pins := 40 } 1 = some 1 := by
  decide

/-- Both clauses, where they meet: package pins 28 and 29 of F28; and both halves of the translation, 14 and 15. -/
theorem witness_XlateAnswersPhysicalPin : (bench .ready 1 (.free 0)).profile? = some Config.f28 ∧
    28 ≤ Config.f28.pins ∧ Config.f28.pins < 29 ∧ 14 ≤ Config.f28.pins / 2 ∧ ¬ 15 ≤ Config.f28.pins / 2 := by decide

theorem witness_PortCallsWriteOneRegister : (∃ p : Nat, 1 ≤ p ∧ p ≤ 40 ∧ (1 ≤ 40 ∧ 40 ≤ 40)) ∧
    State.reset.target = .free 0 := ⟨⟨1, by decide⟩, rfl⟩

theorem witness_PinPrimitivesTouchTheirPin : translatePin Config.f28 28 = some 40 ∧ 1 ≤ 40 ∧ 40 ≤ 40 ∧
    translatePin Config.f28 1 = some 1 ∧ (0 : Nat) = 0 := by decide

theorem witness_SelectChangesTheReferenceOnly : (bench .tristate 0 (.free 0)).st = .tristate ∧
    5 < (bench .tristate 0 (.free 0)).cfg.catalog.length ∧ (bench .tristate 0 (.free 0)).cfg.catalog.length ≤ 6 ∧
    (bench .faulted 3 (.free 0)).st ≠ .tristate := by decide

/-- F28, at index 1 of 6, and its last pin. -/
theorem witness_SelectedProfileIsUsedNext :
    (State.reset.submit [.select 1, .xlate 28]).st = .tristate ∧
    (State.reset.submit [.select 1, .xlate 28]).cfg.catalog[1]? = some Config.f28 ∧ 1 < 2 ^ 32 ∧ 28 < 2 ^ 8 ∧
    28 ≤ Config.f28.pins ∧ (State.reset.submit [.select 1, .xlate 28]).requests =
      encode (.select 1) :: encode (.xlate 28) :: [] :=
  ⟨rfl, rfl, by decide, by decide, by decide, rfl⟩

theorem witness_SetupParallelCompletes : (bench .tristate 2 (.free 0)).profile? = some Config.f16 ∧
    (bench .tristate 2 (.free 0)).st = .tristate ∧ optLatch Config.f16 = false ∧ isIsp Config.f16 = false := by decide

/-- The pins of a bench are undriven. -/
theorem bench_undriven (st : SeqState) (sel : Nat) (tgt : Target) : Undriven (bench st sel tgt) :=
  fun p => ⟨PinFile.get_replicate p, PinFile.get_replicate p⟩

theorem witness_SetupConfiguresEveryPin : ∃ t, (bench .tristate 2 (.free 0)).profile? = some Config.f16 ∧
    Profile.wf Config.f16 = true ∧ isIsp Config.f16 = false ∧ optLatch Config.f16 = false ∧
    (bench .tristate 2 (.free 0)).st = .tristate ∧ Undriven (bench .tristate 2 (.free 0)) ∧
    exec .setup (bench .tristate 2 (.free 0)) = .next t :=
  ⟨_, by decide, by decide, by decide, by decide, rfl, bench_undriven _ _ _, rfl⟩

theorem witness_SetupEventCount : (∃ t, exec .setup (bench .tristate 1 (.free 0)) = .next t) ∧
    (bench .tristate 1 (.free 0)).profile? = some Config.f28 ∧ (bench .tristate 1 (.free 0)).st = .tristate ∧
    optLatch Config.f28 = false ∧ isIsp Config.f28 = false ∧
    (bench .tristate 0 (.free 0)).profile? = some Config.safeProfile ∧ (bench .tristate 0 (.free 0)).st = .tristate ∧
    Profile.w7 Config.safeProfile = true :=
  ⟨⟨_, rfl⟩, by decide, by decide, by decide, by decide, by decide, by decide, by decide⟩

theorem witness_SetupRefusesLatchOption : (bench .tristate 4 (.free 0)).profile? = some Config.flatch ∧
    (bench .tristate 4 (.free 0)).st = .tristate ∧ optLatch Config.flatch = true := by decide

theorem witness_TristateIsIdempotent : ∃ t u, exec .tristate (enteredIsp .faulted []) = .next t ∧
    exec .tristate t = .next u := ⟨_, _, rfl, rfl⟩

theorem witness_SetupIspRunsEntrySequence : (bench .tristate 3 (.free 0)).profile? = some Config.fisp20 ∧
    (bench .tristate 3 (.free 0)).st = .tristate ∧ optLatch Config.fisp20 = false ∧ isIsp Config.fisp20 = true := by decide

/-- Also the hypotheses of the exchange and clock statements, in both states they name. -/
theorem witness_ProbeRunsEntrySequence : (enteredIsp .ready []).profile? = some Config.fisp20 ∧
    (enteredIsp .faulted []).profile? = some Config.fisp20 ∧ isIsp Config.fisp20 = true ∧
    (enteredIsp .ready []).st = .ready ∧ (enteredIsp .faulted []).st = .faulted := by decide

/-- An ISP profile with no serial-data-in pin: the clause on an absent SDI. -/
theorem witness_absent_sdi : Profile.wf { Config.fisp20 with dataPins := [] } = true ∧
    roleSdi { Config.fisp20 with dataPins := [] } = 0 ∧ isIsp { Config.fisp20 with dataPins := [] } = true := by decide

/-- The conditions on the pins of a configured ISP socket, checked pin by pin. -/
def ispPinsCheck (P : Profile) (s : State) : Bool :=
  (List.range 41).all fun p =>
    (!(physPins P P.loPins).contains p || (s.dirOf p && !s.lvlOf p)) &&
    (!(physPins P P.hiPins).contains p || (s.dirOf p && s.lvlOf p)) &&
    (translatePin P (roleSck P) != some p || (s.dirOf p && !s.lvlOf p)) &&
    (translatePin P (roleSdo P) != some p || s.dirOf p) &&
    (translatePin P (roleRst P) != some p || (s.dirOf p && !s.lvlOf p)) &&
    (translatePin P (roleXclk P) != some p || (s.dirOf p && !s.lvlOf p)) &&
    (translatePin P (roleSdi P) != some p || (!s.dirOf p && s.lvlOf p)) &&
    ((physPins P (allPins P)).contains p || (!s.dirOf p && !s.lvlOf p))

/-- The conditions on the pins of a configured parallel socket, checked pin by pin. -/
def parallelPinsCheck (P : Profile) (s : State) : Bool :=
  (List.range 41).all fun p =>
    (!(physPins P P.loPins).contains p || (s.dirOf p && !s.lvlOf p)) &&
    (!(physPins P P.hiPins).contains p || (s.dirOf p && s.lvlOf p)) &&
    (!(physPins P P.addrPins).contains p || s.dirOf p) &&
    (!(physPins P P.dataPins).contains p || (!s.dirOf p && s.lvlOf p == optPullup P)) &&
    ((physPins P (allPins P)).contains p || (!s.dirOf p && !s.lvlOf p))

theorem ispPins_of_check (P : Profile) (s : State) (hw : Profile.wf P = true) (h : ispPinsCheck P s = true) :
    IspPins P s := by
  simp only [ispPinsCheck, List.all_eq_true, List.mem_range, Bool.and_eq_true, Bool.or_eq_true, Bool.not_eq_true',
    bne_iff_ne, ne_eq, ← Bool.not_eq_true, List.contains_iff_mem, mem_physPins] at h
  have r : ∀ L, (∀ k ∈ L, k ∈ allPins P) → ∀ p, IsPinOf P L p → p < 41 := fun L hL p hp => by
    have := isPinOf_range P hw L hL p hp
    simp only [zifPins] at this
    omega
  have rl := r P.loPins (by simp +contextual [allPins])
  have rh := r P.hiPins (by simp +contextual [allPins])
  have ra := r P.addrPins (by simp +contextual [allPins])
  have rd := r P.dataPins (by simp +contextual [allPins])
  have m := role_mem P
  constructor
  · intro p hp
    obtain ⟨⟨⟨⟨⟨⟨⟨a, b⟩, c⟩, d⟩, e⟩, f⟩, g⟩, i⟩ := h p (rl p hp)
    simpa using a.resolve_left (fun x => x hp)
  · intro p hp
    obtain ⟨⟨⟨⟨⟨⟨⟨a, b⟩, c⟩, d⟩, e⟩, f⟩, g⟩, i⟩ := h p (rh p hp)
    simpa using b.resolve_left (fun x => x hp)
  · intro p hp
    obtain ⟨⟨⟨⟨⟨⟨⟨a, b⟩, c⟩, d⟩, e⟩, f⟩, g⟩, i⟩ := h p (ra p ((m p).1 hp))
    simpa using c.resolve_left (fun x => x hp)
  · intro p hp
    obtain ⟨⟨⟨⟨⟨⟨⟨a, b⟩, c⟩, d⟩, e⟩, f⟩, g⟩, i⟩ := h p (ra p ((m p).2.1 hp))
    simpa using d.resolve_left (fun x => x hp)
  · intro p hp
    obtain ⟨⟨⟨⟨⟨⟨⟨a, b⟩, c⟩, d⟩, e⟩, f⟩, g⟩, i⟩ := h p (ra p ((m p).2.2.1 hp))
    simpa using e.resolve_left (fun x => x hp)
  · intro p hp
    obtain ⟨⟨⟨⟨⟨⟨⟨a, b⟩, c⟩, d⟩, e⟩, f⟩, g⟩, i⟩ := h p (ra p ((m p).2.2.2.1 hp))
    simpa using f.resolve_left (fun x => x hp)
  · intro p hp
    obtain ⟨⟨⟨⟨⟨⟨⟨a, b⟩, c⟩, d⟩, e⟩, f⟩, g⟩, i⟩ := h p (rd p ((m p).2.2.2.2 hp))
    simpa using g.resolve_left (fun x => x hp)
  · intro p hp
    by_cases hr : 1 ≤ p ∧ p ≤ zifPins
    · obtain ⟨⟨⟨⟨⟨⟨⟨a, b⟩, c⟩, d⟩, e⟩, f⟩, g⟩, i⟩ := h p (by simp only [zifPins] at hr; omega)
      simpa using i.resolve_left hp
    · exact outside_socket s p hr

theorem parallelPins_of_check (P : Profile) (s : State) (hw : Profile.wf P = true) (h : parallelPinsCheck P s = true) :
    ParallelPins P s := by
  simp only [parallelPinsCheck, List.all_eq_true, List.mem_range, Bool.and_eq_true, Bool.or_eq_true, Bool.not_eq_true',
    beq_iff_eq, ← Bool.not_eq_true, List.contains_iff_mem, mem_physPins] at h
  have r : ∀ L, (∀ k ∈ L, k ∈ allPins P) → ∀ p, IsPinOf P L p → p < 41 := fun L hL p hp => by
    have := isPinOf_range P hw L hL p hp
    simp only [zifPins] at this
    omega
  constructor
  · intro p hp
    obtain ⟨⟨⟨⟨a, b⟩, c⟩, d⟩, e⟩ := h p (r P.loPins (by simp +contextual [allPins]) p hp)
    simpa using a.resolve_left (fun x => x hp)
  · intro p hp
    obtain ⟨⟨⟨⟨a, b⟩, c⟩, d⟩, e⟩ := h p (r P.hiPins (by simp +contextual [allPins]) p hp)
    simpa using b.resolve_left (fun x => x hp)
  · intro p hp
    obtain ⟨⟨⟨⟨a, b⟩, c⟩, d⟩, e⟩ := h p (r P.addrPins (by simp +contextual [allPins]) p hp)
    simpa using c.resolve_left (fun x => x hp)
  · intro p hp
    obtain ⟨⟨⟨⟨a, b⟩, c⟩, d⟩, e⟩ := h p (r P.dataPins (by simp +contextual [allPins]) p hp)
    simpa using d.resolve_left (fun x => x hp)
  · intro p hp
    by_cases hr : 1 ≤ p ∧ p ≤ zifPins
    · obtain ⟨⟨⟨⟨a, b⟩, c⟩, d⟩, e⟩ := h p (by simp only [zifPins] at hr; omega)
      simpa using e.resolve_left hp
    · exact outside_socket s p hr

theorem enteredIsp_pins : IspPins Config.fisp20 (enteredIsp .ready []) ∧ IspPins Config.fisp20 (enteredIsp .faulted []) :=
  ⟨ispPins_of_check _ _ (by decide) (by decide), ispPins_of_check _ _ (by decide) (by decide)⟩

theorem witness_EntrySequencePins :
    (∃ t, (bench .tristate 3 (.free 0)).profile? = some Config.fisp20 ∧ Profile.wf Config.fisp20 = true ∧
      isIsp Config.fisp20 = true ∧ optLatch Config.fisp20 = false ∧ (bench .tristate 3 (.free 0)).st = .tristate ∧
      Undriven (bench .tristate 3 (.free 0)) ∧ exec .setup (bench .tristate 3 (.free 0)) = .next t) ∧
    ∃ t, (enteredIsp .faulted []).profile? = some Config.fisp20 ∧ Profile.wf Config.fisp20 = true ∧
      isIsp Config.fisp20 = true ∧ (enteredIsp .faulted []).st = .faulted ∧
      IspPins Config.fisp20 (enteredIsp .faulted []) ∧ exec .ispProbe (enteredIsp .faulted []) = .next t :=
  ⟨⟨_, by decide, by decide, by decide, by decide, rfl, bench_undriven _ _ _, rfl⟩,
    ⟨_, by decide, by decide, by decide, rfl, enteredIsp_pins.2, rfl⟩⟩

/-- The hypotheses of XferExchangesOneByte and ClockTogglesXclk are those of ProbeRunsEntrySequence. -/
theorem witness_XferExchangesOneByte : (enteredIsp .faulted []).profile? = some Config.fisp20 ∧
    isIsp Config.fisp20 = true ∧ (enteredIsp .faulted []).st = .faulted := by decide

theorem witness_ClockTogglesXclk : (enteredIsp .ready []).profile? = some Config.fisp20 ∧ isIsp Config.fisp20 = true ∧
    (enteredIsp .ready []).st = .ready ∧ translatePin Config.fisp20 (roleXclk Config.fisp20) = some 5 := by decide

theorem witness_XferPins : ∃ t, (enteredIsp .ready []).profile? = some Config.fisp20 ∧ Profile.wf Config.fisp20 = true ∧
    isIsp Config.fisp20 = true ∧ (enteredIsp .ready []).st = .ready ∧
    exec (.ispXfer 0x01#8) (enteredIsp .ready []) = .next t := ⟨_, by decide, by decide, by decide, rfl, rfl⟩

theorem witness_ReadIspSendsOneFrame : (enteredIsp .ready []).profile? = some Config.fisp20 ∧
    isIsp Config.fisp20 = true ∧ (enteredIsp .ready []).st = .ready ∧ Profile.wf Config.fisp20 = true ∧
    translatePin Config.fisp20 (roleSdo Config.fisp20) = some 37 ∧
    translatePin Config.fisp20 (roleSck Config.fisp20) = some 39 ∧
    translatePin Config.fisp20 (roleXclk Config.fisp20) = some 5 := by decide

theorem witness_IspEventCounts : (enteredIsp .ready []).profile? = some Config.fisp20 ∧ isIsp Config.fisp20 = true ∧
    AllRoles Config.fisp20 ∧ (enteredIsp .ready []).st = .ready ∧ (enteredIsp .faulted []).st = .faulted ∧
    (∃ t, exec (.ispClock 3) (enteredIsp .faulted []) = .next t) ∧
    (∃ t, exec (.ispXfer 0xFF#8) (enteredIsp .faulted []) = .next t) ∧
    (∃ t, exec .ispProbe (enteredIsp .faulted []) = .next t) ∧
    ∃ t, exec (.read 0xFFFFFFFF#32) (enteredIsp .ready []) = .next t :=
  ⟨by decide, by decide, ⟨by decide, by decide, by decide, by decide, by decide⟩, rfl, rfl,
    ⟨_, rfl⟩, ⟨_, rfl⟩, ⟨_, rfl⟩, ⟨_, rfl⟩⟩

theorem witness_ScriptedSerialLink : (enteredIsp .ready [0x00#8, 0xAC#8, 0x53#8, 0x00#8]).profile? = some Config.fisp20 ∧
    isIsp Config.fisp20 = true ∧ roleSdi Config.fisp20 ≠ 0 ∧ (enteredIsp .ready [0x00#8, 0xAC#8, 0x53#8, 0x00#8]).st = .ready ∧
    (enteredIsp .ready [0x00#8, 0xAC#8, 0x53#8, 0x00#8]).target =
      .script ([0x00#8, 0xAC#8, 0x53#8, 0x00#8].flatMap bitsMsbFirst ++ []) ∧
    (enteredIsp .ready [0x00#8, 0xAC#8, 0x53#8, 0x00#8]).target =
      .script (bitsMsbFirst 0x00#8 ++ [0xAC#8, 0x53#8, 0x00#8].flatMap bitsMsbFirst) := by decide

theorem witness_ReadParallelConverges : (bench .ready 5 (.free 0)).profile? = some Config.f16n ∧
    isIsp Config.f16n = false ∧ Config.f16n.dataWidth ≤ 8 ∧ (bench .ready 5 (.free 0)).st = .ready ∧
    1 ≤ (bench .ready 5 (.free 0)).cfg.nSamples := by decide

theorem witness_ReadParallelPins : ∃ t, (readyF28 []).profile? = some Config.f28 ∧ Profile.wf Config.f28 = true ∧
    isIsp Config.f28 = false ∧ (readyF28 []).st = .ready ∧ 1 ≤ (readyF28 []).cfg.nSamples ∧
    exec (.read 0x7FFF#32) (readyF28 []) = .next t := ⟨_, by decide, by decide, by decide, rfl, by decide, rfl⟩

/-- Both cases of the number of passes: 8 allowed, and 1. -/
theorem witness_ReadEventCount : ∃ t u, (readyF28 []).profile? = some Config.f28 ∧ isIsp Config.f28 = false ∧
    Config.f28.dataWidth ≤ 8 ∧ (readyF28 []).st = .ready ∧ 2 ≤ (readyF28 []).cfg.nSamples ∧
    exec (.read 0#32) (readyF28 []) = .next t ∧
    exec (.read 0#32) { readyF28 [] with cfg := { Config.standard with nSamples := 1 } } = .next u :=
  ⟨_, _, by decide, by decide, by decide, rfl, by decide, rfl, rfl⟩

/-- V36's one-off profile: address bit 1 and data bit 7 have no pin. -/
def f16Gaps : Profile := { Config.f16 with addrPins := [10, 0, 12, 13, 14], dataPins := [1, 2, 3, 4, 5, 6, 7, 0] }

/-- An ISP profile without an SDO: no bit of an address has a pin. -/
def fispMute : Profile := { Config.fisp20 with addrPins := [19, 0, 1, 5] }

/-- A state in `Ready` whose active profile is `P`, on a catalog of that one profile. -/
def readyOn (P : Profile) : State :=
  { State.resetWith { Config.standard with catalog := [P] } (.free 0) with st := .ready }

/-- Two different addresses that agree on the bits that have a pin: F28 the low 15; V36's profile bits 0, 2, 3 and 4 (the
addresses differ in bit 1, below `addr_width`); FISP20 the low 13; an ISP profile without an SDO none. -/
theorem witness_ReadIgnoresHighAddressBits :
    (∀ x ∈ [(Config.f28, 0x0001#32, 0xFFFF8001#32), (f16Gaps, 0x1F#32, 0x1D#32), (Config.fisp20, 0x1FFF#32, 0xFFFFFFFF#32),
        (fispMute, 0x0000#32, 0xFFFFFFFF#32)],
      (readyOn x.1).profile? = some x.1 ∧ Profile.wf x.1 = true ∧ x.2.1 ≠ x.2.2 ∧
      ∀ i, i < 32 → addressBitHasPin x.1 i = true → x.2.1.getLsbD i = x.2.2.getLsbD i) ∧
    (isIsp Config.f28 = false ∧ addressBitHasPin Config.f28 14 = true ∧ isIsp f16Gaps = false ∧
      addressBitHasPin f16Gaps 1 = false ∧ addressBitHasPin f16Gaps 4 = true) := by decide +kernel

/-- V31, rows 2 and 4: a bus that never converges, and one that does on the last two passes. -/
theorem witness_ScriptedConvergence :
    (∀ bytes ∈ [[0x01#8, 0x02#8, 0x03#8, 0x04#8, 0x05#8, 0x06#8, 0x07#8, 0x08#8],
        [0x01#8, 0x02#8, 0x03#8, 0x04#8, 0x05#8, 0x06#8, 0x07#8, 0x07#8]],
      (bench .ready 1 (parallelScript bytes)).profile? = some Config.f28 ∧ Config.f28.dataWidth = 8 ∧
      (∀ i, i < 8 → nth Config.f28.dataPins i ≠ 0) ∧ (bench .ready 1 (parallelScript bytes)).st = .ready ∧
      1 ≤ (bench .ready 1 (parallelScript bytes)).cfg.nSamples ∧
      bytes.length = (bench .ready 1 (parallelScript bytes)).cfg.nSamples ∧
      (bench .ready 1 (parallelScript bytes)).target = parallelScript bytes) ∧
    (∀ i, i < 7 → [0x01#8, 0x02#8, 0x03#8, 0x04#8, 0x05#8, 0x06#8, 0x07#8, 0x08#8][i + 1]? ≠
      [0x01#8, 0x02#8, 0x03#8, 0x04#8, 0x05#8, 0x06#8, 0x07#8, 0x08#8][i]?) ∧
    [0x01#8, 0x02#8, 0x03#8, 0x04#8, 0x05#8, 0x06#8, 0x07#8, 0x07#8][7]? =
      [0x01#8, 0x02#8, 0x03#8, 0x04#8, 0x05#8, 0x06#8, 0x07#8, 0x07#8][6]? := by decide

/-- A configured parallel socket meets the invariant. -/
theorem readyF28_inv (m : Memory) : Inv (readyF28 m) := by
  have hp : (readyF28 m).profile? = some Config.f28 := rfl
  constructor
  · exact test_wf_standard
  · show 1 < Config.standard.catalog.length
    decide
  · exact .inr (.inl rfl)
  · intro h
    cases h
  · intro h
    cases h
  · intro _ P h
    rw [hp] at h
    cases h
    decide
  · intro _ P h _
    rw [hp] at h
    cases h
    have : ParallelPins Config.f28 (readyF28 []) := parallelPins_of_check _ _ (by decide) (by decide +kernel)
    exact ⟨this.lo, this.hi, this.addr, this.data, this.other⟩
  · intro _ P h hi
    rw [hp] at h
    cases h
    cases hi

/-- A tri-stated socket of any catalog entry without the latch option meets the invariant. -/
theorem bench_inv (sel : Nat) (tgt : Target) (h : sel < 6) : Inv (bench .tristate sel tgt) := by
  constructor
  · exact test_wf_standard
  · exact h
  · exact .inl rfl
  · exact fun _ => bench_undriven _ _ _
  · intro h'
    cases h'
  · exact fun h' => absurd rfl h'
  · intro h'
    cases h'
  · exact fun h' => absurd rfl h'

theorem witness_IdealRomIsReadBack : Inv (readyF28 [(0x4000, 0x03#8)]) ∧
    (readyF28 [(0x4000, 0x03#8)]).profile? = some Config.f28 ∧ (readyF28 [(0x4000, 0x03#8)]).st = .ready ∧
    Config.f28.dataWidth = 8 ∧ (∀ i, i < 8 → nth Config.f28.dataPins i ≠ 0) ∧
    (∀ i, i < Config.f28.addrWidth → nth Config.f28.addrPins i ≠ 0) ∧
    (readyF28 [(0x4000, 0x03#8)]).target = .idealRom [(0x4000, 0x03#8)] :=
  ⟨readyF28_inv _, rfl, rfl, rfl, by decide, by decide, rfl⟩

theorem witness_SafeProfileReadsZero : (bench .ready 0 (.free 0)).profile? = some Config.safeProfile ∧
    Profile.w7 Config.safeProfile = true ∧ (bench .ready 0 (.free 0)).st = .ready := by decide

/-- Each clause: SELECT and SETUP in `Ready`, READ in `Faulted`, ISP requests with a parallel profile and in `Tristate`. -/
theorem witness_RequestsRefusedInOtherStates : (bench .ready 1 (.free 0)).st ≠ .tristate ∧
    (bench .faulted 3 (.free 0)).st ≠ .ready ∧ (bench .ready 1 (.free 0)).profile? = some Config.f28 ∧
    isIsp Config.f28 = false ∧ (bench .tristate 3 (.free 0)).profile? = some Config.fisp20 ∧
    (bench .tristate 3 (.free 0)).st ≠ .ready ∧ (bench .tristate 3 (.free 0)).st ≠ .faulted ∧
    answers (exec (.read 0#32) (bench .faulted 3 (.free 0))) = [⟨.errState, 0#32⟩] := by decide

/-- Each clause: a no-change status, `ERR_UNSUP`, and (in test_ispProbe) `ISP_FAIL`. -/
theorem witness_ErrorsChangeNothing : (∃ t, exec (.select 6) State.reset = .next t ∧
      t.responses = [⟨.errRange, 0#32⟩] ∧ Status.noChange .errRange = true) ∧
    ∃ t, exec .setup (bench .tristate 4 (.free 0)) = .next t ∧ t.responses = [⟨.errUnsup, 0#32⟩] :=
  ⟨⟨_, rfl, rfl, rfl⟩, ⟨_, rfl, rfl⟩⟩

theorem witness_StatusPriority : ((bench .ready 4 (.free 0)).present 0x0200000001#40).requests = 0x0200000001#40 :: [] ∧
    (∃ e, decode 0x0200000001#40 = .error e) ∧ decode 0x0100000006#40 = .ok (.select 6) ∧
    (bench .ready 4 (.free 0)).st ≠ .tristate ∧ (bench .ready 4 (.free 0)).cfg.catalog.length ≤ 6 ∧
    decode 0x0200000000#40 = .ok .setup ∧ (bench .ready 4 (.free 0)).profile? = some Config.flatch ∧
    optLatch Config.flatch = true := ⟨rfl, ⟨_, rfl⟩, by decide, by decide, by decide, by decide, by decide, by decide⟩

/-- The clauses before the handshake: an ISP profile with the latch option, and FISP20 in `Ready` and in `Tristate`. -/
theorem witness_StatusPriority_handshake :
    { bench .tristate 1 (.free 0) with cfg := { Config.standard with
        catalog := [Config.safeProfile, { Config.fisp20 with options := 0x02#8 }] } }.profile? =
      some { Config.fisp20 with options := 0x02#8 } ∧
    optLatch { Config.fisp20 with options := 0x02#8 } = true ∧ isIsp { Config.fisp20 with options := 0x02#8 } = true ∧
    decode 0x0400000000#40 = .ok .ispProbe ∧ (bench .tristate 3 (.free 0)).profile? = some Config.fisp20 ∧
    (bench .ready 3 (.free 0)).profile? = some Config.fisp20 ∧ isIsp Config.fisp20 = true ∧
    (bench .ready 3 (.free 0)).st ≠ .tristate ∧ (bench .tristate 3 (.free 0)).st ≠ .ready ∧
    (bench .tristate 3 (.free 0)).st ≠ .faulted := by decide

theorem witness_EveryRequestIsAnswered : (bench .faulted 5 (.free 0)).sel < (bench .faulted 5 (.free 0)).cfg.catalog.length ∧
    ((bench .faulted 5 (.free 0)).present 0xFF00000000#40).requests = 0xFF00000000#40 :: [] := by decide

theorem witness_NoActiveProfileStops : (bench .tristate 6 (.free 0)).profile? = none ∧
    (bench .tristate 6 (.free 0)).st = .tristate ∧ (bench .ready 6 (.free 0)).profile? = none ∧
    (bench .ready 6 (.free 0)).st = .ready := by decide

/-- Each clause: `st` and `dir` by SETUP, `sel` by SELECT, the mark by SETUP, `lvl` by ISP_CLOCK (test_ispClock). -/
theorem witness_RegistersAreWrittenBy :
    (∃ t, exec .setup (bench .tristate 1 (.free 0)) = .next t ∧ t.st ≠ (bench .tristate 1 (.free 0)).st) ∧
    (∃ t, exec (.select 5) State.reset = .next t ∧ t.sel ≠ State.reset.sel) ∧
    ∃ t, exec .setup (bench .tristate 4 (.free 0)) = .next t ∧ t.refused ≠ (bench .tristate 4 (.free 0)).refused :=
  ⟨⟨_, rfl, by decide⟩, ⟨_, rfl, by decide⟩, ⟨_, rfl, by decide⟩⟩

/-- SETUP of a parallel profile, TRISTATE; `Ready` to `Faulted` is test_ispProbe. -/
theorem witness_SequencerTransitions :
    (∃ t, exec .setup (bench .tristate 1 (.free 0)) = .next t ∧ t.st ≠ (bench .tristate 1 (.free 0)).st) ∧
    ∃ t, exec .tristate (bench .faulted 3 (.free 0)) = .next t ∧ t.st ≠ (bench .faulted 3 (.free 0)).st :=
  ⟨⟨_, rfl, by decide⟩, ⟨_, rfl, by decide⟩⟩

theorem witness_TargetMemoryIsNeverWritten : ∃ t, (readyF28 [(5, 0xAA#8)]).target = .idealRom [(5, 0xAA#8)] ∧
    step ((readyF28 [(5, 0xAA#8)]).withFetchWord 40 0x0300000005) = .next t := ⟨_, rfl, rfl⟩

/-- A parallel READ, and a request whose samples do not decide their number. -/
theorem witness_TargetDecidesOnlyBytes : (∃ t, exec (.read 5#32) (readyF28 []) = .next t) ∧
    (∃ t, exec (.ispXfer 0xFF#8) (enteredIsp .ready []) = .next t) ∧
    ∀ P, (enteredIsp .ready []).profile? = some P → isIsp P = true := by
  refine ⟨⟨_, rfl⟩, ⟨_, rfl⟩, fun P h => ?_⟩
  cases (show some Config.fisp20 = some P from h)
  rfl

theorem witness_DurationsDoNotMatter : ∃ t, exec .setup (bench .tristate 3 (.free 0)) = .next t := ⟨_, rfl⟩

theorem witness_ResetMeetsInvariant : ∃ s, launch Config.standard (.free 7) = some s := ⟨_, rfl⟩

theorem witness_StepKeepsInvariant : ∃ t, Inv ((readyF28 []).withFetchWord 40 0x0300000005) ∧
    step ((readyF28 []).withFetchWord 40 0x0300000005) = .next t :=
  ⟨_, inv_congr (readyF28 []) _ (readyF28_inv []) rfl rfl rfl rfl rfl, rfl⟩

theorem witness_TraceExplainsPins : ∃ t, Inv ((bench .tristate 1 (.free 0)).withFetchWord 40 0x0200000000) ∧
    TraceInv ((bench .tristate 1 (.free 0)).withFetchWord 40 0x0200000000) ∧
    step ((bench .tristate 1 (.free 0)).withFetchWord 40 0x0200000000) = .next t := by
  refine ⟨_, inv_congr (bench .tristate 1 (.free 0)) _ (bench_inv 1 _ (by decide)) rfl rfl rfl rfl rfl, ⟨rfl, ?_, ?_⟩, rfl⟩
  · intro e he
    cases he
  · intro T p l U h
    exact absurd h.symm (by simp [State.withFetchWord, bench, State.resetWith])

theorem witness_SessionsEndSafe : Inv (bench .tristate 3 (.free 0)) ∧ (bench .tristate 3 (.free 0)).requests = [] ∧
    isSession [.setup, .ispProbe, .ispXfer 0xAC#8, .ispClock 65535, .read 0xFFFFFFFF#32, .tristate] = true ∧
    ∀ i ∈ [Instr.setup, .ispProbe, .ispXfer 0xAC#8, .ispClock 65535, .read 0xFFFFFFFF#32, .tristate], i.WellFormed :=
  ⟨bench_inv 3 _ (by decide), rfl, by decide, by simp [Instr.WellFormed]⟩

theorem witness_DumpReadsTheRom : Inv (bench .tristate 1 (.idealRom [(5, 0xAA#8)])) ∧
    (bench .tristate 1 (.idealRom [(5, 0xAA#8)])).requests = [] ∧
    (bench .tristate 1 (.idealRom [(5, 0xAA#8)])).profile? = some Config.f28 ∧
    (bench .tristate 1 (.idealRom [(5, 0xAA#8)])).st = .tristate ∧ optLatch Config.f28 = false ∧
    Config.f28.dataWidth = 8 ∧ (∀ i, i < 8 → nth Config.f28.dataPins i ≠ 0) ∧
    (∀ i, i < Config.f28.addrWidth → nth Config.f28.addrPins i ≠ 0) ∧
    (bench .tristate 1 (.idealRom [(5, 0xAA#8)])).target = .idealRom [(5, 0xAA#8)] :=
  ⟨bench_inv 1 _ (by decide), rfl, rfl, rfl, by decide, by decide, by decide, by decide, rfl⟩

/-- The index of a payload byte at both ends of its range. -/
theorem witness_TransferBlockFormat : 0 < 128 ∧ 127 < 128 := by decide

/-- No resend, the source's three (S8), and the most below the ceiling. -/
theorem witness_TransferRetransmits : (XferParams.xmodem true none).wf = true ∧ 0 < (XferParams.xmodem true none).maxAttempts ∧
    3 < (XferParams.xmodem true none).maxAttempts ∧ 9 < (XferParams.xmodem true none).maxAttempts := by decide

/-- A ceiling of 4: three more bytes after the first end byte are the most it allows, the next one finds it reached; with no
ceiling a thousand bytes are as good as none. -/
theorem witness_TransferFinishes :
    let q := XferParams.xmodem true (some 4)
    q.wf = true ∧ q.eotCeiling = some 4 ∧ (∀ b ∈ [q.nak, 0x00#8, q.eot], b ≠ q.ack ∧ b ≠ q.can) ∧
    1 + [q.nak, 0x00#8, q.eot].length ≤ 4 ∧ 4 ≤ 4 ∧ q.nak ≠ q.ack ∧ q.nak ≠ q.can ∧
    (XferParams.xmodem true none).wf = true ∧ ∀ c, (XferParams.xmodem true none).eotCeiling = some c → 1 + 1000 ≤ c :=
  ⟨by decide, rfl, by decide, by decide, by decide, by decide, by decide, by decide, nofun⟩

end Sys2Proof.Tests
end

section
/-! SUPPORT. The trace explains the pins (spec/00_scope.md R15, spec/10_state.md R27 to R30): every request appends events
that name socket pins only and sample inputs only, and does to the pins what those events do. -/

namespace Sys2Proof.Machine

/-! One step, and what `TraceInv` asks of the events it appends. -/

/-- What a step can do: wait at an idle port, run the request a word decodes to, or answer an illegal word (R82, R86). -/
theorem step_cases {s t : State} (h : step s = .next t) :
    (s.requests = [] ∧ t = s) ∨ ∃ w rest, s.requests = w :: rest ∧
      ((∃ i, decode w = .ok i ∧ exec i { s with requests := rest } = .next t) ∨
        ((∃ e, decode w = .error e) ∧ t = { s with requests := rest }.respond .errOp 0)) := by
  unfold step State.accept at h
  cases hr : s.requests with
  | nil =>
    rw [hr] at h
    cases h
    exact .inl ⟨rfl, rfl⟩
  | cons w rest =>
    refine .inr ⟨w, rest, rfl, ?_⟩
    simp only [hr] at h
    cases hd : decode w with
    | ok i =>
      rw [hd] at h
      exact .inl ⟨i, rfl, h⟩
    | error e =>
      rw [hd] at h
      cases h
      exact .inr ⟨⟨e, rfl⟩, rfl⟩

/-- `es`, run from pins `x`, names socket pins only and samples inputs only: what `TraceInv` asks of a whole trace, asked of
a part of one. -/
structure EventsSound (x : Pins) (es : List Event) : Prop where
  inSocket : ∀ e ∈ es, eventInSocket e = true
  inputsOnly : ∀ T p l U, es = T ++ Event.smp p l :: U → PinFile.get (T.foldl Pins.apply x).dir p = false

theorem EventsSound.nil (x : Pins) : EventsSound x [] := ⟨by simp, by simp⟩

/-- Sound events after sound events: the second list starts from the pins the first one leaves. -/
theorem EventsSound.append {x : Pins} {es fs : List Event} (h : EventsSound x es)
    (h' : EventsSound (es.foldl Pins.apply x) fs) : EventsSound x (es ++ fs) := by
  refine ⟨fun e he => (List.mem_append.mp he).elim (h.inSocket e) (h'.inSocket e), fun T p l U hT => ?_⟩
  rcases List.append_eq_append_iff.mp hT with ⟨V, rfl, hf⟩ | ⟨V, he, hV⟩
  · rw [List.foldl_append]
    exact h'.inputsOnly V p l U hf
  · cases V with
    | nil =>
      rw [List.append_nil] at he
      exact he ▸ h'.inputsOnly [] p l U hV.symm
    | cons e V =>
      cases hV
      exact h.inputsOnly T p l V he

/-- Writes to pins of the socket, and delays: no sample. -/
def SocketWrites (es : List Event) : Prop := ∀ e ∈ es, eventInSocket e = true ∧ notSample e = true

theorem SocketWrites.append {es fs : List Event} (h : SocketWrites es) (h' : SocketWrites fs) :
    SocketWrites (es ++ fs) := List.forall_mem_append.mpr ⟨h, h'⟩

theorem socketWrites_dly (k : DelayKind) : SocketWrites [.dly k] := by simp [SocketWrites, eventInSocket, notSample]

/-- Writes need no condition on the pins they start from. -/
theorem SocketWrites.sound {es : List Event} (h : SocketWrites es) (x : Pins) : EventsSound x es :=
  ⟨fun e he => (h e he).1, fun T p l U hT => absurd (h (.smp p l) (by simp [hT])).2 (by simp [notSample])⟩

/-- Events that set no direction need only sample pins that are inputs before them. -/
theorem eventsSound_of_noDir (x : Pins) (es : List Event) (hr : ∀ e ∈ es, eventInSocket e = true)
    (hd : ∀ p o, Event.dir p o ∉ es) (hs : ∀ p l, Event.smp p l ∈ es → PinFile.get x.dir p = false) :
    EventsSound x es := by
  refine ⟨hr, fun T p l U h => ?_⟩
  have hT : ∀ q o, Event.dir q o ∉ T := fun q o hq => hd q o (by simp [h, hq])
  rw [foldl_dir_none T x hT]
  exact hs p l (by simp [h])

/-- A state reached by sound events keeps the trace invariant. -/
theorem traceInv_extend {s t : State} {es : List Event} (hs : TraceInv s) (he : EventsSound s.pins es)
    (ht : t.trace = s.trace ++ es) (hp : t.pins = es.foldl Pins.apply s.pins) : TraceInv t := by
  have h0 : s.trace.foldl Pins.apply Pins.reset = s.pins := hs.pins
  have hsound : EventsSound Pins.reset t.trace :=
    ht ▸ EventsSound.append ⟨hs.inSocket, hs.inputsOnly⟩ (h0.symm ▸ he)
  refine ⟨?_, hsound.inSocket, hsound.inputsOnly⟩
  show replay t.trace = t.pins
  rw [replay, ht, List.foldl_append, h0, hp]

/-- A block just reset has an empty trace, and the pins of reset (R40). -/
theorem resetWith_traceInv (cfg : Config) (tgt : Target) : TraceInv (State.resetWith cfg tgt) :=
  ⟨rfl, (EventsSound.nil Pins.reset).inSocket, (EventsSound.nil Pins.reset).inputsOnly⟩

/-! The pins the event sequences name are pins of the socket. -/

@[simp] theorem eventInSocket_dir (p : Nat) (o : Level) :
    eventInSocket (.dir p o) = true ↔ 1 ≤ p ∧ p ≤ zifPins := by simp [eventInSocket]
@[simp] theorem eventInSocket_drv (p : Nat) (l : Level) :
    eventInSocket (.drv p l) = true ↔ 1 ≤ p ∧ p ≤ zifPins := by simp [eventInSocket]
@[simp] theorem eventInSocket_smp (p : Nat) (l : Level) :
    eventInSocket (.smp p l) = true ↔ 1 ≤ p ∧ p ≤ zifPins := by simp [eventInSocket]

/-- Pins of the socket made outputs (R124). -/
theorem outEvents_writes (v : Level) (ps : List Nat) (hr : ∀ p ∈ ps, 1 ≤ p ∧ p ≤ zifPins) :
    SocketWrites (ps.flatMap (outEvents v)) := by
  intro e he
  obtain ⟨p, hp, he⟩ := List.mem_flatMap.mp he
  simp only [outEvents, List.mem_cons, List.not_mem_nil, or_false] at he
  rcases he with rfl | rfl <;> simpa [notSample] using hr p hp

/-- Pins of the socket made inputs (R125). -/
theorem inEvents_writes (u : Level) (ps : List Nat) (hr : ∀ p ∈ ps, 1 ≤ p ∧ p ≤ zifPins) :
    SocketWrites (ps.flatMap (inEvents u)) := by
  intro e he
  obtain ⟨p, hp, he⟩ := List.mem_flatMap.mp he
  simp only [inEvents, List.mem_cons, List.not_mem_nil, or_false] at he
  rcases he with rfl | rfl <;> simpa [notSample] using hr p hp

/-- The pin of an indexed entry of a list is a pin of the list. -/
theorem isPinOf_nth (P : Profile) (L : List Nat) (i p : Nat) (h : translatePin P (nth L i) = some p) :
    IsPinOf P L p := by
  refine ⟨nth L i, nth_mem L i fun h0 => ?_, h⟩
  rw [h0] at h
  cases h

section
variable {P : Profile} (hw : Profile.wf P = true)
include hw

theorem addr_range {p : Nat} (h : IsPinOf P P.addrPins p) : 1 ≤ p ∧ p ≤ zifPins :=
  isPinOf_range P hw P.addrPins (fun k hk => by simp [allPins, hk]) p h

theorem data_range {p : Nat} (h : IsPinOf P P.dataPins p) : 1 ≤ p ∧ p ≤ zifPins :=
  isPinOf_range P hw P.dataPins (fun k hk => by simp [allPins, hk]) p h

/-- The pins of a list of a well-formed profile are pins of the socket (R122 (a)). -/
theorem physPins_range (L : List Nat) (hL : ∀ k ∈ L, k ∈ allPins P) : ∀ p ∈ physPins P L, 1 ≤ p ∧ p ≤ zifPins :=
  fun p hp => isPinOf_range P hw L hL p ((mem_physPins P L p).mp hp)

/-- The drive of an address pin, or of a role that has one. -/
theorem roleDrive_writes (k : Nat) (hk : ∀ p, translatePin P k = some p → IsPinOf P P.addrPins p) (v : Level) :
    SocketWrites (roleDrive P k v) := by
  intro e he
  obtain ⟨p, hp, rfl⟩ := (mem_roleDrive P k v e).mp he
  exact ⟨(eventInSocket_drv p v).mpr (addr_range hw (hk p hp)), rfl⟩

/-- Cycles of the auxiliary clock (R202). -/
theorem clockEvents_writes (n : Nat) : SocketWrites (clockEvents P n) := by
  intro e he
  rcases mem_clockEvents P n e he with ⟨p, v, hp, rfl⟩ | rfl
  · exact ⟨(eventInSocket_drv p v).mpr (addr_range hw (isPinOf_nth P P.addrPins 3 p hp)), rfl⟩
  · exact ⟨rfl, rfl⟩

/-- SETUP's configuration writes and waits (R160). -/
theorem setupEvents_writes : SocketWrites (setupEvents P) :=
  ((((outEvents_writes _ _ (physPins_range hw P.loPins fun k hk => by simp [allPins, hk])).append
    (outEvents_writes _ _ (physPins_range hw P.hiPins fun k hk => by simp [allPins, hk]))).append
    (outEvents_writes _ _ (physPins_range hw P.addrPins fun k hk => by simp [allPins, hk]))).append
    (inEvents_writes _ _ (physPins_range hw P.dataPins fun k hk => by simp [allPins, hk]))).append
    (socketWrites_dly .settle)

/-- The pin of SDI, if it has one, is a pin of the socket. -/
theorem sdi_range : ∀ p ∈ physPins P [roleSdi P], 1 ≤ p ∧ p ≤ zifPins := by
  intro p hp
  obtain ⟨k, hk, hp⟩ := (mem_physPins P _ p).mp hp
  rw [List.mem_singleton.mp hk] at hp
  exact data_range hw (isPinOf_nth P P.dataPins 0 p hp)

/-- The entry sequence writes and waits up to its first exchange (R208). -/
theorem prepareEvents_writes (r : Nat) : SocketWrites (prepareEvents P r) :=
  have role : ∀ i v, SocketWrites (roleDrive P (nth P.addrPins i) v) := fun i =>
    roleDrive_writes hw _ (isPinOf_nth P P.addrPins i)
  ((((((role 0 false).append (role 2 true)).append (clockEvents_writes hw r)).append (role 2 false)).append
    (clockEvents_writes hw r)).append (socketWrites_dly .ispSettle)).append (inEvents_writes true _ (sdi_range hw))

/-- The address drives of a parallel read (R181). -/
theorem addressEvents_writes (a : Arg) : SocketWrites (addressEvents P a) := by
  intro e he
  obtain ⟨z, hz, he⟩ := List.mem_flatMap.mp he
  exact roleDrive_writes hw z.1 (fun p hp => ⟨z.1, List.fst_mem_of_mem_zipIdx hz, hp⟩) _ e he

/-! The events that sample are sound where the sampled pins are inputs. -/

/-- The part of the entry sequence before the exchanges leaves SDI an input (R208, R211). -/
theorem prepareEvents_sdi_input (x : Pins) (r p : Nat) (hp : translatePin P (roleSdi P) = some p) :
    PinFile.get ((prepareEvents P r).foldl Pins.apply x).dir p = false := by
  have hm : p ∈ physPins P [roleSdi P] := by simp [physPins, hp]
  rw [prepareEvents, List.foldl_append, (foldl_inEvents _ true _ (sdi_range hw) p).1, if_pos hm]

/-- Exchanges sample SDI and nothing else, and set no direction (R206). -/
theorem serialEvents_sound (x : Pins) (es : List Event) (hs : SerialEvents P es)
    (hx : ∀ p, translatePin P (roleSdi P) = some p → PinFile.get x.dir p = false) : EventsSound x es := by
  have addr : ∀ i p v, translatePin P (nth P.addrPins i) = some p → eventInSocket (.drv p v) = true := fun i p v h =>
    (eventInSocket_drv p v).mpr (addr_range hw (isPinOf_nth P P.addrPins i p h))
  refine eventsSound_of_noDir x es (fun e he => ?_) (fun p o he => ?_) fun p l he => ?_
  · rcases hs e he with ⟨p, v, h, rfl⟩ | ⟨p, v, h, rfl⟩ | ⟨p, v, h, rfl⟩ | ⟨p, v, h, rfl⟩ | rfl
    · exact addr 1 p v h
    · exact addr 0 p v h
    · exact addr 3 p v h
    · exact (eventInSocket_smp p v).mpr (data_range hw (isPinOf_nth P P.dataPins 0 p h))
    · rfl
  · rcases hs _ he with ⟨_, _, _, h⟩ | ⟨_, _, _, h⟩ | ⟨_, _, _, h⟩ | ⟨_, _, _, h⟩ | h <;> cases h
  · rcases hs _ he with ⟨_, _, _, h⟩ | ⟨_, _, _, h⟩ | ⟨_, _, _, h⟩ | ⟨q, v, hq, h⟩ | h
    case inr.inr.inr.inl =>
      cases h
      exact hx p hq
    all_goals cases h

/-- The whole entry sequence, from any pins: SDI is made an input before the first exchange (R208). -/
theorem entryEvents_sound (x : Pins) (cfg : Config) (e0 e1 e2 e3 : Byte) :
    EventsSound x (entryEvents P cfg e0 e1 e2 e3) :=
  ((prepareEvents_writes hw cfg.ispRstCycles).sound x).append <|
    serialEvents_sound hw _ _ (frameEvents_serial P _ _ _ _ _ _ _ _ _) (prepareEvents_sdi_input hw x cfg.ispRstCycles)

/-- A parallel read drives address pins and samples data pins (R181, R183). -/
theorem readEvents_sound (x : Pins) (a : Arg) (es : List Event) (ho : OnlySamples P es)
    (hx : ∀ p, IsPinOf P P.dataPins p → PinFile.get x.dir p = false) :
    EventsSound x (addressEvents P a ++ [.dly .prop] ++ es) := by
  have hd : ((addressEvents P a ++ [Event.dly .prop]).foldl Pins.apply x).dir = x.dir := by
    simpa using read_dir P a x [] (by simp [OnlySamples])
  have address := ((addressEvents_writes hw a).append (socketWrites_dly .prop)).sound x
  refine address.append (eventsSound_of_noDir _ es (fun e he => ?_) (fun p o he => ?_) fun p l he => ?_)
  · obtain ⟨i, p, l, -, hp, rfl⟩ := ho e he
    exact (eventInSocket_smp p l).mpr (data_range hw (isPinOf_nth P P.dataPins i p hp))
  · obtain ⟨i, q, l, -, -, h⟩ := ho _ he
    cases h
  · obtain ⟨i, q, l', -, hp, h⟩ := ho _ he
    cases h
    rw [hd]
    exact hx p (isPinOf_nth P P.dataPins i p hp)

end

/-- TRISTATE writes the 40 pins of the socket (R170). -/
theorem tristateEvents_writes : SocketWrites tristateEvents := by
  unfold SocketWrites
  decide

/-- `aux_clock` is part of an exchange: drives of XCLK and delays. -/
theorem clockEvents_serial (P : Profile) (n : Nat) : SerialEvents P (clockEvents P n) := fun e he =>
  (mem_clockEvents P n e he).elim (fun h => .inr (.inr (.inl h))) fun h => .inr (.inr (.inr (.inr h)))

/-! Every request, and every step. -/

/-- The active profile of a state that meets the invariant is well-formed. -/
theorem Inv.profile_wf {s : State} (hI : Inv s) {P : Profile} (hP : s.profile? = some P) : Profile.wf P = true :=
  wf_of_mem s.cfg P hI.params (profile_mem s P hP)

/-- Where the ISP requests are accepted, SDI is an input (R201). -/
theorem Inv.sdi_input {s : State} (hI : Inv s) {P : Profile} (hP : s.profile? = some P) (hi : isIsp P = true)
    (hs : s.st = .ready ∨ s.st = .faulted) (p : Nat) (hp : translatePin P (roleSdi P) = some p) :
    PinFile.get s.pins.dir p = false :=
  have hst : s.st ≠ .tristate := by rcases hs with h | h <;> simp [h]
  ((hI.isp hst P hP hi).sdi p hp).1

/-- What a request appends to the trace is sound, and is all it does to the pins. -/
theorem ExecCase.appends_sound {s t : State} {i : Instr} (hI : Inv s) (h : ExecCase s i t) :
    ∃ es, EventsSound s.pins es ∧ t.trace = s.trace ++ es ∧ t.pins = es.foldl Pins.apply s.pins := by
  cases h with
  | refused | latch | select | xlate => exact ⟨[], .nil _, by simp, rfl⟩
  | tristate => exact ⟨_, tristateEvents_writes.sound _, rfl, rfl⟩
  | setupParallel P hP => exact ⟨_, (setupEvents_writes (hI.profile_wf hP)).sound _, rfl, rfl⟩
  | setupIsp P e g hP =>
    have hw := hI.profile_wf hP
    rw [ispConclude_eq]
    exact ⟨_, ((setupEvents_writes hw).sound _).append (entryEvents_sound hw _ s.cfg _ _ _ _), rfl, rfl⟩
  | probe P e g hP =>
    rw [ispConclude_eq]
    exact ⟨_, entryEvents_sound (hI.profile_wf hP) _ s.cfg _ _ _ _, rfl, rfl⟩
  | readParallel P addr es g v hP hs hi ho =>
    have hdata := fun p hp => ((hI.parallel hs P hP hi).data p hp).1
    exact ⟨_, readEvents_sound (hI.profile_wf hP) _ addr es ho hdata, rfl, rfl⟩
  | readIsp P addr r0 r1 r2 r3 g hP hi hs =>
    exact ⟨_, serialEvents_sound (hI.profile_wf hP) _ _ (frameEvents_serial P _ _ _ _ _ _ _ _ _)
      (hI.sdi_input hP hi (.inl hs)), rfl, rfl⟩
  | xfer P b r g hP hi hs =>
    exact ⟨_, serialEvents_sound (hI.profile_wf hP) _ _ (xferEvents_serial P _ _ _) (hI.sdi_input hP hi hs), rfl, rfl⟩
  | clock P n hP hi hs =>
    exact ⟨_, serialEvents_sound (hI.profile_wf hP) _ _ (clockEvents_serial P n) (hI.sdi_input hP hi hs), rfl, rfl⟩

theorem exec_keeps_traceInv {s t : State} {i : Instr} (hI : Inv s) (hT : TraceInv s) (h : exec i s = .next t) :
    TraceInv t := by
  obtain ⟨es, hes, htrace, hpins⟩ := (exec_cases i s t h).appends_sound hI
  exact traceInv_extend hT hes htrace hpins

/-- Settles O49: reset has an empty trace, and each step appends sound events. -/
theorem traceExplainsPins : Obligations.TraceExplainsPins := by
  refine ⟨resetWith_traceInv, fun s t hI hT h => ?_⟩
  rcases step_cases h with ⟨-, rfl⟩ | ⟨w, rest, -, ⟨i, -, h⟩ | ⟨-, rfl⟩⟩
  · exact hT
  · exact exec_keeps_traceInv (inv_congr s { s with requests := rest } hI rfl rfl rfl rfl rfl)
      (traceInv_extend hT (.nil _) (by simp) rfl) h
  · exact traceInv_extend hT (.nil _) (by simp) rfl

end Sys2Proof.Machine
end

section
/-! SUPPORT. An ideal ROM is never written (spec/00_scope.md R14, spec/20_memory.md R50, R67): one lemma per procedure that
samples. Every other procedure leaves the target alone by its `did` lemma. -/

namespace Sys2Proof.Machine

section
variable {s : State} {M : Memory} (hM : s.target = .idealRom M)
include hM

/-- An ideal ROM answers a sample and stays as it is (R67). -/
theorem answer_keeps_idealRom (p : Nat) : (Target.answer s p).2 = .idealRom M := by
  unfold Target.answer
  rw [hM]
  dsimp only
  split <;> rfl

theorem pinGet_keeps_idealRom (P : Profile) (k : Nat) : (pinGet P k s).2.target = .idealRom M := by
  unfold pinGet
  split
  · exact hM
  · exact answer_keeps_idealRom hM _

/-! The ISP engine. -/

theorem xferBit_keeps_idealRom (P : Profile) (b : Level) : (xferBit P b s).2.target = .idealRom M := by
  have hraise : (xferRaise P b s).target = .idealRom M := by simp [xferRaise, pinSet_did, auxClock_did, hM]
  simp [xferBit, pinSet_did, pinGet_keeps_idealRom hraise]

theorem xferBits_keeps_idealRom (P : Profile) (bits : List Level) (r : Byte) :
    (xferBits P bits r s).2.target = .idealRom M := by
  induction bits generalizing r s with
  | nil => exact hM
  | cons b rest ih => exact ih (xferBit_keeps_idealRom hM P b) _

theorem xfer_keeps_idealRom (P : Profile) (b : Byte) : (xfer P b s).2.target = .idealRom M :=
  xferBits_keeps_idealRom hM P _ _

theorem xferFrame_keeps_idealRom (P : Profile) (c0 c1 c2 c3 : Byte) :
    (xferFrame P c0 c1 c2 c3 s).2.target = .idealRom M := by
  have h0 := xfer_keeps_idealRom hM P c0
  have h1 := xfer_keeps_idealRom h0 P c1
  have h2 := xfer_keeps_idealRom h1 P c2
  exact xfer_keeps_idealRom h2 P c3

theorem ispEnter_keeps_idealRom (P : Profile) : (ispEnter P s).target = .idealRom M := by
  have hprep : (ispPrepare P s).target = .idealRom M := by rw [ispPrepare_did, did_target, hM]
  rw [ispEnter, ispConclude_eq]
  exact xferFrame_keeps_idealRom hprep P _ _ _ _

/-! The parallel read. -/

theorem samplePins_keeps_idealRom (P : Profile) (ks : List Nat) (b : Byte) :
    (samplePins P ks b s).2.target = .idealRom M := by
  induction ks generalizing b s with
  | nil => exact hM
  | cons k rest ih => exact ih (pinGet_keeps_idealRom hM P k) _

theorem sampleByte_keeps_idealRom (P : Profile) : (sampleByte P s).2.target = .idealRom M :=
  samplePins_keeps_idealRom hM P _ _

theorem converge_keeps_idealRom (P : Profile) (n : Nat) (prev : Byte) :
    (converge P n prev s).2.target = .idealRom M := by
  induction n generalizing prev s with
  | zero => exact hM
  | succ m ih =>
    have hpass := sampleByte_keeps_idealRom hM P
    unfold converge
    split
    · exact hpass
    · exact ih hpass _

theorem parallelRead_keeps_idealRom (P : Profile) (a : Arg) : (parallelRead P a s).2.target = .idealRom M := by
  have haddr : ((setAddress P a s).delay .prop).target = .idealRom M := by
    rw [delay_target, setAddress_did, did_target, hM]
  exact converge_keeps_idealRom (sampleByte_keeps_idealRom haddr P) P _ _

theorem readByte_keeps_idealRom (P : Profile) (a : Arg) : (readByte P a s).2.target = .idealRom M := by
  unfold readByte
  split
  · exact xferFrame_keeps_idealRom hM P _ _ _ _
  · exact parallelRead_keeps_idealRom hM P a

end

/-! Every request. -/

/-- A request on the active profile that has a next state ran on some profile. -/
theorem withProfile_next {s t : State} {f : Profile → Out} (h : s.withProfile f = .next t) :
    ∃ P, s.profile? = some P ∧ f P = .next t := by
  cases hP : s.profile? with
  | none =>
    rw [withProfile_none s f hP] at h
    cases h
  | some P => exact ⟨P, rfl, withProfile_some s f P hP ▸ h⟩

/-- The next state of a request turned away. -/
theorem raise_next {s t : State} {r : Status} (h : raise r s = .next t) : t = s.respond r 0 := by
  cases h
  rfl

theorem exec_keeps_idealRom {s t : State} {M : Memory} {i : Instr} (hM : s.target = .idealRom M)
    (h : exec i s = .next t) : t.target = .idealRom M := by
  cases i with
  | tristate =>
    rw [exec_tristate] at h
    cases h
    simpa using hM
  | select idx =>
    rw [exec_select] at h
    cases h
    split_ifs <;> exact hM
  | setup =>
    simp only [exec, execSetup] at h
    split at h
    · exact raise_next h ▸ hM
    obtain ⟨P, -, h⟩ := withProfile_next h
    have hconf : (configure P s).target = .idealRom M := by rw [configure_did, setSt_target, did_target, hM]
    split at h
    · exact raise_next h ▸ hM
    split at h <;> cases h
    · exact ispEnter_keeps_idealRom (s := (configure P s).setSt .ispHandshake) hconf P
    · exact hconf
  | read a =>
    simp only [exec, execRead] at h
    split at h
    · exact raise_next h ▸ hM
    obtain ⟨P, -, h⟩ := withProfile_next h
    cases h
    exact readByte_keeps_idealRom hM P a
  | ispProbe =>
    obtain ⟨P, -, h⟩ := withProfile_next h
    split at h
    · cases h
      exact ispEnter_keeps_idealRom (s := s.setSt .ispHandshake) hM P
    · exact raise_next h ▸ hM
  | ispXfer b =>
    obtain ⟨P, -, h⟩ := withProfile_next h
    split at h
    · cases h
      exact xfer_keeps_idealRom hM P b
    · exact raise_next h ▸ hM
  | ispClock n =>
    obtain ⟨P, hP, -⟩ := withProfile_next h
    rw [exec_ispClock s P n hP] at h
    cases h
    split_ifs <;> exact hM
  | xlate k =>
    obtain ⟨P, hP, -⟩ := withProfile_next h
    rw [exec_xlate s P k hP] at h
    cases h
    split_ifs <;> exact hM

/-- Settles O44: each request keeps an ideal ROM as it is, and the request port does not touch the target. -/
theorem targetMemoryIsNeverWritten : Obligations.TargetMemoryIsNeverWritten := by
  intro s t M hM h
  rcases step_cases h with ⟨-, rfl⟩ | ⟨w, rest, -, ⟨i, -, h⟩ | ⟨-, rfl⟩⟩
  · exact hM
  · exact exec_keeps_idealRom (s := { s with requests := rest }) hM h
  · exact hM

end Sys2Proof.Machine
end

section
/-! SUPPORT. Who writes what, request by request (spec/10_state.md R22, R24, R41), and that every request presented is
answered (spec/60_exceptions.md R282). -/

namespace Sys2Proof.Machine

/-! Where an entry sequence ends, and what its end leaves as it was (R208, R209). -/

/-- An entry sequence ends in `Ready` or in `Faulted` (R208, R209). -/
theorem ispConclude_st (e : Echoes) (s : State) :
    (ispConclude e s).st = .ready ∨ (ispConclude e s).st = .faulted := by
  rw [ispConclude_eq, respond_st, setSt_st]
  split
  · exact .inl rfl
  · exact .inr rfl

@[simp] theorem ispConclude_pins (e : Echoes) (s : State) : (ispConclude e s).pins = s.pins := by
  rw [ispConclude_eq, respond_pins, setSt_pins]
@[simp] theorem ispConclude_cfg (e : Echoes) (s : State) : (ispConclude e s).cfg = s.cfg := by
  rw [ispConclude_eq, respond_cfg, setSt_cfg]
@[simp] theorem ispConclude_profile (e : Echoes) (s : State) : (ispConclude e s).profile? = s.profile? := by
  rw [ispConclude_eq, respond_profile, setSt_profile]
@[simp] theorem ispConclude_sel (e : Echoes) (s : State) : (ispConclude e s).sel = s.sel := by
  rw [ispConclude_eq, respond_sel, setSt_sel]
@[simp] theorem ispConclude_refused (e : Echoes) (s : State) : (ispConclude e s).refused = s.refused := by
  rw [ispConclude_eq, respond_refused, setSt_refused]
@[simp] theorem ispConclude_requests (e : Echoes) (s : State) : (ispConclude e s).requests = s.requests := by
  rw [ispConclude_eq, respond_requests, setSt_requests]
@[simp] theorem ispConclude_trace (e : Echoes) (s : State) : (ispConclude e s).trace = s.trace := by
  rw [ispConclude_eq, respond_trace, setSt_trace]
@[simp] theorem ispConclude_responses (e : Echoes) (s : State) :
    (ispConclude e s).responses = s.responses ++
      [{ status := if e.e2 = s.cfg.ispSentinel then .ok else .ispFail, val := packEchoes e.e0 e.e1 e.e2 e.e3 }] := by
  rw [ispConclude_eq, respond_responses, setSt_responses]

/-! One lemma per register: what a request can do to it. -/

section
variable {s t : State} {i : Instr} (h : ExecCase s i t)
include h

/-- The transitions of `st` (R24). -/
theorem ExecCase.st_transition (hst : t.st ≠ s.st) :
    (i = .tristate ∧ t.st = .tristate) ∨
    ∃ P, s.profile? = some P ∧
      ((i = .setup ∧ s.st = .tristate ∧ isIsp P = false ∧ t.st = .ready) ∨
       (i = .setup ∧ s.st = .tristate ∧ isIsp P = true ∧ (t.st = .ready ∨ t.st = .faulted)) ∨
       (i = .ispProbe ∧ isIsp P = true ∧ s.st = .ready ∧ t.st = .faulted) ∨
       (i = .ispProbe ∧ isIsp P = true ∧ s.st = .faulted ∧ t.st = .ready)) := by
  cases h with
  | refused | latch | select | xlate | readParallel | readIsp | xfer | clock => simp at hst
  | tristate => exact .inl ⟨rfl, rfl⟩
  | setupParallel P hP hs hl hi => exact .inr ⟨P, hP, .inl ⟨rfl, hs, hi, rfl⟩⟩
  | setupIsp P e g hP hs hl hi => exact .inr ⟨P, hP, .inr (.inl ⟨rfl, hs, hi, ispConclude_st e _⟩)⟩
  | probe P e g hP hi hs =>
    refine .inr ⟨P, hP, .inr (.inr ?_)⟩
    rcases hs with hs | hs <;> rcases ispConclude_st e _ with ht | ht
    · exact absurd (ht.trans hs.symm) hst
    · exact .inl ⟨rfl, hi, hs, ht⟩
    · exact .inr ⟨rfl, hi, hs, ht⟩
    · exact absurd (ht.trans hs.symm) hst

/-- SELECT alone writes `sel`, in `Tristate` (R22, R150). -/
theorem ExecCase.sel_writer (hsel : t.sel ≠ s.sel) : (∃ idx, i = .select idx) ∧ s.st = .tristate := by
  cases h with
  | select idx hs => exact ⟨⟨idx, rfl⟩, hs⟩
  | _ => simp at hsel

/-- SETUP alone writes the `refused` mark, and sets it (R35). -/
theorem ExecCase.refused_writer (hr : t.refused ≠ s.refused) : i = .setup ∧ t.refused = true := by
  cases h with
  | latch => exact ⟨rfl, rfl⟩
  | _ => simp at hr

/-- No request writes the parameters (R41 (e)). -/
theorem ExecCase.cfg_eq : t.cfg = s.cfg := by
  cases h <;> simp

theorem ExecCase.requests_eq : t.requests = s.requests := by
  cases h <;> simp

/-- Directions are written by SETUP, TRISTATE and ISP_PROBE alone (R22). -/
theorem ExecCase.dir_writer (hd : t.dir ≠ s.dir) : i = .setup ∨ i = .tristate ∨ i = .ispProbe := by
  cases h with
  | refused | latch | select | xlate => exact absurd rfl hd
  | tristate => exact .inr (.inl rfl)
  | setupParallel | setupIsp => exact .inl rfl
  | probe => exact .inr (.inr rfl)
  | readParallel P addr es g v hP hs hi ho => exact absurd (read_dir P addr s.pins es ho) hd
  | readIsp P => exact absurd (serial_dir P _ (frameEvents_serial P _ _ _ _ _ _ _ _ _) s.pins) hd
  | xfer P => exact absurd (serial_dir P _ (xferEvents_serial P _ _ _) s.pins) hd
  | clock P => exact absurd (clock_dir P _ s.pins) hd

/-- Besides the writers of directions, READ, ISP_XFER and ISP_CLOCK write levels (R22). -/
theorem ExecCase.lvl_writer (hl : t.lvl ≠ s.lvl) :
    i = .setup ∨ i = .tristate ∨ i = .ispProbe ∨ (∃ a, i = .read a) ∨ (∃ b, i = .ispXfer b) ∨ ∃ n, i = .ispClock n := by
  cases h with
  | refused | latch | select | xlate => exact absurd rfl hl
  | tristate | setupParallel | setupIsp | probe | readParallel | readIsp | xfer | clock => simp

/-- The trace is only ever extended (R15). -/
theorem ExecCase.trace_extends : ∃ es, t.trace = s.trace ++ es := by
  cases h <;> simp

/-- Every request is answered by one response (R82). -/
theorem ExecCase.responds : ∃ r, t.responses = s.responses ++ [r] := by
  cases h <;> simp

/-- `sel` stays an index of the catalog (R20). -/
theorem ExecCase.sel_lt (hsel : s.sel < s.cfg.catalog.length) : t.sel < t.cfg.catalog.length := by
  cases h with
  | select idx hs hidx => exact hidx
  | _ => simpa using hsel

end

/-- Settles O43: the transitions of each case of a request. -/
theorem sequencerTransitions : Obligations.SequencerTransitions :=
  fun i s t h hst => (exec_cases i s t h).st_transition hst

/-- SETUP, TRISTATE and ISP_PROBE alone write `st` (R22). -/
theorem ExecCase.st_writer {s t : State} {i : Instr} (h : ExecCase s i t) (hst : t.st ≠ s.st) :
    i = .setup ∨ i = .tristate ∨ i = .ispProbe := by
  rcases h.st_transition hst with ⟨hi, -⟩ | ⟨P, -, ⟨hi, -⟩ | ⟨hi, -⟩ | ⟨hi, -⟩ | ⟨hi, -⟩⟩ <;> simp [hi]

/-- Settles O42: one lemma per register, over the cases of a request. -/
theorem registersAreWrittenBy : Obligations.RegistersAreWrittenBy := by
  intro i s t h
  have hc := exec_cases i s t h
  refine ⟨hc.st_writer, hc.sel_writer, hc.refused_writer, hc.cfg_eq, hc.requests_eq, hc.dir_writer,
    fun hl h1 h2 h3 => ?_, hc.trace_extends⟩
  simpa [h1, h2, h3] using hc.lvl_writer hl

/-! With an active profile every request has a next state. -/

/-- SETUP with an active profile is answered, whatever its state, options and flavour (R160, R161, R275). -/
theorem exec_setup_next {s : State} {P : Profile} (hP : s.profile? = some P) : ∃ t, exec .setup s = .next t := by
  by_cases hs : s.st = .tristate
  · cases hl : optLatch P with
    | true => exact ⟨_, exec_setup_latch s P hP hs hl⟩
    | false =>
      cases hi : isIsp P with
      | true =>
        obtain ⟨e, g, h, -⟩ := exec_setup_isp s P hP hs hl hi
        exact ⟨_, h⟩
      | false => exact ⟨_, exec_setup_parallel s P hP hs hl hi⟩
  · exact ⟨_, exec_setup_refused s hs⟩

/-- No request stops a block that has an active profile (R282). -/
theorem exec_next {s : State} {P : Profile} (hP : s.profile? = some P) (i : Instr) : ∃ t, exec i s = .next t := by
  cases i with
  | tristate => exact ⟨_, exec_tristate s⟩
  | select idx => exact ⟨_, exec_select s idx⟩
  | setup => exact exec_setup_next hP
  | read a =>
    by_cases hs : s.st = .ready
    · simp only [exec, execRead, hs, ne_eq, not_true_eq_false, if_false, withProfile_some s _ P hP]
      exact ⟨_, rfl⟩
    · exact ⟨_, exec_read_refused s a hs⟩
  | ispProbe =>
    cases ha : ispAccepts P s with
    | true =>
      obtain ⟨e, g, h, -⟩ := exec_ispProbe s P hP ha
      exact ⟨_, h⟩
    | false => exact ⟨_, exec_ispProbe_refused s P hP ha⟩
  | ispXfer b =>
    cases ha : ispAccepts P s with
    | true =>
      obtain ⟨r, g, h, -⟩ := exec_ispXfer s P b hP ha
      exact ⟨_, h⟩
    | false => exact ⟨_, exec_ispXfer_refused s P b hP ha⟩
  | ispClock n => exact ⟨_, exec_ispClock s P n hP⟩
  | xlate k => exact ⟨_, exec_xlate s P k hP⟩

/-- A step runs the request the next word decodes to (R82, R86). -/
theorem step_of_decode_ok {s : State} {w : ReqWord} {rest : List ReqWord} {i : Instr} (hr : s.requests = w :: rest)
    (hd : decode w = .ok i) : step s = exec i { s with requests := rest } := by
  simp only [step, State.accept, hr, hd]

/-- A step answers an illegal word `ERR_OP` (R87, R88). -/
theorem step_of_decode_error {s : State} {w : ReqWord} {rest : List ReqWord} {e : DecodeError}
    (hr : s.requests = w :: rest) (hd : decode w = .error e) :
    step s = .next ({ s with requests := rest }.respond .errOp 0) := by
  simp only [step, State.accept, hr, hd, answerIllegal, raise]

/-- Settles O39: an illegal word is answered at the port, and a request on an active profile has a next state, which
holds its one response. -/
theorem everyRequestIsAnswered : Obligations.EveryRequestIsAnswered := by
  intro s w rest hsel hr
  cases hd : decode w with
  | error e => exact ⟨_, _, step_of_decode_error hr hd, rfl, rfl, hsel⟩
  | ok i =>
    obtain ⟨P, hP⟩ := profile_of_lt { s with requests := rest } hsel
    obtain ⟨t, ht⟩ := exec_next hP i
    have hc := exec_cases i _ t ht
    obtain ⟨r, hresp⟩ := hc.responds
    exact ⟨t, r, (step_of_decode_ok hr hd).trans ht, hresp, hc.requests_eq, hc.sel_lt hsel⟩

end Sys2Proof.Machine
end

section
/-! SUPPORT. Every step keeps the invariant (spec/10_state.md R25, R41): how each kind of boundary state meets it, what
the event sequences leave of the pins of a configured socket, then every request. -/

namespace Sys2Proof.Machine

/-! What the invariant asks in `Tristate`, and of a configured socket of either flavour. -/

theorem inv_of_tristate {s : State} (hc : configWf s.cfg = true) (hsel : s.sel < s.cfg.catalog.length)
    (hst : s.st = .tristate) (hu : Undriven s) : Inv s where
  params := hc
  selBound := hsel
  boundary := .inl hst
  safe _ := hu
  faultedIsp h := by simp [hst] at h
  noLatch h := absurd hst h
  parallel h := by simp [hst] at h
  isp h := absurd hst h

theorem inv_of_parallel {s : State} {P : Profile} (hc : configWf s.cfg = true) (hP : s.profile? = some P)
    (hst : s.st = .ready) (hi : isIsp P = false) (hl : optLatch P = false) (hp : ParallelPins P s) : Inv s := by
  have only : ∀ Q, s.profile? = some Q → Q = P := fun Q hQ => Option.some.inj (hQ.symm.trans hP)
  refine ⟨hc, lt_of_profile s P hP, .inr (.inl hst), fun h => ?_, fun h => ?_, fun _ Q hQ => ?_, fun _ Q hQ _ => ?_,
    fun _ Q hQ hQi => ?_⟩
  · simp [hst] at h
  · simp [hst] at h
  · exact only Q hQ ▸ hl
  · exact only Q hQ ▸ hp
  · rw [only Q hQ, hi] at hQi
    cases hQi

theorem inv_of_isp {s : State} {P : Profile} (hc : configWf s.cfg = true) (hP : s.profile? = some P)
    (hst : s.st = .ready ∨ s.st = .faulted) (hi : isIsp P = true) (hl : optLatch P = false) (hp : IspPins P s) :
    Inv s := by
  have only : ∀ Q, s.profile? = some Q → Q = P := fun Q hQ => Option.some.inj (hQ.symm.trans hP)
  refine ⟨hc, lt_of_profile s P hP, .inr hst, fun h => ?_, fun _ Q hQ => ?_, fun _ Q hQ => ?_, fun _ Q hQ hQi => ?_,
    fun _ Q hQ _ => ?_⟩
  · simp [h] at hst
  · exact only Q hQ ▸ hi
  · exact only Q hQ ▸ hl
  · rw [only Q hQ, hi] at hQi
    cases hQi
  · exact only Q hQ ▸ hp

/-- Outside `Tristate` the active profile asks for no latch. -/
theorem Inv.optLatch_eq_false {s : State} (hI : Inv s) {P : Profile} (hP : s.profile? = some P)
    (hs : s.st = .ready ∨ s.st = .faulted) : optLatch P = false :=
  hI.noLatch (by rcases hs with h | h <;> simp [h]) P hP

theorem Inv.ispPins {s : State} (hI : Inv s) {P : Profile} (hP : s.profile? = some P) (hi : isIsp P = true)
    (hs : s.st = .ready ∨ s.st = .faulted) : IspPins P s :=
  hI.isp (by rcases hs with h | h <;> simp [h]) P hP hi

/-! The pins of a configured parallel socket. -/

section
variable {P : Profile} (hw : Profile.wf P = true)
include hw

/-- SETUP's configuration from tri-stated pins configures a parallel socket (R162 to R165). -/
theorem parallelPins_of_setup {s t : State} (hu : Undriven s)
    (ht : t.pins = (setupEvents P).foldl Pins.apply s.pins) : ParallelPins P t := by
  have hpins := setup_pins P hw s.pins
  rw [← ht] at hpins
  constructor <;> intro p hp <;> obtain ⟨hlo, hhi, haddr, hdata, hother⟩ := hpins p
  · exact hlo hp
  · exact hhi hp
  · exact (haddr hp).1
  · exact hdata hp
  · obtain ⟨hd, hl⟩ := hother hp
    exact ⟨hd.trans (hu p).1, hl.trans (hu p).2⟩

/-- A change of the levels of address pins alone keeps a parallel socket configured (R181). -/
theorem ParallelPins.of_addr_levels {s t : State} (hs : ParallelPins P s) (hd : t.dir = s.dir)
    (hl : ∀ p, ¬ IsPinOf P P.addrPins p → t.lvlOf p = s.lvlOf p) : ParallelPins P t := by
  have hdir : ∀ p, t.dirOf p = s.dirOf p := fun p => congrArg (PinFile.get · p) hd
  constructor <;> intro p hp <;> obtain ⟨lo, hi, -, data⟩ := wf_disjoint P hw p
  · obtain ⟨-, hn, -⟩ := lo hp
    rw [hdir, hl p hn]
    exact hs.lo p hp
  · obtain ⟨-, hn, -⟩ := hi hp
    rw [hdir, hl p hn]
    exact hs.hi p hp
  · rw [hdir]
    exact hs.addr p hp
  · obtain ⟨-, -, hn⟩ := data hp
    rw [hdir, hl p hn]
    exact hs.data p hp
  · rw [hdir, hl p fun h => hp ((isPinOf_all P p).mpr (.inr (.inr (.inl h))))]
    exact hs.other p hp

/-! The pins of a configured ISP socket. -/

theorem not_data_of_addr {p : Nat} (h : IsPinOf P P.addrPins p) : ¬ IsPinOf P P.dataPins p := fun hd =>
  have ⟨_, _, _, data⟩ := wf_disjoint P hw p
  have ⟨_, _, hn⟩ := data hd
  hn h

omit hw in
theorem not_sdi_of_not_data {p : Nat} (h : ¬ IsPinOf P P.dataPins p) : translatePin P (roleSdi P) ≠ some p := fun h' =>
  h (isPinOf_nth P P.dataPins 0 p h')

/-- SDI made an input with its pull-up on (R211); every other pin as before. -/
theorem pinIn_sdi_pins (s : State) (p : Nat) :
    (pinIn P (roleSdi P) true s).dirOf p = (if translatePin P (roleSdi P) = some p then false else s.dirOf p) ∧
    (pinIn P (roleSdi P) true s).lvlOf p = (if translatePin P (roleSdi P) = some p then true else s.lvlOf p) := by
  have hmem : p ∈ physPins P [roleSdi P] ↔ translatePin P (roleSdi P) = some p := by simp [physPins]
  obtain ⟨hd, hl⟩ := foldl_inEvents (physPins P [roleSdi P]) true s.pins (sdi_range hw) p
  simp only [hmem] at hd hl
  rw [pinIn_did, did_dirOf, did_lvlOf]
  exact ⟨hd, hl⟩

/-- SETUP's configuration from tri-stated pins, with SDI's pull-up on, configures an ISP socket (R162 to R165, R211). -/
theorem ispPins_of_setup {s : State} (hu : Undriven s) :
    IspPins P (pinIn P (roleSdi P) true (s.did (setupEvents P) s.target)) := by
  have asSetup : ∀ p, ¬ IsPinOf P P.dataPins p →
      (pinIn P (roleSdi P) true (s.did (setupEvents P) s.target)).dirOf p = (s.did (setupEvents P) s.target).dirOf p ∧
      (pinIn P (roleSdi P) true (s.did (setupEvents P) s.target)).lvlOf p =
        (s.did (setupEvents P) s.target).lvlOf p := by
    intro p hp
    obtain ⟨hd, hl⟩ := pinIn_sdi_pins hw (s.did (setupEvents P) s.target) p
    rw [hd, hl, if_neg (not_sdi_of_not_data hp), if_neg (not_sdi_of_not_data hp)]
    exact ⟨rfl, rfl⟩
  have role : ∀ i p, translatePin P (nth P.addrPins i) = some p →
      (pinIn P (roleSdi P) true (s.did (setupEvents P) s.target)).dirOf p = true ∧
      (pinIn P (roleSdi P) true (s.did (setupEvents P) s.target)).lvlOf p = false := by
    intro i p hp
    have haddr := isPinOf_nth P P.addrPins i p hp
    obtain ⟨-, -, low, -⟩ := setup_pins P hw s.pins p
    obtain ⟨hd, hl⟩ := asSetup p (not_data_of_addr hw haddr)
    rw [hd, hl]
    exact low haddr
  refine ⟨fun p hp => ?_, fun p hp => ?_, role 0, fun p hp => (role 1 p hp).1, role 2, role 3, fun p hp => ?_,
    fun p hp => ?_⟩ <;> obtain ⟨lo, hi, -, -, other⟩ := setup_pins P hw s.pins p
  · obtain ⟨-, -, hn⟩ := (wf_disjoint P hw p).1 hp
    obtain ⟨hd, hl⟩ := asSetup p hn
    rw [hd, hl]
    exact lo hp
  · obtain ⟨-, -, hn⟩ := (wf_disjoint P hw p).2.1 hp
    obtain ⟨hd, hl⟩ := asSetup p hn
    rw [hd, hl]
    exact hi hp
  · obtain ⟨hd, hl⟩ := pinIn_sdi_pins hw (s.did (setupEvents P) s.target) p
    rw [hd, hl, if_pos hp, if_pos hp]
    exact ⟨rfl, rfl⟩
  · obtain ⟨hd, hl⟩ := asSetup p fun h => hp ((isPinOf_all P p).mpr (.inr (.inr (.inr h))))
    obtain ⟨hd', hl'⟩ := other hp
    rw [hd, hl]
    exact ⟨hd'.trans (hu p).1, hl'.trans (hu p).2⟩

/-- An entry sequence keeps an ISP socket configured, whatever SDI was before it (R208, R211). -/
theorem IspPins.of_entry {s t : State} {x : Pins} {cfg : Config} {e0 e1 e2 e3 : Byte} (hs : IspPins P s)
    (hx : ∀ p, translatePin P (roleSdi P) ≠ some p →
      PinFile.get x.dir p = s.dirOf p ∧ PinFile.get x.lvl p = s.lvlOf p)
    (ht : t.pins = (entryEvents P cfg e0 e1 e2 e3).foldl Pins.apply x) : IspPins P t := by
  have entry := entry_pins P hw cfg e0 e1 e2 e3 x
  rw [← ht] at entry
  have range : ∀ i p, translatePin P (nth P.addrPins i) = some p → 1 ≤ p ∧ p ≤ zifPins := fun i p hp =>
    addr_range hw (isPinOf_nth P P.addrPins i p hp)
  refine ispPins_keep P hw s t hs (fun p => ?_) (fun p hp => ?_) (fun p hp => ?_) (fun p hp => ?_) (fun p hp => ?_)
    fun p hp => ?_
  · by_cases hr : 1 ≤ p ∧ p ≤ zifPins
    · obtain ⟨hd, -⟩ := entry p hr
      refine hd.trans ?_
      split_ifs with hp
      · rfl
      · exact (hx p hp).1
    · simp [outside_socket t p hr, outside_socket s p hr]
  · obtain ⟨-, -, sck, -⟩ := entry p (range 0 p hp)
    exact sck hp
  · obtain ⟨-, -, -, rst, -⟩ := entry p (range 2 p hp)
    exact rst hp
  · obtain ⟨-, -, -, -, xclk, -⟩ := entry p (range 3 p hp)
    have hn := not_sdi_of_not_data (not_data_of_addr hw (isPinOf_nth P P.addrPins 3 p hp))
    exact xclk hp ((hx p hn).2.trans (hs.xclk p hp).2)
  · obtain ⟨-, sdi, -⟩ := entry p (data_range hw (isPinOf_nth P P.dataPins 0 p hp))
    exact sdi hp
  · by_cases hr : 1 ≤ p ∧ p ≤ zifPins
    · obtain ⟨-, -, -, -, -, other⟩ := entry p hr
      exact (other hp).trans (hx p fun h => hp ⟨_, by simp, h⟩).2
    · rw [(outside_socket t p hr).2, (outside_socket s p hr).2]

/-- Exchanges that leave SCK and XCLK low keep an ISP socket configured (R202, R206). -/
theorem IspPins.of_serial {s t : State} {es : List Event} (hs : IspPins P s) (he : SerialEvents P es)
    (hlow : ∀ p, 1 ≤ p ∧ p ≤ zifPins → translatePin P (roleSck P) = some p ∨ translatePin P (roleXclk P) = some p →
      PinFile.get s.pins.lvl p = false → PinFile.get (es.foldl Pins.apply s.pins).lvl p = false)
    (ht : t.pins = es.foldl Pins.apply s.pins) : IspPins P t := by
  have hdir : t.dir = s.dir := (congrArg Pins.dir ht).trans (serial_dir P es he s.pins)
  have hother : ∀ p, ¬ IsPinOf P [roleSdo P, roleSck P, roleXclk P] p → t.lvlOf p = s.lvlOf p := fun p hp =>
    (congrArg (fun y : Pins => PinFile.get y.lvl p) ht).trans (serial_lvl_other P es he s.pins p hp)
  rw [← ht] at hlow
  have range : ∀ i p, translatePin P (nth P.addrPins i) = some p → 1 ≤ p ∧ p ≤ zifPins := fun i p hp =>
    addr_range hw (isPinOf_nth P P.addrPins i p hp)
  have apart := wf_rolesApart P hw
  refine ispPins_keep P hw s t hs (fun p => ?_) (fun p hp => ?_) (fun p hp => ?_) (fun p hp => ?_) (fun p hp => ?_)
    fun p hp => ?_
  · have : t.dirOf p = s.dirOf p := congrArg (PinFile.get · p) hdir
    split_ifs with hp
    · exact this.trans (hs.sdi p hp).1
    · exact this
  · exact hlow p (range 0 p hp) (.inl hp) (hs.sck p hp).2
  · refine (hother p ?_).trans (hs.rst p hp).2
    rintro ⟨k, hk, h⟩
    simp only [List.mem_cons, List.not_mem_nil, or_false] at hk
    rcases hk with rfl | rfl | rfl
    · exact apart.rstSdo p hp h
    · exact apart.rstSck p hp h
    · exact apart.rstXclk p hp h
  · exact hlow p (range 3 p hp) (.inr hp) (hs.xclk p hp).2
  · refine (hother p ?_).trans (hs.sdi p hp).2
    rintro ⟨k, hk, h⟩
    have hn : ¬ IsPinOf P P.addrPins p := fun ha => not_data_of_addr hw ha (isPinOf_nth P P.dataPins 0 p hp)
    simp only [List.mem_cons, List.not_mem_nil, or_false] at hk
    rcases hk with rfl | rfl | rfl
    · exact hn (isPinOf_nth P P.addrPins 1 p h)
    · exact hn (isPinOf_nth P P.addrPins 0 p h)
    · exact hn (isPinOf_nth P P.addrPins 3 p h)
  · refine hother p fun ⟨k, hk, h⟩ => hp ⟨k, ?_, h⟩
    simp only [List.mem_cons, List.not_mem_nil, or_false] at hk ⊢
    tauto

/-- The level of a clock role where an exchange ends, as `xfer_lvl` and `frame_lvl` give it: low if it was low. -/
theorem clock_role_low {p c : Nat} {v l : Level}
    (hp : translatePin P (roleSck P) = some p ∨ translatePin P (roleXclk P) = some p) (hl : l = false) :
    (if translatePin P (roleSck P) = some p then false
      else if translatePin P (roleSdo P) = some p then v
      else if translatePin P (roleXclk P) = some p ∧ 1 ≤ c then false else l) = false := by
  rcases hp with hp | hp
  · rw [if_pos hp]
  · have hsdo : translatePin P (roleSdo P) ≠ some p := fun h => (wf_rolesApart P hw).sdoXclk p h hp
    simp [hsdo, hl]

theorem IspPins.of_xfer {s t : State} {c : Nat} {b r : Byte} (hs : IspPins P s)
    (ht : t.pins = (xferEvents P c b r).foldl Pins.apply s.pins) : IspPins P t :=
  hs.of_serial hw (xferEvents_serial P c b r)
    (fun p hr hp hl => (xfer_lvl P (wf_rolesApart P hw) c b r _ p hr).trans (clock_role_low hw hp hl)) ht

theorem IspPins.of_frame {s t : State} {c : Nat} {b0 b1 b2 b3 r0 r1 r2 r3 : Byte} (hs : IspPins P s)
    (ht : t.pins = (frameEvents P c b0 b1 b2 b3 r0 r1 r2 r3).foldl Pins.apply s.pins) : IspPins P t :=
  hs.of_serial hw (frameEvents_serial P c b0 b1 b2 b3 r0 r1 r2 r3)
    (fun p hr hp hl => (frame_lvl P (wf_rolesApart P hw) c _ _ _ _ _ _ _ _ _ p hr).trans (clock_role_low hw hp hl)) ht

theorem IspPins.of_clock {s t : State} {n : Nat} (hs : IspPins P s)
    (ht : t.pins = (clockEvents P n).foldl Pins.apply s.pins) : IspPins P t :=
  hs.of_serial hw (clockEvents_serial P n)
    (fun p hr _ hl => by rw [clock_lvl P n _ p hr, hl, ite_self]) ht

end

/-! Every request, and every step. -/

theorem ExecCase.keeps_inv {s t : State} {i : Instr} (hI : Inv s) (h : ExecCase s i t) : Inv t := by
  have hc : configWf t.cfg = true := h.cfg_eq ▸ hI.params
  have hsel := h.sel_lt hI.selBound
  cases h with
  | refused | latch | xlate => exact inv_congr s _ hI rfl rfl rfl rfl rfl
  | select idx hs => exact inv_of_tristate hc hsel hs (hI.safe hs)
  | tristate => exact inv_of_tristate hc hsel (by simp) (undriven_of_pins _ (by simp [tristate_pins]))
  | setupParallel P hP hs hl hi =>
    exact inv_of_parallel hc (by simpa using hP) (by simp) hi hl
      (parallelPins_of_setup (hI.profile_wf hP) (hI.safe hs) (by simp))
  | setupIsp P e g hP hs hl hi =>
    have hw := hI.profile_wf hP
    refine inv_of_isp hc (by simpa using hP) (ispConclude_st e _) hi hl ?_
    refine (ispPins_of_setup hw (hI.safe hs)).of_entry hw (fun p hp => ?_)
      ((ispConclude_pins e _).trans (List.foldl_append ..))
    obtain ⟨hd, hl⟩ := pinIn_sdi_pins hw (s.did (setupEvents P) s.target) p
    rw [hd, hl, if_neg hp, if_neg hp]
    exact ⟨rfl, rfl⟩
  | probe P e g hP hi hs =>
    exact inv_of_isp hc (by simpa using hP) (ispConclude_st e _) hi (hI.optLatch_eq_false hP hs)
      ((hI.ispPins hP hi hs).of_entry (hI.profile_wf hP) (fun p _ => ⟨rfl, rfl⟩) (ispConclude_pins e _))
  | readParallel P addr es g v hP hs hi ho =>
    exact inv_of_parallel hc (by simpa using hP) (by simpa using hs) hi (hI.optLatch_eq_false hP (.inl hs))
      ((hI.parallel hs P hP hi).of_addr_levels (hI.profile_wf hP) (read_dir P addr s.pins es ho)
        fun p hp => read_lvl_untouched P addr p s.pins hp es ho)
  | readIsp P addr r0 r1 r2 r3 g hP hi hs =>
    exact inv_of_isp hc (by simpa using hP) (.inl (by simpa using hs)) hi (hI.optLatch_eq_false hP (.inl hs))
      ((hI.ispPins hP hi (.inl hs)).of_frame (hI.profile_wf hP) ((respond_pins _ _ _).trans (did_pins s _ _)))
  | xfer P b r g hP hi hs =>
    exact inv_of_isp hc (by simpa using hP) (by simpa using hs) hi (hI.optLatch_eq_false hP hs)
      ((hI.ispPins hP hi hs).of_xfer (hI.profile_wf hP) ((respond_pins _ _ _).trans (did_pins s _ _)))
  | clock P n hP hi hs =>
    exact inv_of_isp hc (by simpa using hP) (by simpa using hs) hi (hI.optLatch_eq_false hP hs)
      ((hI.ispPins hP hi hs).of_clock (hI.profile_wf hP) ((respond_pins _ _ _).trans (did_pins s _ _)))

/-- Settles O48: each case of a request keeps the invariant, and the request port touches nothing it reads. -/
theorem stepKeepsInvariant : Obligations.StepKeepsInvariant := by
  intro s t hI h
  rcases step_cases h with ⟨-, rfl⟩ | ⟨w, rest, -, ⟨i, -, h⟩ | ⟨-, rfl⟩⟩
  · exact hI
  · exact (exec_cases i _ t h).keeps_inv (inv_congr s { s with requests := rest } hI rfl rfl rfl rfl rfl)
  · exact inv_congr s _ hI rfl rfl rfl rfl rfl

end Sys2Proof.Machine
end

section
/-! SUPPORT. The port calls, the model's own stop and reset (spec/10_state.md R27 to R29, R40, R41). -/

namespace Sys2Proof.Machine

/-! What the accessors read after a port call (R27, R28). -/

theorem setDirection_dirOf_self {p : Nat} (h1 : 1 ≤ p) (h2 : p ≤ zifPins) (s : State) (o : Level) :
    (s.setDirection p o).dirOf p = o := PinFile.get_set_self s.dir p o h1 h2

theorem setDirection_dirOf_of_ne {p q : Nat} (h : q ≠ p) (s : State) (o : Level) :
    (s.setDirection p o).dirOf q = s.dirOf q := PinFile.get_set_of_ne s.dir p q o h.symm

theorem drive_lvlOf_self {p : Nat} (h1 : 1 ≤ p) (h2 : p ≤ zifPins) (s : State) (l : Level) :
    (s.drive p l).lvlOf p = l := PinFile.get_set_self s.lvl p l h1 h2

theorem drive_lvlOf_of_ne {p q : Nat} (h : q ≠ p) (s : State) (l : Level) :
    (s.drive p l).lvlOf q = s.lvlOf q := PinFile.get_set_of_ne s.lvl p q l h.symm

/-- The unconstrained oracle answers the free value, and stays (R66). -/
theorem answer_free {s : State} {seed : Nat} (h : s.target = .free seed) (p : Nat) :
    Target.answer s p = (Config.targetLevel seed s.trace s.dir s.lvl p, .free seed) := by
  unfold Target.answer
  rw [h]

/-- Settles O11: what a pin file reads back after a write, and the target's answer; the frames are the definitions. -/
theorem portCallsWriteOneRegister : Obligations.PortCallsWriteOneRegister := by
  intro s p h1 h2
  refine ⟨fun o => ⟨setDirection_dirOf_self h1 h2 s o, fun q hq => setDirection_dirOf_of_ne hq s o, rfl⟩,
    fun l => ⟨drive_lvlOf_self h1 h2 s l, fun q hq => drive_lvlOf_of_ne hq s l, rfl⟩, rfl, rfl, fun seed hfree => ?_,
    fun _ => rfl⟩
  have h := answer_free hfree p
  exact ⟨congrArg Prod.fst h, congrArg Prod.snd h⟩

/-- Settles O40: every request that reaches its reading of `P` stops there. -/
theorem noActiveProfileStops : Obligations.NoActiveProfileStops := by
  intro s hP
  have stops := fun f => withProfile_none s f hP
  refine ⟨fun k => stops _, fun hs => ?_, fun hs a => ?_, stops _, fun b => stops _, fun n => stops _⟩
  · exact (if_neg (not_not_intro hs)).trans (stops _)
  · exact (if_neg (not_not_intro hs)).trans (stops _)

/-- The pins after reset are undriven (R40). -/
theorem resetWith_undriven (cfg : Config) (tgt : Target) : Undriven (State.resetWith cfg tgt) :=
  undriven_of_pins _ rfl

/-- Settles O41: the fields of the reset state, and what its pins read. -/
theorem resetValues : Obligations.ResetValues :=
  fun cfg tgt => ⟨rfl, rfl, resetWith_undriven cfg tgt, rfl, rfl, rfl, rfl⟩

/-- A well-formed catalog has a profile of index 0 (R140). -/
theorem catalog_length_pos {cfg : Config} (h : configWf cfg = true) : 0 < cfg.catalog.length := by
  cases hc : cfg.catalog with
  | nil => simp [configWf, catalogWf, hc] at h
  | cons P rest => simp

/-- A block built with well-formed parameters meets the invariant after reset (R25, R41). -/
theorem resetWith_inv {cfg : Config} (h : configWf cfg = true) (tgt : Target) : Inv (State.resetWith cfg tgt) :=
  inv_of_tristate h (catalog_length_pos h) rfl (resetWith_undriven cfg tgt)

/-- A launch is a reset with well-formed parameters (R149). -/
theorem launch_eq_some {cfg : Config} {tgt : Target} {s : State} (h : launch cfg tgt = some s) :
    configWf cfg = true ∧ s = State.resetWith cfg tgt := by
  unfold launch at h
  split at h
  · next hc => exact ⟨hc, (Option.some.inj h).symm⟩
  · cases h

/-- Settles O47: a launch resets with well-formed parameters, and those of the machine's own reset are. -/
theorem resetMeetsInvariant : Obligations.ResetMeetsInvariant := by
  refine ⟨fun cfg tgt s h => ?_, resetWith_inv (by decide) _⟩
  obtain ⟨hc, rfl⟩ := launch_eq_some h
  exact resetWith_inv hc tgt

end Sys2Proof.Machine
end

section
/-! SUPPORT. READ (spec/43_parallel_read.md R180 to R184, spec/44_isp_engine.md R212): the levels its address drives
leave, and the address bits that reach no pin. -/

namespace Sys2Proof.Machine

/-- READ with an active profile in `Ready`: never an error (R180). -/
theorem exec_read_ready {s : State} {P : Profile} (hP : s.profile? = some P) (hs : s.st = .ready) (a : Arg) :
    exec (.read a) s = .next ((readByte P a s).2.respond .ok ((readByte P a s).1.setWidth 32)) :=
  (if_neg (not_not_intro hs)).trans (withProfile_some s _ P hP)

theorem readByte_parallel {P : Profile} (hi : isIsp P = false) (a : Arg) (s : State) :
    readByte P a s = parallelRead P a s := by
  simp [readByte, hi]

theorem readByte_isp {P : Profile} (hi : isIsp P = true) (a : Arg) (s : State) :
    readByte P a s = ispRead P a s := by
  simp [readByte, hi]

/-! The levels of the address pins (R181). -/

/-- A pin that is driven, and always to one level, ends at that level. -/
theorem foldl_lvl_of_agree {es : List Event} {p : Nat} {v : Level} (x : Pins) (hr : 1 ≤ p ∧ p ≤ zifPins)
    (hm : Event.drv p v ∈ es) (hv : ∀ l, Event.drv p l ∈ es → l = v) :
    PinFile.get (es.foldl Pins.apply x).lvl p = v := by
  induction es generalizing x with
  | nil => cases hm
  | cons e rest ih =>
    by_cases hrest : Event.drv p v ∈ rest
    · exact ih _ hrest fun l hl => hv l (List.mem_cons_of_mem e hl)
    · obtain rfl : Event.drv p v = e := (List.mem_cons.mp hm).resolve_right hrest
      refine foldl_lvl_last [] rest x p v hr.1 hr.2 fun l hl => hrest ?_
      exact hv l (List.mem_cons_of_mem _ hl) ▸ hl

/-- The address drives: entry `i` of the address list, if it has a pin, at bit `i` of the address (R181). -/
theorem mem_addressEvents (P : Profile) (a : Arg) (e : Event) :
    e ∈ addressEvents P a ↔ ∃ i p, translatePin P (nth P.addrPins i) = some p ∧ e = .drv p (a.getLsbD i) := by
  simp only [addressEvents, List.mem_flatMap, mem_roleDrive, Prod.exists, List.mk_mem_zipIdx_iff_getElem?]
  constructor
  · rintro ⟨k, i, hk, p, hp, rfl⟩
    exact ⟨i, p, by simpa [nth, hk] using hp, rfl⟩
  · rintro ⟨i, p, hp, rfl⟩
    have hi : i < P.addrPins.length := by
      by_contra h
      simp [nth, h] at hp
    exact ⟨nth P.addrPins i, i, by simp [nth, hi], p, hp, rfl⟩

/-- The address pin of index `i` of a well-formed profile is left at bit `i` of the address (R181, R146). -/
theorem addressEvents_lvl {P : Profile} (hw : Profile.wf P = true) (a : Arg) (x : Pins) {i p : Nat}
    (hp : translatePin P (nth P.addrPins i) = some p) :
    PinFile.get ((addressEvents P a).foldl Pins.apply x).lvl p = a.getLsbD i := by
  refine foldl_lvl_of_agree x (addr_range hw (isPinOf_nth P P.addrPins i p hp))
    ((mem_addressEvents P a _).mpr ⟨i, p, hp, rfl⟩) fun l hl => ?_
  obtain ⟨j, q, hq, he⟩ := (mem_addressEvents P a _).mp hl
  cases he
  rw [wf_addr_index P hw i j p hp hq]

/-- The address drives set no direction (R181). -/
theorem addressEvents_dir (P : Profile) (a : Arg) (x : Pins) :
    ((addressEvents P a).foldl Pins.apply x).dir = x.dir := by
  refine foldl_dir_none _ x fun p o hm => ?_
  obtain ⟨_, _, _, he⟩ := (mem_addressEvents P a _).mp hm
  cases he

/-- The address drives leave the level of every other pin (R181). -/
theorem addressEvents_lvl_other {P : Profile} (a : Arg) (x : Pins) {p : Nat} (hp : ¬ IsPinOf P P.addrPins p) :
    PinFile.get ((addressEvents P a).foldl Pins.apply x).lvl p = PinFile.get x.lvl p := by
  refine foldl_lvl_untouched _ x p fun l hm => hp ?_
  obtain ⟨i, q, hq, he⟩ := (mem_addressEvents P a _).mp hm
  cases he
  exact isPinOf_nth P P.addrPins i p hq

/-- Samples change no pin (R29). -/
theorem foldl_samples {P : Profile} {es : List Event} (ho : OnlySamples P es) (x : Pins) :
    es.foldl Pins.apply x = x := by
  induction es generalizing x with
  | nil => rfl
  | cons e rest ih =>
    obtain ⟨i, p, l, -, -, rfl⟩ := ho e List.mem_cons_self
    exact ih (fun e he => ho e (List.mem_cons_of_mem _ he)) x

/-- What a parallel READ does to the pins is what its address drives do (R181, R183). -/
theorem parallelRead_pins (P : Profile) (a : Arg) (s : State) :
    (parallelRead P a s).2.pins = (addressEvents P a).foldl Pins.apply s.pins := by
  obtain ⟨es, g, h, ho⟩ := parallelRead_samples P a s
  rw [h, did_pins, List.foldl_append, foldl_samples ho, List.foldl_append]
  rfl

/-- Settles O30: a parallel READ drives the address, and samples. -/
theorem readParallelPins : Obligations.ReadParallelPins := by
  intro s t P a hP hw hi hs _ h
  rw [exec_read_ready hP hs, readByte_parallel hi] at h
  cases h
  have hpins := parallelRead_pins P a s
  have hlvl := congrArg Pins.lvl hpins
  exact ⟨(congrArg Pins.dir hpins).trans (addressEvents_dir P a s.pins),
    fun i p hp => (congrArg (PinFile.get · p) hlvl).trans (addressEvents_lvl hw a s.pins hp),
    fun p hp => (congrArg (PinFile.get · p) hlvl).trans (addressEvents_lvl_other a s.pins hp)⟩

/-! Address bits that reach no pin (R53, R145, R212). -/

/-- The address drives read only the bits that have a pin (R181). -/
theorem addressEvents_congr {P : Profile} {a b : Arg}
    (h : ∀ i, (translatePin P (nth P.addrPins i)).isSome → a.getLsbD i = b.getLsbD i) :
    addressEvents P a = addressEvents P b := by
  refine List.flatMap_congr fun ⟨k, i⟩ hk => ?_
  have hk : nth P.addrPins i = k := by simp [nth, List.mk_mem_zipIdx_iff_getElem?.mp hk]
  unfold roleDrive
  cases hp : translatePin P k with
  | none => rfl
  | some p => rw [h i (by simp [hk, hp])]

theorem parallelRead_congr {P : Profile} {a b : Arg} (h : addressEvents P a = addressEvents P b) (s : State) :
    parallelRead P a s = parallelRead P b s := by
  simp only [parallelRead, setAddress_did, h]

/-- With no SDO a byte exchange does not depend on the byte sent (R126, R206). -/
theorem xferBits_of_mute {P : Profile} (h : translatePin P (roleSdo P) = none) {bits bits' : List Level}
    (hl : bits.length = bits'.length) (r : Byte) (s : State) : xferBits P bits r s = xferBits P bits' r s := by
  have hbit : ∀ b c s, xferBit P b s = xferBit P c s := fun b c s => by simp [xferBit, xferRaise, pinSet, h]
  induction bits generalizing bits' r s with
  | nil => rw [List.length_eq_zero_iff.mp hl.symm]
  | cons b rest ih =>
    cases bits' with
    | nil => cases hl
    | cons c rest' =>
      rw [xferBits, xferBits, hbit b c]
      exact ih (Nat.succ.inj hl) _ _

theorem xfer_of_mute {P : Profile} (h : translatePin P (roleSdo P) = none) (b c : Byte) (s : State) :
    xfer P b s = xfer P c s :=
  xferBits_of_mute (bits := bitsMsbFirst b) (bits' := bitsMsbFirst c) h rfl 0x00#8 s

/-- The ISP read frame carries the low 13 bits of the address (R212). -/
theorem readFrame_congr {a b : Arg} (h : ∀ i, i < 13 → a.getLsbD i = b.getLsbD i) (cfg : Config) :
    readOpcode cfg a = readOpcode cfg b ∧ readMiddle a = readMiddle b ∧ readLow a = readLow b := by
  refine ⟨?_, ?_, ?_⟩
  · rw [readOpcode, readOpcode, h 12 (by decide)]
  · refine congrArg (BitVec.setWidth 8) (BitVec.eq_of_getLsbD_eq fun i hi => ?_)
    simpa [hi] using h (8 + i) (by omega)
  · refine BitVec.eq_of_getLsbD_eq fun i hi => ?_
    simpa [readLow, hi] using h i (by omega)

/-- An ISP read depends on the low 13 bits of the address, and only where there is an SDO (R212). -/
theorem ispRead_congr {P : Profile} {a b : Arg}
    (h : ∀ i, i < 13 → (translatePin P (roleSdo P)).isSome → a.getLsbD i = b.getLsbD i) (s : State) :
    ispRead P a s = ispRead P b s := by
  cases hsdo : translatePin P (roleSdo P) with
  | none =>
    have mute := xfer_of_mute hsdo
    simp only [ispRead, xferFrame, mute (readOpcode s.cfg a) (readOpcode s.cfg b),
      mute (readMiddle a) (readMiddle b), mute (readLow a) (readLow b)]
  | some p =>
    obtain ⟨h0, h1, h2⟩ := readFrame_congr (fun i hi => h i hi (by simp [hsdo])) s.cfg
    rw [ispRead, ispRead, h0, h1, h2]

theorem readByte_congr {P : Profile} {a b : Arg}
    (h : ∀ i, i < 32 → addressBitHasPin P i = true → a.getLsbD i = b.getLsbD i) (s : State) :
    readByte P a s = readByte P b s := by
  cases hi : isIsp P with
  | true =>
    rw [readByte_isp hi, readByte_isp hi]
    exact ispRead_congr (fun i h13 hsdo => h i (by omega) (by simp [addressBitHasPin, hi, h13, hsdo])) s
  | false =>
    rw [readByte_parallel hi, readByte_parallel hi]
    refine parallelRead_congr (addressEvents_congr fun i hpin => ?_) s
    by_cases h32 : i < 32
    · exact h i h32 (by simp [addressBitHasPin, hi, hpin])
    · rw [BitVec.getLsbD_of_ge _ _ (Nat.le_of_not_lt h32), BitVec.getLsbD_of_ge _ _ (Nat.le_of_not_lt h32)]

/-- W4: a parallel profile has no address pin at an index from `addr_width` on (R145). -/
theorem wf_addrWidth {P : Profile} (hw : Profile.wf P = true) (hi : isIsp P = false) {i : Nat}
    (hle : P.addrWidth ≤ i) : nth P.addrPins i = 0 := by
  obtain ⟨-, -, -, -, h4, -⟩ := wf_fields P hw
  have hzero : ∀ k ∈ P.addrPins.drop P.addrWidth, k = 0 := by simpa [Profile.w4, hi] using h4
  by_cases hlen : i < P.addrPins.length
  · refine hzero _ (List.mem_drop_iff_getElem.mpr ⟨i - P.addrWidth, by omega, ?_⟩)
    simp [nth, hlen, Nat.add_sub_cancel' hle]
  · simp [nth, Nat.le_of_not_lt hlen]

/-- Settles O32: a READ reads its address through the bits that have a pin. -/
theorem readIgnoresHighAddressBits : Obligations.ReadIgnoresHighAddressBits := by
  refine fun P => ⟨fun s a b hP h => ?_, fun hw hi i hpin => ?_⟩
  · by_cases hs : s.st = .ready
    · rw [exec_read_ready hP hs, exec_read_ready hP hs, readByte_congr h]
    · rw [exec_read_refused s a hs, exec_read_refused s b hs]
  · by_contra hle
    simp [addressBitHasPin, hi, wf_addrWidth hw hi (Nat.le_of_not_lt hle)] at hpin

end Sys2Proof.Machine
end

section
/-! SUPPORT. Scripted targets (spec/20_memory.md R68): every sample takes the next level of the script, so that an
exchange (spec/44_isp_engine.md R206) or a pass (spec/43_parallel_read.md R183) returns the scripted byte and leaves the
rest. -/

namespace Sys2Proof.Machine

/-- A sample of a pin takes the next level of the script (R68). -/
theorem pinGet_script {P : Profile} {k : Nat} (hk : k ≠ 0) {s : State} {l : Level} {rest : List Level}
    (h : s.target = .script (l :: rest)) :
    (pinGet P k s).1 = l ∧ (pinGet P k s).2.target = .script rest := by
  obtain ⟨p, hp⟩ := Option.ne_none_iff_exists'.mp (mt (translatePin_eq_none P k).mp hk)
  simp [pinGet, hp, State.sample, Target.answer, h]

/-! The serial link: bit 7 first (R206). -/

section
variable {P : Profile} (hsdi : roleSdi P ≠ 0) {s : State} {rest : List Level}
include hsdi

theorem xferBit_script {l : Level} (h : s.target = .script (l :: rest)) (b : Level) :
    (xferBit P b s).1 = l ∧ (xferBit P b s).2.target = .script rest := by
  have hraise : (xferRaise P b s).target = .script (l :: rest) := by simp [xferRaise, pinSet_did, auxClock_did, h]
  obtain ⟨hlevel, htarget⟩ := pinGet_script hsdi hraise
  exact ⟨hlevel, by simp [xferBit, pinSet_did, htarget]⟩

theorem xferBits_script {bits ls : List Level} (hl : ls.length = bits.length)
    (h : s.target = .script (ls ++ rest)) (r : Byte) :
    (xferBits P bits r s).1 = ls.foldl insertBottom r ∧ (xferBits P bits r s).2.target = .script rest := by
  induction bits generalizing ls r s with
  | nil =>
    obtain rfl := List.length_eq_zero_iff.mp hl
    exact ⟨rfl, h⟩
  | cons b bits ih =>
    cases ls with
    | nil => cases hl
    | cons l ls =>
      obtain ⟨hlevel, htarget⟩ := xferBit_script hsdi h b
      obtain ⟨hbyte, hrest⟩ := ih (Nat.succ.inj hl) htarget (insertBottom r (xferBit P b s).1)
      exact ⟨hbyte.trans (by rw [hlevel, List.foldl_cons]), hrest⟩

omit hsdi in
/-- A byte sent bit 7 first and inserted at the bottom is itself (R58, R206). -/
theorem foldl_insertBottom_bits (e : Byte) : (bitsMsbFirst e).foldl insertBottom 0x00#8 = e := by
  have hbits := bitsMsbFirst_foldl (e.getLsbD 7) (e.getLsbD 6) (e.getLsbD 5) (e.getLsbD 4) (e.getLsbD 3)
    (e.getLsbD 2) (e.getLsbD 1) (e.getLsbD 0) 0x00#8
  obtain ⟨h7, h6, h5, h4, h3, h2, h1, h0, -⟩ := by simpa only [bitsMsbFirst, List.cons.injEq] using hbits
  refine BitVec.eq_of_getLsbD_eq fun i hi => ?_
  interval_cases i <;> assumption

theorem xfer_script {e : Byte} (h : s.target = .script (bitsMsbFirst e ++ rest)) (b : Byte) :
    (xfer P b s).1 = e ∧ (xfer P b s).2.target = .script rest := by
  obtain ⟨hbyte, hrest⟩ := xferBits_script hsdi (bits := bitsMsbFirst b) (ls := bitsMsbFirst e) rfl h 0x00#8
  exact ⟨hbyte.trans (foldl_insertBottom_bits e), hrest⟩

theorem xferFrame_script {e0 e1 e2 e3 : Byte}
    (h : s.target = .script ([e0, e1, e2, e3].flatMap bitsMsbFirst ++ rest)) (c0 c1 c2 c3 : Byte) :
    (xferFrame P c0 c1 c2 c3 s).1 = ⟨e0, e1, e2, e3⟩ ∧ (xferFrame P c0 c1 c2 c3 s).2.target = .script rest := by
  obtain ⟨h0, t0⟩ := xfer_script hsdi h c0
  obtain ⟨h1, t1⟩ := xfer_script hsdi t0 c1
  obtain ⟨h2, t2⟩ := xfer_script hsdi t1 c2
  obtain ⟨h3, t3⟩ := xfer_script hsdi t2 c3
  exact ⟨by simp only [xferFrame, h0, h1, h2, h3], t3⟩

theorem ispRead_script {e0 e1 e2 e3 : Byte}
    (h : s.target = .script ([e0, e1, e2, e3].flatMap bitsMsbFirst ++ rest)) (a : Arg) :
    (ispRead P a s).1 = e3 ∧ (ispRead P a s).2.target = .script rest := by
  obtain ⟨hbytes, hrest⟩ := xferFrame_script hsdi h (readOpcode s.cfg a) (readMiddle a) (readLow a) s.cfg.ispDummy
  exact ⟨congrArg Echoes.e3 hbytes, hrest⟩

/-- An entry sequence echoes the next four bytes of the script (R208). -/
theorem ispEnter_script {e0 e1 e2 e3 : Byte}
    (h : s.target = .script ([e0, e1, e2, e3].flatMap bitsMsbFirst ++ rest)) :
    ∃ es, ispEnter P s = ispConclude ⟨e0, e1, e2, e3⟩ (s.did es (.script rest)) := by
  have hprep := ispPrepare_did P s
  have hscript : (ispPrepare P s).target = .script ([e0, e1, e2, e3].flatMap bitsMsbFirst ++ rest) := by
    rw [hprep, did_target, h]
  obtain ⟨g, hframe, -⟩ := xferFrame_did P (ispPrepare P s).cfg.ispHandshake[0] (ispPrepare P s).cfg.ispHandshake[1]
    (ispPrepare P s).cfg.ispHandshake[2] (ispPrepare P s).cfg.ispHandshake[3] (ispPrepare P s)
  obtain ⟨hechoes, hrest⟩ := xferFrame_script hsdi hscript (ispPrepare P s).cfg.ispHandshake[0]
    (ispPrepare P s).cfg.ispHandshake[1] (ispPrepare P s).cfg.ispHandshake[2] (ispPrepare P s).cfg.ispHandshake[3]
  have hg : g = .script rest := by rw [← hrest, hframe, did_target]
  exact ⟨_, congrArg₂ ispConclude hechoes (hg ▸ did_chain hprep hframe)⟩

end

theorem xfer_responses (P : Profile) (b : Byte) (s : State) : (xfer P b s).2.responses = s.responses := by
  obtain ⟨g, h, -⟩ := xfer_did P b s
  rw [h, did_responses]

theorem ispRead_responses (P : Profile) (a : Arg) (s : State) : (ispRead P a s).2.responses = s.responses := by
  obtain ⟨r0, r1, r2, g, h, -⟩ := ispRead_did P a s
  rw [h, did_responses]

/-- ISP_XFER where it is accepted (R207). -/
theorem exec_ispXfer_accepted {s : State} {P : Profile} (hP : s.profile? = some P) (ha : ispAccepts P s = true)
    (b : Byte) : exec (.ispXfer b) s = .next ((xfer P b s).2.respond .ok ((xfer P b s).1.setWidth 32)) :=
  (withProfile_some s _ P hP).trans (if_pos ha)

/-- ISP_PROBE where it is accepted (R210). -/
theorem exec_ispProbe_accepted {s : State} {P : Profile} (hP : s.profile? = some P) (ha : ispAccepts P s = true) :
    exec .ispProbe s = .next (ispEnter P (s.setSt .ispHandshake)) :=
  (withProfile_some s _ P hP).trans (if_pos ha)

/-- Settles O28: exchanges, frames and entry sequences use the script up byte by byte. -/
theorem scriptedSerialLink : Obligations.ScriptedSerialLink := by
  intro s P e0 e1 e2 e3 rest hP hi hsdi
  refine ⟨fun b hs h => ?_, fun a hs h => ?_, fun hs h => ?_⟩
  · obtain ⟨hbyte, hrest⟩ := xfer_script hsdi h b
    refine ⟨_, exec_ispXfer_accepted hP ((ispAccepts_iff P s).mpr ⟨hi, hs⟩) b, hrest, ?_⟩
    rw [respond_responses, xfer_responses, hbyte]
  · obtain ⟨hbyte, hrest⟩ := ispRead_script hsdi h a
    refine ⟨_, exec_read_ready hP hs a, ?_, ?_⟩
    · rw [respond_target, readByte_isp hi, hrest]
    · rw [respond_responses, readByte_isp hi, ispRead_responses, hbyte]
  · obtain ⟨es, henter⟩ := ispEnter_script hsdi (s := s.setSt .ispHandshake) h
    refine ⟨_, exec_ispProbe_accepted hP ((ispAccepts_iff P s).mpr ⟨hi, hs⟩), ?_⟩
    rw [henter, ispConclude_eq]
    exact ⟨rfl, rfl, rfl⟩

/-! The parallel passes: bit 0 first (R183). -/

theorem samplePins_script {P : Profile} {ks : List Nat} (hks : ∀ k ∈ ks, k ≠ 0) {ls rest : List Level}
    (hl : ls.length = ks.length) {s : State} (h : s.target = .script (ls ++ rest)) (b : Byte) :
    (samplePins P ks b s).1 = ls.foldl insertTop b ∧ (samplePins P ks b s).2.target = .script rest := by
  induction ks generalizing ls b s with
  | nil =>
    obtain rfl := List.length_eq_zero_iff.mp hl
    exact ⟨rfl, h⟩
  | cons k ks ih =>
    cases ls with
    | nil => cases hl
    | cons l ls =>
      obtain ⟨hk, hks⟩ := List.forall_mem_cons.mp hks
      obtain ⟨hlevel, htarget⟩ := pinGet_script (P := P) hk h
      obtain ⟨hbyte, hrest⟩ := ih hks (Nat.succ.inj hl) htarget (insertTop b (pinGet P k s).1)
      exact ⟨hbyte.trans (by rw [hlevel, List.foldl_cons]), hrest⟩

/-- A byte sampled bit 0 first and inserted at the top is itself (R57, R183). -/
theorem foldl_insertTop_bits (b : Byte) : (bitsLsbFirst b).foldl insertTop 0x00#8 = b := by
  refine BitVec.eq_of_getLsbD_eq fun i hi => ?_
  refine (foldl_insertTop_bit (bitsLsbFirst b) 0x00#8 (Nat.le_refl 8) i hi).trans ((if_pos (Nat.zero_le i)).trans ?_)
  interval_cases i <;> rfl

/-- The byte a convergence read returns (R184), as a function of what the first pass returned and of the bytes the bus
holds for the passes after it. -/
def settledByte (prev : Byte) (bus : List Byte) : Byte :=
  match bus with
  | [] => prev
  | b :: rest => if b = prev then b else settledByte b rest

/-- The first byte that repeats its predecessor is returned (R185 (b)). -/
theorem settledByte_of_repeat {prev : Byte} {bus : List Byte} {j : Nat} (hj : j < bus.length)
    (hrep : (prev :: bus)[j + 1]? = (prev :: bus)[j]?)
    (hfirst : ∀ i, i < j → (prev :: bus)[i + 1]? ≠ (prev :: bus)[i]?) :
    (prev :: bus)[j + 1]? = some (settledByte prev bus) := by
  induction bus generalizing prev j with
  | nil => cases hj
  | cons b rest ih =>
    cases j with
    | zero =>
      have hb : b = prev := by simpa using hrep
      simp [settledByte, hb]
    | succ j =>
      have hb : b ≠ prev := by simpa using hfirst 0 (Nat.succ_pos j)
      rw [settledByte, if_neg hb]
      exact ih (Nat.lt_of_succ_lt_succ hj) hrep fun i hi => hfirst (i + 1) (Nat.succ_lt_succ hi)

/-- Where no byte repeats its predecessor, the last one is returned (R185 (c)). -/
theorem settledByte_of_no_repeat {prev : Byte} {bus : List Byte}
    (hno : ∀ i, i < bus.length → (prev :: bus)[i + 1]? ≠ (prev :: bus)[i]?) :
    (prev :: bus).getLast? = some (settledByte prev bus) := by
  induction bus generalizing prev with
  | nil => rfl
  | cons b rest ih =>
    have hb : b ≠ prev := by simpa using hno 0 (Nat.succ_pos _)
    rw [settledByte, if_neg hb, List.getLast?_cons_cons]
    exact ih fun i hi => hno (i + 1) (Nat.succ_lt_succ hi)

section
variable {P : Profile} (hw : P.dataWidth = 8) (hpins : ∀ i, i < 8 → nth P.dataPins i ≠ 0)
include hw hpins

theorem sampleByte_script {s : State} {b : Byte} {rest : List Byte} (h : s.target = parallelScript (b :: rest)) :
    (sampleByte P s).1 = b ∧ (sampleByte P s).2.target = parallelScript rest := by
  have hks : ∀ k ∈ passPins P, k ≠ 0 := by simpa [passPins, hw] using hpins
  obtain ⟨hbyte, hrest⟩ := samplePins_script hks (ls := bitsLsbFirst b) (by simp [passPins, hw, bitsLsbFirst]) h 0x00#8
  exact ⟨hbyte.trans (foldl_insertTop_bits b), hrest⟩

theorem converge_script {s : State} {bus : List Byte} (h : s.target = parallelScript bus) (prev : Byte) :
    (converge P bus.length prev s).1 = settledByte prev bus := by
  induction bus generalizing prev s with
  | nil => rfl
  | cons b rest ih =>
    obtain ⟨hbyte, hrest⟩ := sampleByte_script hw hpins h
    rw [List.length_cons, converge, settledByte, hbyte]
    split
    · exact hbyte
    · exact ih hrest b

theorem parallelRead_script {s : State} {b : Byte} {bus : List Byte} (h : s.target = parallelScript (b :: bus))
    (hN : bus.length + 1 = s.cfg.nSamples) (a : Arg) : (parallelRead P a s).1 = settledByte b bus := by
  have haddr : ((setAddress P a s).delay .prop).target = parallelScript (b :: bus) := by
    rw [delay_target, setAddress_did, did_target, h]
  obtain ⟨hbyte, hrest⟩ := sampleByte_script hw hpins haddr
  rw [parallelRead, ← hN, Nat.add_sub_cancel, hbyte]
  exact converge_script hw hpins hrest b

end

theorem parallelRead_responses (P : Profile) (a : Arg) (s : State) :
    (parallelRead P a s).2.responses = s.responses := by
  obtain ⟨es, g, h, -⟩ := parallelRead_samples P a s
  rw [h, did_responses]

/-- A profile with a data bus is a parallel one (R25). -/
theorem isIsp_of_dataWidth {P : Profile} (hw : P.dataWidth = 8) : isIsp P = false := by
  simp [isIsp, hw]

/-- Settles O33: the passes read the script's bytes, and `settledByte` is the one returned. -/
theorem scriptedConvergence : Obligations.ScriptedConvergence := by
  intro s P a bytes hP hw hpins hs hN hlen h
  cases bytes with
  | nil => simp [← hlen] at hN
  | cons b bus =>
    refine ⟨_, settledByte b bus, exec_read_ready hP hs a, ?_, fun j hj => ?_, fun hno => ?_⟩
    · rw [respond_responses, readByte_parallel (isIsp_of_dataWidth hw), parallelRead_responses,
        parallelRead_script hw hpins h hlen]
    · exact settledByte_of_repeat (Nat.lt_of_succ_lt_succ hj)
    · exact settledByte_of_no_repeat fun i hi => hno i (Nat.succ_lt_succ hi)

end Sys2Proof.Machine
end

section
/-! SUPPORT. An ideal ROM in the socket (spec/20_memory.md R67): a configured socket shows it the address a READ drives
(spec/43_parallel_read.md R181), so that every pass reads the addressed byte (R183, R184), and the dump command reads 64
of them (spec/30_encoding.md R107). -/

namespace Sys2Proof.Machine

/-! The address an ideal ROM sees. -/

/-- The address an ideal ROM sees is the number whose bits stand on the address pins (R67). -/
theorem romAddrFrom_eq {P : Profile} {dir lvl : PinFile} {ks : List Nat} {n : Nat}
    (h : ∀ i, romAddrBit P dir lvl (nth ks i) = n.testBit i) (j : Nat) : romAddrFrom P dir lvl j ks = 2 ^ j * n := by
  induction ks generalizing n j with
  | nil =>
    have hn : n = 0 := Nat.eq_of_testBit_eq fun i => (h i).symm.trans (Nat.zero_testBit i).symm
    simp [romAddrFrom, hn]
  | cons k rest ih =>
    have hrest : ∀ i, romAddrBit P dir lvl (nth rest i) = (n / 2).testBit i := fun i =>
      (h (i + 1)).trans (Nat.testBit_succ n i)
    have hk : romAddrBit P dir lvl k = n.testBit 0 := h 0
    have hbit : (if n.testBit 0 then 2 ^ j else 0) = 2 ^ j * (n % 2) := by
      rcases Nat.mod_two_eq_zero_or_one n with hmod | hmod <;> simp [Nat.testBit_zero, hmod]
    calc romAddrFrom P dir lvl j (k :: rest)
        = 2 ^ j * (n % 2) + 2 ^ (j + 1) * (n / 2) := by rw [romAddrFrom, ih hrest, hk, hbit]
      _ = 2 ^ j * (n % 2 + 2 * (n / 2)) := by rw [Nat.pow_succ, Nat.mul_add, Nat.mul_assoc]
      _ = 2 ^ j * n := by rw [Nat.mod_add_div]

/-- A configured socket on which the address `a` is driven shows an ideal ROM `a` modulo `2^addr_width` (R67, R181). -/
theorem romAddrFrom_driven {P : Profile} (hw : Profile.wf P = true) (hi : isIsp P = false)
    (hpins : ∀ i, i < P.addrWidth → nth P.addrPins i ≠ 0) {dir lvl : PinFile} {a : Arg}
    (hdir : ∀ p, IsPinOf P P.addrPins p → PinFile.get dir p = true)
    (hlvl : ∀ i p, translatePin P (nth P.addrPins i) = some p → PinFile.get lvl p = a.getLsbD i) :
    romAddrFrom P dir lvl 0 P.addrPins = a.toNat % 2 ^ P.addrWidth := by
  refine (romAddrFrom_eq (fun i => ?_) 0).trans (Nat.one_mul _)
  rw [Nat.testBit_mod_two_pow]
  unfold romAddrBit
  by_cases hlt : i < P.addrWidth
  · obtain ⟨p, hp⟩ := Option.ne_none_iff_exists'.mp (mt (translatePin_eq_none P _).mp (hpins i hlt))
    simp [hp, hlt, hdir p (isPinOf_nth P P.addrPins i p hp), hlvl i p hp, BitVec.getLsbD]
  · simp [wf_addrWidth hw hi (Nat.le_of_not_lt hlt), hlt]

/-! The byte an ideal ROM answers. -/

/-- The ROM seated in the socket shows the byte `b` on the data pins. -/
structure ShowsRom (P : Profile) (b : Byte) (s : State) : Prop where
  profile : s.profile? = some P
  seated : ∃ M, s.target = .idealRom M ∧ Memory.read M (romAddrFrom P s.dir s.lvl 0 P.addrPins) = b

/-- The pin of data index `i` carries bit `i` of the byte (R67). -/
theorem romLevelAt_data {P : Profile} (hw : Profile.wf P = true) (b : Byte) {i p : Nat}
    (hp : translatePin P (nth P.dataPins i) = some p) {is : List Nat} (hi : i ∈ is) :
    romLevelAt P b p is = b.getLsbD i := by
  induction is with
  | nil => cases hi
  | cons j rest ih =>
    unfold romLevelAt
    split
    · next hj => rw [wf_data_index P hw i j p hp hj]
    · next hj =>
      refine ih ((List.mem_cons.mp hi).resolve_left fun hij => hj (hij ▸ hp))

section
variable {P : Profile} (hw : Profile.wf P = true) {b : Byte}

/-- A sample leaves the byte shown as it is: it changes neither the pins nor the ROM (R29, R67). -/
theorem ShowsRom.pinGet {s : State} (h : ShowsRom P b s) (k : Nat) : ShowsRom P b (pinGet P k s).2 := by
  obtain ⟨hP, M, hM, hread⟩ := h
  obtain ⟨g, hdid, -⟩ := pinGet_did P k s
  have hpins : (Machine.pinGet P k s).2.pins = s.pins := by rw [hdid, did_pins, roleSample_pins]
  have hdir : (Machine.pinGet P k s).2.dir = s.dir := congrArg Pins.dir hpins
  have hlvl : (Machine.pinGet P k s).2.lvl = s.lvl := congrArg Pins.lvl hpins
  exact ⟨by rw [hdid, did_profile, hP], M, pinGet_keeps_idealRom hM P k, by rw [hdir, hlvl, hread]⟩

include hw

theorem ShowsRom.pinGet_level {s : State} (h : ShowsRom P b s) {i : Nat} (hi : i < P.dataWidth)
    (hpin : nth P.dataPins i ≠ 0) : (Machine.pinGet P (nth P.dataPins i) s).1 = b.getLsbD i := by
  obtain ⟨hP, M, hM, hread⟩ := h
  obtain ⟨p, hp⟩ := Option.ne_none_iff_exists'.mp (mt (translatePin_eq_none P _).mp hpin)
  have hcat : s.cfg.catalog[s.sel]? = some P := hP
  simp only [Machine.pinGet, hp, State.sample, Target.answer, hM, hcat, romLevel, hread]
  exact romLevelAt_data hw b hp (List.mem_range.mpr hi)

theorem ShowsRom.samplePins {is : List Nat} (his : ∀ i ∈ is, i < P.dataWidth ∧ nth P.dataPins i ≠ 0) {s : State}
    (h : ShowsRom P b s) (x : Byte) :
    (samplePins P (is.map (nth P.dataPins)) x s).1 = (is.map b.getLsbD).foldl insertTop x ∧
      ShowsRom P b (samplePins P (is.map (nth P.dataPins)) x s).2 := by
  induction is generalizing x s with
  | nil => exact ⟨rfl, h⟩
  | cons i rest ih =>
    obtain ⟨⟨hi, hpin⟩, his⟩ := List.forall_mem_cons.mp his
    obtain ⟨hbyte, hshows⟩ := ih his (h.pinGet (nth P.dataPins i))
      (insertTop x (Machine.pinGet P (nth P.dataPins i) s).1)
    exact ⟨hbyte.trans (by rw [h.pinGet_level hw hi hpin, List.map_cons, List.foldl_cons]), hshows⟩

variable (h8 : P.dataWidth = 8) (hpins : ∀ i, i < 8 → nth P.dataPins i ≠ 0)
include h8 hpins

theorem ShowsRom.sampleByte {s : State} (h : ShowsRom P b s) :
    (sampleByte P s).1 = b ∧ ShowsRom P b (sampleByte P s).2 := by
  have his : ∀ i ∈ List.range P.dataWidth, i < P.dataWidth ∧ nth P.dataPins i ≠ 0 := fun i hi => by
    have hi := List.mem_range.mp hi
    exact ⟨hi, hpins i (h8 ▸ hi)⟩
  obtain ⟨hbyte, hshows⟩ := h.samplePins hw his 0x00#8
  have hbits : (List.range P.dataWidth).map b.getLsbD = bitsLsbFirst b := by rw [h8]; rfl
  exact ⟨hbyte.trans (by rw [hbits, foldl_insertTop_bits]), hshows⟩

/-- Two passes of an ideal ROM agree at once (R184). -/
theorem ShowsRom.converge {s : State} (h : ShowsRom P b s) (n : Nat) : (converge P n b s).1 = b := by
  obtain ⟨hbyte, -⟩ := h.sampleByte hw h8 hpins
  cases n with
  | zero => rfl
  | succ n => rw [Machine.converge, if_pos hbyte, hbyte]

theorem ShowsRom.parallelRead {s : State} {a : Arg} (h : ShowsRom P b ((setAddress P a s).delay .prop)) :
    (parallelRead P a s).1 = b := by
  obtain ⟨hbyte, hshows⟩ := h.sampleByte hw h8 hpins
  rw [Machine.parallelRead, hbyte]
  exact hshows.converge hw h8 hpins _

end

/-! READ of an ideal ROM (R180). -/

theorem setAddress_pins (P : Profile) (a : Arg) (s : State) :
    ((setAddress P a s).delay .prop).pins = (addressEvents P a).foldl Pins.apply s.pins := by
  rw [setAddress_did]
  rfl

/-- A block configured for the parallel 8-bit profile `P`, all of whose pins are present, with the ideal ROM `M`
seated. -/
structure RomReady (P : Profile) (M : Memory) (s : State) : Prop where
  inv : Inv s
  profile : s.profile? = some P
  st : s.st = .ready
  dataWidth : P.dataWidth = 8
  dataPins : ∀ i, i < 8 → nth P.dataPins i ≠ 0
  addrPins : ∀ i, i < P.addrWidth → nth P.addrPins i ≠ 0
  target : s.target = .idealRom M

/-- What an ideal ROM of contents `M` answers to READ `a`. -/
def romResponse (P : Profile) (M : Memory) (a : Arg) : Response :=
  { status := .ok, val := (Memory.read M (a.toNat % 2 ^ P.addrWidth)).setWidth 32 }

section
variable {P : Profile} {M : Memory} {s : State} (h : RomReady P M s) (a : Arg)
include h

theorem RomReady.wf : Profile.wf P = true := h.inv.profile_wf h.profile

theorem RomReady.isIsp : isIsp P = false := isIsp_of_dataWidth h.dataWidth

/-- Once the address is driven, the ROM shows the byte it holds there (R67, R181). -/
theorem RomReady.shows :
    ShowsRom P (Memory.read M (a.toNat % 2 ^ P.addrWidth)) ((setAddress P a s).delay .prop) := by
  have hpins := setAddress_pins P a s
  have hdir := (congrArg Pins.dir hpins).trans (addressEvents_dir P a s.pins)
  have hlvl := congrArg Pins.lvl hpins
  refine ⟨by rw [setAddress_did]; exact h.profile, M, by rw [delay_target, setAddress_did, did_target, h.target],
    congrArg (Memory.read M) (romAddrFrom_driven h.wf h.isIsp h.addrPins (fun p hp => ?_) fun i p hp => ?_)⟩
  · exact (congrArg (PinFile.get · p) hdir).trans ((h.inv.parallel h.st P h.profile h.isIsp).addr p hp)
  · exact (congrArg (PinFile.get · p) hlvl).trans (addressEvents_lvl h.wf a s.pins hp)

theorem RomReady.parallelRead : (parallelRead P a s).1 = Memory.read M (a.toNat % 2 ^ P.addrWidth) :=
  (h.shows a).parallelRead h.wf h.dataWidth h.dataPins

/-- READ answers the addressed byte, and leaves the block as ready as it was (R180 to R184). -/
theorem RomReady.read : ∃ t, exec (.read a) s = .next t ∧ t.responses = s.responses ++ [romResponse P M a] ∧
    t.requests = s.requests ∧ RomReady P M t := by
  have hexec := exec_read_ready h.profile h.st a
  rw [readByte_parallel h.isIsp] at hexec
  have hcase := exec_cases _ _ _ hexec
  have hinv := hcase.keeps_inv h.inv
  have hrequests := hcase.requests_eq
  obtain ⟨es, g, hdid, -⟩ := parallelRead_samples P a s
  refine ⟨_, hexec, ?_, hrequests, hinv, ?_, ?_, h.dataWidth, h.dataPins, h.addrPins,
    exec_keeps_idealRom h.target hexec⟩
  · rw [respond_responses, parallelRead_responses, h.parallelRead a, romResponse]
  · rw [respond_profile, hdid, did_profile, h.profile]
  · rw [respond_st, hdid, did_st, h.st]

end

/-- Settles O34: a READ drives the address, and every pass of the ROM returns the addressed byte. -/
theorem idealRomIsReadBack : Obligations.IdealRomIsReadBack := by
  intro s P M a hI hP hs h8 hdata haddr hM
  obtain ⟨t, hexec, hresp, -, ht⟩ := RomReady.read ⟨hI, hP, hs, h8, hdata, haddr, hM⟩ a
  exact ⟨t, hexec, ht.target, hresp⟩

/-! The dump command (R107). -/

/-- A run takes its first step, then the others. -/
theorem run_succ {s t : State} (h : step s = .next t) (k : Nat) :
    Host.Core.run core (k + 1) s = Host.Core.run core k t := by
  simp only [Host.Core.run, core, h]

theorem decode_encode_read (a : Arg) : decode (encode (.read a)) = .ok (.read a) := by
  simp [decode, encode, Instr.op, Instr.arg]

theorem decode_encode_setup : decode (encode .setup) = .ok .setup := by decide

theorem decode_encode_tristate : decode (encode .tristate) = .ok .tristate := by decide

/-- SETUP makes a tri-stated block ready for its ideal ROM (R160, R166). -/
theorem RomReady.of_setup {s : State} {P : Profile} {M : Memory} (hI : Inv s) (hP : s.profile? = some P)
    (hs : s.st = .tristate) (hl : optLatch P = false) (h8 : P.dataWidth = 8)
    (hdata : ∀ i, i < 8 → nth P.dataPins i ≠ 0) (haddr : ∀ i, i < P.addrWidth → nth P.addrPins i ≠ 0)
    (hM : s.target = .idealRom M) :
    ∃ t, exec .setup s = .next t ∧ t.responses = s.responses ++ [{ status := .ok, val := 0#32 }] ∧
      t.requests = s.requests ∧ RomReady P M t := by
  have hexec := exec_setup_parallel s P hP hs hl (isIsp_of_dataWidth h8)
  exact ⟨_, hexec, rfl, rfl, (exec_cases _ _ _ hexec).keeps_inv hI, hP, rfl, h8, hdata, haddr, hM⟩

/-- A block ready for its ideal ROM answers the READs presented, one a step, and stays ready. -/
theorem RomReady.run_reads {P : Profile} {M : Memory} {addrs : List Arg} {s : State} (h : RomReady P M s)
    {rest : List ReqWord} (hr : s.requests = (addrs.map Instr.read).map encode ++ rest) (k : Nat) :
    ∃ t, Host.Core.run core (addrs.length + k) s = Host.Core.run core k t ∧
      t.responses = s.responses ++ addrs.map (romResponse P M) ∧ t.requests = rest ∧ RomReady P M t := by
  induction addrs generalizing s with
  | nil => exact ⟨s, by simp, by simp, hr, h⟩
  | cons a addrs ih =>
    have hword : RomReady P M { s with requests := (addrs.map Instr.read).map encode ++ rest } :=
      ⟨inv_congr s _ h.inv rfl rfl rfl rfl rfl, h.profile, h.st, h.dataWidth, h.dataPins, h.addrPins, h.target⟩
    obtain ⟨t, hexec, hresp, hreq, ht⟩ := hword.read a
    obtain ⟨u, hrun, hresps, hrest, hu⟩ := ih ht hreq
    refine ⟨u, ?_, ?_, hrest, hu⟩
    · rw [List.length_cons, Nat.add_right_comm, ← hrun]
      exact run_succ ((step_of_decode_ok hr (decode_encode_read a)).trans hexec) _
    · rw [hresps, hresp, List.map_cons, List.append_assoc, List.singleton_append]

/-- TRISTATE answers `OK` and leaves the socket safe, from every state (R170, R171). -/
theorem exec_tristate_safe (s : State) : ∃ t, exec .tristate s = .next t ∧
    t.responses = s.responses ++ [{ status := .ok, val := 0#32 }] ∧ t.st = .tristate ∧ Undriven t := by
  refine ⟨_, exec_tristate s, by simp, by simp, undriven_of_pins _ ?_⟩
  rw [respond_pins, setSt_pins, did_pins, tristate_pins]

/-- The addresses a dump reads (R107). -/
def dumpAddrs (a : Arg) : List Arg := (List.range 64).map fun i => a + BitVec.ofNat 32 i

/-- The requests of a dump: SETUP, 64 READs, TRISTATE (R107). -/
theorem expandCommand_dump (a : Arg) (s : State) : expandCommand (.dump a) s =
    .setup :: (dumpAddrs a).map Instr.read ++ [.tristate] := by
  rw [dumpAddrs, List.map_map]
  rfl

/-- Settles O51: SETUP makes the block ready for the ROM, the READs answer its bytes, TRISTATE ends safe. -/
theorem dumpReadsTheRom : Obligations.DumpReadsTheRom := by
  intro s P M a hI hidle hP hs hl h8 hdata haddr hM
  have hsubmit : (s.submit (expandCommand (.dump a) s)).requests =
      encode .setup :: (((dumpAddrs a).map Instr.read).map encode ++ [encode .tristate]) := by
    rw [State.submit, expandCommand_dump, hidle, List.nil_append, List.map_append]
    rfl
  obtain ⟨t, hsetup, hresp, hreq, ht⟩ := RomReady.of_setup
    (s := { s with requests := ((dumpAddrs a).map Instr.read).map encode ++ [encode .tristate] })
    (inv_congr s _ hI rfl rfl rfl rfl rfl) hP hs hl h8 hdata haddr hM
  obtain ⟨u, hreads, hbytes, hlast, -⟩ := ht.run_reads hreq 1
  obtain ⟨v, htristate, hok, hst, hsafe⟩ := exec_tristate_safe { u with requests := [] }
  refine ⟨v, ?_, ?_, hst, hsafe⟩
  · have hstep := step_of_decode_ok hlast decode_encode_tristate
    rw [dumpAddrs, List.length_map, List.length_range] at hreads
    exact (run_succ ((step_of_decode_ok hsubmit decode_encode_setup).trans hsetup) 65).trans
      (hreads.trans (run_succ (hstep.trans htristate) 0))
  · rw [hok]
    show u.responses ++ _ = _
    rw [hbytes, hresp, dumpAddrs, List.map_map]
    rfl

end Sys2Proof.Machine
end

section
/-! SUPPORT. One request, two targets (spec/20_memory.md R66): the two next states differ in the levels sampled, the
bytes made of them, and what the spec lets those decide. -/

namespace Sys2Proof.Machine

/-- The block as it is, with another target seated. -/
def State.seat (s : State) (g : Target) : State := { s with target := g }

theorem seat_ite (c : Prop) [Decidable c] (s t : State) (g : Target) :
    (if c then s else t).seat g = if c then s.seat g else t.seat g := apply_ite (State.seat · g) c s t

/-- `t` and `u`, next states of one request from `s` under two targets, agree as R66 asks: where `outcome` holds the
target decides neither `st` nor the status, where `number` holds it does not decide how many samples there are. -/
structure TwoRuns (s t u : State) (outcome number : Prop) : Prop where
  sel : u.sel = t.sel
  dir : u.dir = t.dir
  lvl : u.lvl = t.lvl
  refused : u.refused = t.refused
  requests : u.requests = t.requests
  cfg : u.cfg = t.cfg
  answers : ∃ r r', t.responses = s.responses ++ [r] ∧ u.responses = s.responses ++ [r'] ∧
    (outcome → u.st = t.st ∧ r'.status = r.status)
  calls : u.trace.filter notSample = t.trace.filter notSample
  events : number → u.trace.map withoutLevel = t.trace.map withoutLevel

section
variable {s : State} {outcome number : Prop}

/-- A request that samples nothing leaves the same state under both targets, but for the target. -/
theorem TwoRuns.of_seat {t : State} {r : Response} (h : t.responses = s.responses ++ [r]) (g : Target) :
    TwoRuns s t (t.seat g) outcome number :=
  ⟨rfl, rfl, rfl, rfl, rfl, rfl, ⟨r, r, h, h, fun _ => ⟨rfl, rfl⟩⟩, rfl, fun _ => rfl⟩

/-- Two runs whose events have the same effect on the pins and the same calls. -/
theorem TwoRuns.of_events {es fs : List Event} (g g' : Target)
    (hpins : es.foldl Pins.apply s.pins = fs.foldl Pins.apply s.pins)
    (hcalls : es.filter notSample = fs.filter notSample)
    (hevents : number → es.map withoutLevel = fs.map withoutLevel) {x x' : SeqState} {r r' : Response}
    (houtcome : outcome → x' = x ∧ r'.status = r.status) :
    TwoRuns s (((s.did es g).setSt x).respond r.status r.val) (((s.did fs g').setSt x').respond r'.status r'.val)
      outcome number := by
  refine ⟨rfl, congrArg Pins.dir hpins.symm, congrArg Pins.lvl hpins.symm, rfl, rfl, rfl,
    ⟨r, r', rfl, rfl, houtcome⟩, ?_, fun hc => ?_⟩
  · simp [hcalls]
  · simp [hevents hc]

/-- Two exchanges that send the same and differ in the levels sampled (R206). -/
theorem TwoRuns.of_exchange {es fs : List Event} (h : es.map withoutLevel = fs.map withoutLevel) (g g' : Target)
    (v v' : BitVec 32) :
    TwoRuns s ((s.did es g).respond .ok v) ((s.did fs g').respond .ok v') outcome number :=
  .of_events (x := s.st) (x' := s.st) (r := ⟨.ok, v⟩) (r' := ⟨.ok, v'⟩) g g' (foldl_of_withoutLevel es fs h s.pins)
    (filter_of_withoutLevel es fs h) (fun _ => h) fun _ => ⟨rfl, rfl⟩

/-- Two entry sequences: the echoes decide how they end (R208, R209). -/
theorem TwoRuns.of_entry {es fs : List Event} (h : es.map withoutLevel = fs.map withoutLevel) (g g' : Target)
    (e e' : Echoes) (houtcome : ¬ outcome) :
    TwoRuns s (ispConclude e (s.did es g)) (ispConclude e' (s.did fs g')) outcome number := by
  rw [ispConclude_eq, ispConclude_eq]
  exact .of_events (r := ⟨_, _⟩) (r' := ⟨_, _⟩) g g' (foldl_of_withoutLevel es fs h s.pins)
    (filter_of_withoutLevel es fs h) (fun _ => h) fun hf => absurd hf houtcome

/-- Samples are no calls that write. -/
theorem filter_notSample_of_samples {P : Profile} {es : List Event} (ho : OnlySamples P es) :
    es.filter notSample = [] := by
  refine List.filter_eq_nil_iff.mpr fun e he => ?_
  obtain ⟨i, p, l, -, -, rfl⟩ := ho e he
  simp [notSample]

/-- Two parallel reads: the passes decide how many samples there are (R184). -/
theorem TwoRuns.of_passes {P : Profile} {es fs : List Event} (he : OnlySamples P es) (hf : OnlySamples P fs)
    (drives : List Event) (g g' : Target) (v v' : BitVec 32) (hnumber : ¬ number) :
    TwoRuns s ((s.did (drives ++ es) g).respond .ok v) ((s.did (drives ++ fs) g').respond .ok v') outcome number := by
  refine .of_events (x := s.st) (x' := s.st) (r := ⟨.ok, v⟩) (r' := ⟨.ok, v'⟩) g g' ?_ ?_
    (fun hc => absurd hc hnumber) fun _ => ⟨rfl, rfl⟩
  · rw [List.foldl_append, List.foldl_append, foldl_samples he, foldl_samples hf]
  · rw [List.filter_append, List.filter_append, filter_notSample_of_samples he, filter_notSample_of_samples hf]

end

/-- The target does not decide the outcome: it does for SETUP and ISP_PROBE of an ISP profile (R209). -/
def OutcomeFixed (s : State) (i : Instr) : Prop :=
  (∀ P, s.profile? = some P → isIsp P = false) ∨ (i ≠ .setup ∧ i ≠ .ispProbe)

/-- The target does not decide the number of samples: it does for READ of a parallel profile (R184). -/
def SamplesFixed (s : State) (i : Instr) : Prop :=
  (∀ P, s.profile? = some P → isIsp P = true) ∨ (∀ a, i ≠ .read a)

section
variable {s t : State} (g : Target)

theorem setup_twoRuns (h : exec .setup s = .next t) : ∃ u, exec .setup (s.seat g) = .next u ∧
    TwoRuns s t u (OutcomeFixed s .setup) (SamplesFixed s .setup) := by
  by_cases hs : s.st = .tristate
  · obtain ⟨P, hP, -⟩ := withProfile_next ((if_neg (not_not_intro hs)).symm.trans h)
    cases hl : optLatch P with
    | true =>
      cases (exec_setup_latch s P hP hs hl).symm.trans h
      exact ⟨_, exec_setup_latch (s.seat g) P hP hs hl, .of_seat rfl g⟩
    | false =>
      cases hi : isIsp P with
      | true =>
        obtain ⟨e, g1, he, -⟩ := exec_setup_isp s P hP hs hl hi
        obtain ⟨e', g2, he', -⟩ := exec_setup_isp (s.seat g) P hP hs hl hi
        cases he.symm.trans h
        refine ⟨_, he', .of_entry ?_ g1 g2 e e' ?_⟩
        · rw [List.map_append, List.map_append, entryEvents_withoutLevel]
          rfl
        · rintro (hpar | ⟨hne, -⟩)
          · simp [hpar P hP] at hi
          · exact hne rfl
      | false =>
        cases (exec_setup_parallel s P hP hs hl hi).symm.trans h
        exact ⟨_, exec_setup_parallel (s.seat g) P hP hs hl hi, .of_seat rfl g⟩
  · cases (exec_setup_refused s hs).symm.trans h
    exact ⟨_, exec_setup_refused (s.seat g) hs, .of_seat rfl g⟩

theorem read_twoRuns {a : Arg} (h : exec (.read a) s = .next t) : ∃ u, exec (.read a) (s.seat g) = .next u ∧
    TwoRuns s t u (OutcomeFixed s (.read a)) (SamplesFixed s (.read a)) := by
  by_cases hs : s.st = .ready
  · obtain ⟨P, hP, -⟩ := withProfile_next ((if_neg (not_not_intro hs)).symm.trans h)
    cases hi : isIsp P with
    | true =>
      obtain ⟨r0, r1, r2, r3, g1, he, -⟩ := exec_read_isp s P a hP hs hi
      obtain ⟨q0, q1, q2, q3, g2, he', -⟩ := exec_read_isp (s.seat g) P a hP hs hi
      cases he.symm.trans h
      exact ⟨_, he', .of_exchange (frameEvents_withoutLevel ..) g1 g2 _ _⟩
    | false =>
      have he := exec_read_ready hP hs a
      have he' := exec_read_ready (s := s.seat g) hP hs a
      rw [readByte_parallel hi] at he he'
      obtain ⟨es, g1, hdid, ho⟩ := parallelRead_samples P a s
      obtain ⟨fs, g2, hdid', ho'⟩ := parallelRead_samples P a (s.seat g)
      cases he.symm.trans h
      refine ⟨_, he', ?_⟩
      rw [hdid, hdid']
      refine .of_passes ho ho' _ g1 g2 _ _ ?_
      rintro (hisp | hne)
      · simp [hisp P hP] at hi
      · exact hne a rfl
  · cases (exec_read_refused s a hs).symm.trans h
    exact ⟨_, exec_read_refused (s.seat g) a hs, .of_seat rfl g⟩

theorem ispProbe_twoRuns (h : exec .ispProbe s = .next t) : ∃ u, exec .ispProbe (s.seat g) = .next u ∧
    TwoRuns s t u (OutcomeFixed s .ispProbe) (SamplesFixed s .ispProbe) := by
  obtain ⟨P, hP, -⟩ := withProfile_next h
  cases ha : ispAccepts P s with
  | true =>
    obtain ⟨e, g1, he, -⟩ := exec_ispProbe s P hP ha
    obtain ⟨e', g2, he', -⟩ := exec_ispProbe (s.seat g) P hP ha
    cases he.symm.trans h
    refine ⟨_, he', .of_entry (entryEvents_withoutLevel ..) g1 g2 e e' ?_⟩
    rintro (hpar | ⟨-, hne⟩)
    · simp [ispAccepts, hpar P hP] at ha
    · exact hne rfl
  | false =>
    cases (exec_ispProbe_refused s P hP ha).symm.trans h
    exact ⟨_, exec_ispProbe_refused (s.seat g) P hP ha, .of_seat rfl g⟩

theorem ispXfer_twoRuns {b : Byte} (h : exec (.ispXfer b) s = .next t) :
    ∃ u, exec (.ispXfer b) (s.seat g) = .next u ∧
      TwoRuns s t u (OutcomeFixed s (.ispXfer b)) (SamplesFixed s (.ispXfer b)) := by
  obtain ⟨P, hP, -⟩ := withProfile_next h
  cases ha : ispAccepts P s with
  | true =>
    obtain ⟨r, g1, he, -⟩ := exec_ispXfer s P b hP ha
    obtain ⟨r', g2, he', -⟩ := exec_ispXfer (s.seat g) P b hP ha
    cases he.symm.trans h
    exact ⟨_, he', .of_exchange (xferEvents_withoutLevel ..) g1 g2 _ _⟩
  | false =>
    cases (exec_ispXfer_refused s P b hP ha).symm.trans h
    exact ⟨_, exec_ispXfer_refused (s.seat g) P b hP ha, .of_seat rfl g⟩

end

theorem exec_twoRuns {i : Instr} {s t : State} (g : Target) (h : exec i s = .next t) :
    ∃ u, exec i (s.seat g) = .next u ∧ TwoRuns s t u (OutcomeFixed s i) (SamplesFixed s i) := by
  obtain ⟨r, hr⟩ := (exec_cases i s t h).responds
  have silent : exec i (s.seat g) = .next (t.seat g) →
      ∃ u, exec i (s.seat g) = .next u ∧ TwoRuns s t u (OutcomeFixed s i) (SamplesFixed s i) :=
    fun hu => ⟨t.seat g, hu, .of_seat hr g⟩
  cases i with
  | setup => exact setup_twoRuns g h
  | read a => exact read_twoRuns g h
  | ispProbe => exact ispProbe_twoRuns g h
  | ispXfer b => exact ispXfer_twoRuns g h
  | tristate =>
    cases (exec_tristate s).symm.trans h
    exact silent (exec_tristate (s.seat g))
  | select idx =>
    cases (exec_select s idx).symm.trans h
    exact silent ((exec_select (s.seat g) idx).trans (by rw [seat_ite, seat_ite]; rfl))
  | ispClock n =>
    obtain ⟨P, hP, -⟩ := withProfile_next h
    cases (exec_ispClock s P n hP).symm.trans h
    exact silent ((exec_ispClock (s.seat g) P n hP).trans (by rw [seat_ite]; rfl))
  | xlate k =>
    obtain ⟨P, hP, -⟩ := withProfile_next h
    cases (exec_xlate s P k hP).symm.trans h
    exact silent ((exec_xlate (s.seat g) P k hP).trans (by rw [seat_ite]; rfl))

/-- Settles O45: the two runs of each request. -/
theorem targetDecidesOnlyBytes : Obligations.TargetDecidesOnlyBytes := by
  intro i s t g h
  obtain ⟨u, hu, hruns⟩ := exec_twoRuns g h
  exact ⟨u, hu, hruns.sel, hruns.dir, hruns.lvl, hruns.refused, hruns.requests, hruns.cfg, hruns.answers, hruns.calls,
    hruns.events⟩

end Sys2Proof.Machine
end

section
/-! SUPPORT. The encoding of requests and responses (spec/30_encoding.md R82 to R90): a request is read from exactly the
word whose two fields carry it, the operation map selects that word for its row, the port answers every other word
`ERR_OP`, and a response word reads back. -/

namespace Sys2Proof

/-! A request and its operand field (R84). -/

/-- How many low bits of `arg` the request's sub-format uses (R84). -/
def Instr.usedBits : Instr → Nat
  | .tristate | .setup | .ispProbe => 0
  | .select _ | .read _ => 32
  | .ispXfer _ | .xlate _ => 8
  | .ispClock _ => 16

/-- The request of the same operation whose operand stands in the used bits of `arg` (R84). -/
def Instr.withArg (i : Instr) (arg : Arg) : Instr :=
  match i with
  | .tristate => .tristate
  | .select _ => .select arg.toNat
  | .setup => .setup
  | .read _ => .read arg
  | .ispProbe => .ispProbe
  | .ispXfer _ => .ispXfer (arg.setWidth 8)
  | .ispClock _ => .ispClock (arg.setWidth 16).toNat
  | .xlate _ => .xlate (arg.setWidth 8).toNat

@[simp] theorem Instr.withArg_mnemonic (i : Instr) (arg : Arg) : (i.withArg arg).mnemonic = i.mnemonic := by
  cases i <;> rfl

/-- No operand reaches the must-be-zero bits of its sub-format (R84). -/
theorem Instr.arg_lt (i : Instr) : i.arg.toNat < 2 ^ i.usedBits := by
  cases i with
  | tristate | setup | ispProbe => decide
  | select idx => exact BitVec.isLt _
  | read addr => exact addr.isLt
  | ispXfer | ispClock | xlate =>
    rw [Instr.arg, BitVec.toNat_setWidth]
    exact Nat.mod_lt_of_lt (BitVec.isLt _)

/-- A well-formed request is the one its operand field carries (R84). -/
theorem Instr.withArg_arg {i : Instr} (h : i.WellFormed) : i.withArg i.arg = i := by
  cases i with
  | tristate | setup | read | ispProbe => rfl
  | select idx => simpa [Instr.withArg, Instr.arg] using h
  | ispXfer b => simp [Instr.withArg, Instr.arg]
  | ispClock n => simpa [Instr.withArg, Instr.arg] using h
  | xlate k => simpa [Instr.withArg, Instr.arg] using h

/-- What a field of the operand's width carries is well-formed (R84). -/
theorem Instr.withArg_wellFormed (i : Instr) (arg : Arg) : (i.withArg arg).WellFormed := by
  cases i with
  | tristate | setup | read | ispProbe | ispXfer => trivial
  | select | ispClock | xlate => exact BitVec.isLt _

/-- An operand field without must-be-zero bits is carried whole (R84). -/
theorem Instr.arg_withArg {i : Instr} {arg : Arg} (h : arg.toNat < 2 ^ i.usedBits) : (i.withArg arg).arg = arg := by
  apply BitVec.eq_of_toNat_eq
  cases i with
  | tristate | setup | ispProbe => exact (Nat.lt_one_iff.1 h).symm
  | select | read => simp [Instr.withArg, Instr.arg]
  | ispXfer | ispClock | xlate =>
    rw [Instr.usedBits] at h
    simp [Instr.withArg, Instr.arg]
    omega

/-! The decoder (R83 to R88). -/

/-- An accepted word has the operation code of the request read (R85). -/
theorem op_of_decode {w : ReqWord} {i : Instr} (h : decode w = .ok i) : opField w = i.op := by
  simp only [decode] at h
  split at h
  case h_1 hop | h_3 hop | h_5 hop | h_6 hop | h_7 hop | h_8 hop =>
    obtain ⟨-, rfl⟩ := (zeroChecked_ok _ _ _ _).1 h
    exact BitVec.eq_of_toNat_eq hop
  case h_2 hop | h_4 hop =>
    cases h
    exact BitVec.eq_of_toNat_eq hop
  case h_9 => cases h

/-- A word with an operation code of the map is read as that operation, after the zero check of its sub-format
(R86, R88). -/
theorem decode_of_op {w : ReqWord} {i : Instr} (h : opField w = i.op) :
    decode w = zeroChecked i.usedBits (argField w) (i.withArg (argField w)) := by
  cases i with
  | tristate | setup | ispProbe | ispXfer | ispClock | xlate => simp only [decode, h]; rfl
  | select | read =>
    refine Eq.trans ?_ ((zeroChecked_ok _ _ _ _).2 ⟨(argField w).isLt, rfl⟩).symm
    simp only [decode, h]
    rfl

/-- The decoder reads a well-formed request from exactly the word whose two fields are that request's (R83 to R88). -/
theorem decode_ok_iff (w : ReqWord) (i : Instr) :
    decode w = .ok i ↔ i.WellFormed ∧ opField w = i.op ∧ argField w = i.arg := by
  constructor
  · intro h
    have hop := op_of_decode h
    obtain ⟨hlt, hi⟩ := (zeroChecked_ok _ _ _ _).1 ((decode_of_op hop).symm.trans h)
    exact ⟨hi ▸ i.withArg_wellFormed _, hop, (i.arg_withArg hlt).symm.trans (congrArg Instr.arg hi)⟩
  · rintro ⟨hi, hop, harg⟩
    rw [decode_of_op hop, harg, zeroChecked_ok]
    exact ⟨i.arg_lt, i.withArg_arg hi⟩

/-- Settles O1: the fields of a request's word are the request's. -/
theorem decodeReadsBackEncode : Obligations.DecodeReadsBackEncode := fun i hi =>
  (decode_ok_iff _ i).2 ⟨hi, opField_reqWord _ _, argField_reqWord _ _⟩

/-- Settles O2: a word is its two fields, and an accepted word's are those of the request read. -/
theorem encodeReadsBackDecode : Obligations.EncodeReadsBackDecode := by
  intro w i h
  obtain ⟨hi, hop, harg⟩ := (decode_ok_iff w i).1 h
  exact ⟨hi, by rw [encode, ← hop, ← harg, reqWord_fields]⟩

/-- Settles O6: each word is what the encoder makes of a well-formed request. -/
theorem specWordsDecode : Obligations.SpecWordsDecode :=
  ⟨decodeReadsBackEncode .tristate trivial, decodeReadsBackEncode (.select 5) (by decide),
    decodeReadsBackEncode (.select 4294967295) (by decide), decodeReadsBackEncode .setup trivial,
    decodeReadsBackEncode (.read 0x4000#32) trivial, decodeReadsBackEncode .ispProbe trivial,
    decodeReadsBackEncode (.ispXfer 0xAC#8) trivial, decodeReadsBackEncode (.ispClock 65535) (by decide),
    decodeReadsBackEncode (.xlate 15) (by decide)⟩

/-! The operation map (R85, R86). -/

open Laws.EncodeSelectsRow (and_reqWord and_eq_zero)

theorem reqWord_inj {op op' : BitVec 8} {arg arg' : Arg} :
    reqWord op arg = reqWord op' arg' ↔ op = op' ∧ arg = arg' :=
  ⟨fun h => ⟨by simpa using congrArg opField h, by simpa using congrArg argField h⟩, fun ⟨h, h'⟩ => by rw [h, h']⟩

/-- An operand field fits `n` bits when it has no bit under the mask of the others. -/
theorem and_upperMask (arg : Arg) (n : Nat) : arg &&& (BitVec.allOnes 32 <<< n) = 0 ↔ arg.toNat < 2 ^ n := by
  constructor
  · intro h
    refine Nat.lt_pow_two_of_testBit _ fun i hi => ?_
    by_cases h32 : i < 32
    · have hm : (BitVec.allOnes 32 <<< n).getLsbD i = true := by
        rw [BitVec.getLsbD_shiftLeft, BitVec.getLsbD_allOnes]
        simp [h32, Nat.lt_of_le_of_lt (Nat.sub_le i n) h32, Nat.not_lt.2 hi]
      have hbit := congrArg (BitVec.getLsbD · i) h
      rw [BitVec.getLsbD_and, hm, Bool.and_true] at hbit
      exact hbit.trans BitVec.getLsbD_zero
    · exact BitVec.getLsbD_of_ge arg i (Nat.le_of_not_lt h32)
  · exact fun h => and_eq_zero arg _ n h fun i hi => by simp [hi]

/-- The row of a request in the operation map: the mask keeps the operation code and the must-be-zero bits (R85). -/
def Instr.row (i : Instr) : OpRow :=
  { mnemonic := i.mnemonic
    mask := reqWord 0xFF#8 (BitVec.allOnes 32 <<< i.usedBits)
    pattern := reqWord i.op 0 }

/-- The operation map holds the rows of the eight operations (R85). -/
theorem mem_opTable {r : OpRow} (h : r ∈ opTable) : ∃ i : Instr, r = i.row := by
  have hmap : opTable = [Instr.tristate, .select 0, .setup, .read 0, .ispProbe, .ispXfer 0, .ispClock 0, .xlate 0].map
      Instr.row := by decide
  rw [hmap] at h
  obtain ⟨i, -, hi⟩ := List.mem_map.1 h
  exact ⟨i, hi.symm⟩

/-- A word selects a request's row by its operation code and its must-be-zero bits (R85). -/
theorem Instr.row_selects_iff (i : Instr) (w : ReqWord) :
    i.row.selects w = true ↔ opField w = i.op ∧ (argField w).toNat < 2 ^ i.usedBits := by
  have hop : opField w &&& 0xFF#8 = opField w := BitVec.and_allOnes
  conv_lhs => rw [← reqWord_fields w]
  rw [OpRow.selects, beq_iff_eq, Instr.row, and_reqWord, reqWord_inj, hop, and_upperMask]

/-- The word of every request selects the row of its mnemonic (R85). -/
theorem encode_selects_row (i : Instr) : Laws.EncodeSelectsRow.Statement i := by
  cases i with
  | tristate => exact Laws.EncodeSelectsRow.tristate
  | select idx => exact Laws.EncodeSelectsRow.select idx
  | setup => exact Laws.EncodeSelectsRow.setup
  | read addr => exact Laws.EncodeSelectsRow.read addr
  | ispProbe => exact Laws.EncodeSelectsRow.ispProbe
  | ispXfer b => exact Laws.EncodeSelectsRow.ispXfer b
  | ispClock n => exact Laws.EncodeSelectsRow.ispClock n
  | xlate k => exact Laws.EncodeSelectsRow.xlate k

/-- A mnemonic names one row of the operation map (R85). -/
theorem opTable_mnemonic_inj : ∀ r ∈ opTable, ∀ r' ∈ opTable, r.mnemonic = r'.mnemonic → r = r' := by decide

/-- A word that selects a row is read as the row's operation: the row has the word's operation code and tests the
must-be-zero bits (R85, R86). -/
theorem decode_of_selects {w : ReqWord} {r : OpRow} (hr : r ∈ opTable) (h : r.selects w = true) :
    ∃ i, decode w = .ok i ∧ i.mnemonic = r.mnemonic := by
  obtain ⟨i, rfl⟩ := mem_opTable hr
  obtain ⟨hop, hlt⟩ := (i.row_selects_iff w).1 h
  exact ⟨_, (decode_of_op hop).trans ((zeroChecked_ok _ _ _ _).2 ⟨hlt, rfl⟩), i.withArg_mnemonic _⟩

/-- Settles O3: a row selects the words the decoder reads as its operation, and these are words of its requests, which
it selects. -/
theorem decodeFollowsOperationMap : Obligations.DecodeFollowsOperationMap := by
  refine fun w r hr => ⟨decode_of_selects hr, fun ⟨i, hd, hm⟩ => ?_⟩
  obtain ⟨r', hr', hm', hsel⟩ := encode_selects_row i
  rwa [(encodeReadsBackDecode w i hd).2, opTable_mnemonic_inj r' hr' r hr (hm'.trans hm)] at hsel

/-- Settles O4: the decoder reads one request from a word, and a mnemonic names one row. -/
theorem operationRowsDoNotOverlap : Obligations.OperationRowsDoNotOverlap := by
  intro w r1 hr1 r2 hr2 h1 h2
  obtain ⟨i, hi, hm1⟩ := decode_of_selects hr1 h1
  obtain ⟨j, hj, hm2⟩ := decode_of_selects hr2 h2
  obtain rfl : i = j := Except.ok.inj (hi.symm.trans hj)
  exact opTable_mnemonic_inj r1 hr1 r2 hr2 (hm1.symm.trans hm2)

/-! Illegal words (R87, R88). -/

/-- A word whose operand field fits its `used` low bits has no bit set in the rest of the field (R83, R84). -/
theorem upperBits_eq_zero {w : ReqWord} {used len : Nat} (hl : used + len = 32)
    (h : (argField w).toNat < 2 ^ used) : w.extractLsb' used len = 0 := by
  apply BitVec.eq_of_toNat_eq
  have harg : w.toNat % 2 ^ (used + len) < 2 ^ used := by simpa [argField, hl] using h
  simpa [Nat.shiftRight_eq_div_pow, ← Nat.mod_mul_right_div_self, ← Nat.pow_add] using harg

end Sys2Proof

namespace Sys2Proof.Machine

/-- Settles O5: a word the decoder accepts has a request's operation code and no must-be-zero bit of its sub-format, which
each clause of the hypothesis denies; the port answers a refused word `ERR_OP`. -/
theorem illegalWordsAnswerErrOp : Obligations.IllegalWordsAnswerErrOp := by
  intro s w rest hr hill
  cases hd : decode w with
  | error e => exact step_of_decode_error hr hd
  | ok i =>
    obtain ⟨-, hop, harg⟩ := (decode_ok_iff w i).1 hd
    have hlt := harg ▸ i.arg_lt
    have hop' : w.extractLsb' 32 8 = i.op := hop
    rw [hop'] at hill
    cases i with
    | tristate | setup | ispProbe => simp [Instr.op, upperBits_eq_zero (len := 32) rfl hlt] at hill
    | select | read => simp [Instr.op] at hill
    | ispXfer | xlate => simp [Instr.op, upperBits_eq_zero (len := 24) rfl hlt] at hill
    | ispClock n => simp [Instr.op, upperBits_eq_zero (len := 16) rfl hlt] at hill

/-! The port (R82). -/

/-- A step with no word presented waits (R302). -/
theorem step_of_idle {s : State} (h : s.requests = []) : step s = .next s := by
  simp only [step, State.accept, h]

theorem decode_of_decodeTableWord {nbits w : Nat} {i : Instr} (h : decodeTableWord nbits w = some i) :
    decode (BitVec.ofNat 40 (w % 2 ^ nbits)) = .ok i := by
  unfold decodeTableWord at h
  split at h
  next hd => rwa [← Option.some.inj h]
  next => cases h

/-- Settles O7: an idle port gives nothing to run, and a word presented is the next one taken. -/
theorem stepRunsNextRequest : Obligations.StepRunsNextRequest :=
  ⟨fun _ => step_of_idle, fun _ _ _ _ => step_of_decode_ok, fun s nbits w _ h =>
    step_of_decode_ok (s := s.withFetchWord nbits w) rfl (decode_of_decodeTableWord h)⟩

/-! The response word (R89, R90). -/

@[simp] theorem Status.ofCode_code (r : Status) : Status.ofCode r.code = some r := by cases r <;> rfl

theorem Status.ofCode_reserved {c : BitVec 8} (h : 6 ≤ c.toNat) : Status.ofCode c = none := by
  unfold Status.ofCode
  split
  case h_7 => rfl
  all_goals omega

/-- Settles O8: a response word has the two fields of a request word, and a status is known by its code. -/
theorem responseWordFormat : Obligations.ResponseWordFormat := by
  refine ⟨fun r => ?_, rfl, rfl, rfl, rfl, rfl, rfl, fun c => Status.ofCode_reserved⟩
  have hstatus : r.word.extractLsb' 32 8 = r.status.code := opField_reqWord _ _
  have hval : r.word.extractLsb' 0 32 = r.val := argField_reqWord _ _
  exact ⟨hstatus, hval, by rw [Response.ofWord, hstatus, Status.ofCode_code, hval]⟩

end Sys2Proof.Machine
end

section
/-! SUPPORT. Sessions (spec/30_encoding.md R108): every word of one is answered, and its last request makes the socket
safe (spec/42_setup_tristate.md R170, R171). -/

namespace Sys2Proof.Machine

/-- A block with an active profile answers the words presented, one a step (R82, R282). -/
theorem run_words {ws rest : List ReqWord} {s : State} (hsel : s.sel < s.cfg.catalog.length)
    (hr : s.requests = ws ++ rest) (k : Nat) :
    ∃ t, Host.Core.run core (ws.length + k) s = Host.Core.run core k t ∧ t.requests = rest ∧
      t.responses.length = s.responses.length + ws.length := by
  induction ws generalizing s with
  | nil => exact ⟨s, by simp, hr, rfl⟩
  | cons w ws ih =>
    obtain ⟨t, r, hstep, hresp, hreq, ht⟩ := everyRequestIsAnswered s w (ws ++ rest) hsel hr
    obtain ⟨u, hrun, hrest, hlen⟩ := ih ht hreq
    refine ⟨u, ?_, hrest, ?_⟩
    · rw [List.length_cons, Nat.add_right_comm, ← hrun]
      exact run_succ hstep _
    · simp [hlen, hresp, Nat.add_assoc, Nat.add_comm 1]

/-- A session is SETUP, a body, and TRISTATE at its end (R108). -/
theorem eq_inSession_of_isSession {l : List Instr} (h : isSession l = true) : ∃ body, l = inSession body := by
  unfold isSession at h
  split at h
  · split at h
    next rest body hrev => exact ⟨body.reverse, by simp [inSession, List.reverse_eq_iff.1 hrev]⟩
    · cases h
  · cases h

/-- Settles O50: every word before the last is answered, whatever it does, and the last is TRISTATE. -/
theorem sessionsEndSafe : Obligations.SessionsEndSafe := by
  rintro s l hI hidle hl -
  obtain ⟨body, rfl⟩ := eq_inSession_of_isSession hl
  have hsubmit : (s.submit (inSession body)).requests = (.setup :: body).map encode ++ [encode .tristate] := by
    simp [State.submit, hidle, inSession]
  obtain ⟨t, hrun, hlast, hlen⟩ := run_words (s := s.submit (inSession body)) hI.selBound hsubmit 1
  obtain ⟨u, htristate, hok, hst, hsafe⟩ := exec_tristate_safe { t with requests := [] }
  have hstep := step_of_decode_ok hlast decode_encode_tristate
  have hreq := (exec_cases _ _ _ htristate).requests_eq
  refine ⟨u, ?_, hst, hsafe, hreq, ?_⟩
  · rw [inSession, List.length_append, ← List.length_map encode]
    exact hrun.trans (run_succ (hstep.trans htristate) 0)
  · simp [hok, hlen, inSession, State.submit, Nat.add_assoc]

end Sys2Proof.Machine
end

section
/-! SUPPORT. The translator (spec/40_translator.md R120 to R122), XLATE's answer (R128), and the four pin primitives on a
package pin with a physical pin (R124 to R127). -/

namespace Sys2Proof.Machine

/-! The translator: the first half of the package's pins stay, the second half move up to the socket's end. -/

/-- The two halves of R120, with the physical pin each gives. -/
theorem translatePin_eq_some {P : Profile} {k p : Nat} :
    translatePin P k = some p ↔
      (1 ≤ k ∧ k ≤ P.pins / 2 ∧ p = k) ∨ (P.pins / 2 < k ∧ p = k + (40 - P.pins)) := by
  unfold translatePin
  split_ifs
  · simp only [false_iff]
    omega
  · simp only [Option.some.injEq]
    omega
  · rw [Option.some.injEq, zifPins]
    omega

/-- R99: the number XLATE answers, 0 for an unused pin. -/
theorem pinNumber_translatePin (P : Profile) (k : Nat) :
    pinNumber (translatePin P k) = if k ≤ P.pins / 2 then k else k + (40 - P.pins) := by
  cases h : translatePin P k with
  | none =>
    obtain rfl := (translatePin_eq_none P k).mp h
    rfl
  | some p =>
    obtain ⟨-, hk, rfl⟩ | ⟨hk, rfl⟩ := translatePin_eq_some.mp h
    · exact (if_pos hk).symm
    · exact (if_neg (not_le.mpr hk)).symm

/-- R122 (a). -/
theorem exists_translatePin {P : Profile} {k : Nat} (hp : P.pins ≤ 40) (h1 : 1 ≤ k) (hk : k ≤ P.pins) :
    ∃ p, translatePin P k = some p ∧ 1 ≤ p ∧ p ≤ 40 := by
  obtain ⟨p, h⟩ := Option.ne_none_iff_exists'.mp (mt (translatePin_eq_none P k).mp (by omega))
  exact ⟨p, h, translatePin_range P k p hp hk h⟩

/-- R122 (b), the sentinel included. -/
theorem translatePin_injective (P : Profile) : Function.Injective (translatePin P) := by
  intro k1 k2 h
  cases h2 : translatePin P k2 with
  | none => rw [(translatePin_eq_none P k1).mp (h.trans h2), (translatePin_eq_none P k2).mp h2]
  | some p => exact translatePin_inj P k1 k2 p (h.trans h2) h2

/-- R122 (c): the physical pins of a package are the two ends of the socket. -/
theorem translatePin_image {P : Profile} (hp : P.pins ≤ 40) (p : Nat) :
    (∃ k, 1 ≤ k ∧ k ≤ P.pins ∧ translatePin P k = some p) ↔
      (1 ≤ p ∧ p ≤ P.pins / 2) ∨ (41 - (P.pins - P.pins / 2) ≤ p ∧ p ≤ 40) := by
  simp only [translatePin_eq_some]
  constructor
  · rintro ⟨k, h1, hk, ⟨-, hlow, rfl⟩ | ⟨hhigh, rfl⟩⟩
    · exact .inl ⟨h1, hlow⟩
    · exact .inr (by omega)
  · rintro (⟨h1, hlow⟩ | ⟨hhigh, h40⟩)
    · exact ⟨p, h1, by omega, .inl ⟨h1, hlow, rfl⟩⟩
    · exact ⟨p - (40 - P.pins), by omega, by omega, .inr (by omega)⟩

/-- R122 (e). -/
theorem translatePin_mono {P : Profile} {k1 k2 p1 p2 : Nat} (hk : k1 ≤ k2) (h1 : translatePin P k1 = some p1)
    (h2 : translatePin P k2 = some p2) : p1 ≤ p2 := by
  rw [translatePin_eq_some] at h1 h2
  omega

/-- Settles O9: (d) and (f) are read off the two halves of the translation. -/
theorem translatorProperties : Obligations.TranslatorProperties := by
  intro P h1 h40
  refine ⟨fun k hk hkP => exists_translatePin h40 hk hkP, fun k1 k2 _ _ h => translatePin_injective P h,
    translatePin_image h40, fun hP k hk _ => ?_, fun k1 k2 p1 p2 hk _ e1 e2 => translatePin_mono hk e1 e2, fun h2 => ?_,
    ?_, translatePin_zero P⟩
  · exact translatePin_eq_some.mpr (by omega)
  · exact translatePin_eq_some.mpr (.inl (by omega))
  · exact translatePin_eq_some.mpr (.inr (by omega))

/-- Settles O10: the two cases of an XLATE, its answer read as a number. -/
theorem xlateAnswersPhysicalPin : Obligations.XlateAnswersPhysicalPin := by
  intro s P k hP
  rw [exec_xlate s P k hP, pinNumber_translatePin]
  exact ⟨fun hk => by rw [if_neg (not_lt.mpr hk)]; rfl, fun hk => by rw [if_pos hk]; rfl⟩

/-! The pin primitives: with a physical pin each is its port calls on that pin. -/

section

variable {P : Profile} {k p : Nat} (h : translatePin P k = some p)
include h

/-- R124. -/
theorem pinOut_of_translatePin (v : Level) (s : State) : pinOut P k v s = (s.drive p v).setDirection p true := by
  simp only [pinOut, h]

/-- R125. -/
theorem pinIn_of_translatePin (u : Level) (s : State) : pinIn P k u s = (s.setDirection p false).drive p u := by
  simp only [pinIn, h]

/-- R126. -/
theorem pinSet_of_translatePin (v : Level) (s : State) : pinSet P k v s = s.drive p v := by
  simp only [pinSet, h]

/-- R127. -/
theorem pinGet_of_translatePin (s : State) : pinGet P k s = s.sample p := by
  simp only [pinGet, h]

end

/-- Settles O12: each primitive is its port calls on the pin, and an unused pin has none. -/
theorem pinPrimitivesTouchTheirPin : Obligations.PinPrimitivesTouchTheirPin := by
  intro s P k
  refine ⟨fun p h h1 h2 => ⟨fun v => ?_, fun u => ?_, fun v => ?_, ?_⟩, ?_⟩
  · rw [pinOut_of_translatePin h]
    exact ⟨setDirection_dirOf_self h1 h2 _ _, drive_lvlOf_self h1 h2 s v,
      fun q hq => ⟨setDirection_dirOf_of_ne hq _ _, drive_lvlOf_of_ne hq s v⟩, by simp [State.drive, State.setDirection]⟩
  · rw [pinIn_of_translatePin h]
    exact ⟨setDirection_dirOf_self h1 h2 s false, drive_lvlOf_self h1 h2 _ _,
      fun q hq => ⟨setDirection_dirOf_of_ne hq s false, drive_lvlOf_of_ne hq _ _⟩,
      by simp [State.drive, State.setDirection]⟩
  · rw [pinSet_of_translatePin h]
    exact ⟨drive_lvlOf_self h1 h2 s v, fun q hq => drive_lvlOf_of_ne hq s v, rfl⟩
  · rw [pinGet_of_translatePin h]
    exact ⟨rfl, rfl, rfl⟩
  · rintro rfl
    exact ⟨fun v => ⟨rfl, rfl, rfl⟩, rfl⟩

end Sys2Proof.Machine
end

section
/-! SUPPORT. SELECT (spec/41_catalog_select.md R150) and the request that follows it, and a READ of the safe profile (R148),
which has a pin nowhere. -/

namespace Sys2Proof.Machine

/-! SELECT. -/

/-- SELECT of an index of the catalog in `Tristate` (R150). -/
theorem exec_select_accepted {s : State} {idx : Nat} (hs : s.st = .tristate) (hidx : idx < s.cfg.catalog.length) :
    exec (.select idx) s = .next ({ s with sel := idx }.respond .ok 0) := by
  rw [exec_select, if_neg (not_not_intro hs), if_neg (not_le.mpr hidx)]

/-- Settles O13: the three branches of a SELECT. -/
theorem selectChangesTheReferenceOnly : Obligations.SelectChangesTheReferenceOnly := by
  intro s idx
  refine ⟨exec_select_accepted, fun hs hidx => ?_, fun hs => ?_⟩
  · rw [exec_select, if_neg (not_not_intro hs), if_pos hidx]
    rfl
  · rw [exec_select, if_pos hs]
    rfl

/-- SELECT at the port, its index one that a word can carry (R82, R150). -/
theorem step_select_accepted {s : State} {idx : Nat} {rest : List ReqWord} (hr : s.requests = encode (.select idx) :: rest)
    (hidx : idx < 2 ^ 32) (hs : s.st = .tristate) (hlt : idx < s.cfg.catalog.length) :
    step s = .next ({ s with sel := idx, requests := rest }.respond .ok 0) :=
  (step_of_decode_ok hr (decodeReadsBackEncode (.select idx) hidx)).trans (exec_select_accepted hs hlt)

/-- XLATE of a package pin of the active profile (R120, R128). -/
theorem exec_xlate_accepted {s : State} {P : Profile} {k : Nat} (hP : s.profile? = some P) (hk : k ≤ P.pins) :
    exec (.xlate k) s = .next (s.respond .ok (BitVec.ofNat 32 (if k ≤ P.pins / 2 then k else k + (40 - P.pins)))) := by
  rw [exec_xlate s P k hP, if_neg (not_lt.mpr hk), pinNumber_translatePin]

/-- XLATE at the port (R82, R128). -/
theorem step_xlate_accepted {s : State} {P : Profile} {k : Nat} {rest : List ReqWord}
    (hr : s.requests = encode (.xlate k) :: rest) (hk : k < 2 ^ 8) (hP : s.profile? = some P) (hkP : k ≤ P.pins) :
    step s = .next ({ s with requests := rest }.respond .ok
      (BitVec.ofNat 32 (if k ≤ P.pins / 2 then k else k + (40 - P.pins)))) :=
  (step_of_decode_ok hr (decodeReadsBackEncode (.xlate k) hk)).trans (exec_xlate_accepted hP hkP)

/-- Settles O54: the SELECT at the port makes `P` the active profile, and the XLATE is answered by it. -/
theorem selectedProfileIsUsedNext : Obligations.SelectedProfileIsUsedNext := by
  intro s idx k rest P hs hP hidx hk hkP hr
  have hlt : idx < s.cfg.catalog.length := (List.getElem?_eq_some_iff.mp hP).1
  exact ⟨_, _, exec_select_accepted hs hlt, step_select_accepted hr hidx hs hlt, rfl, hP, hs, rfl, rfl, rfl, rfl, rfl,
    step_xlate_accepted rfl hk hP hkP, rfl, rfl⟩

/-! READ with no pin to drive or to sample. -/

/-- An entry of a list without pins is no pin (R14). -/
theorem nth_eq_zero {L : List Nat} (h : ∀ k ∈ L, k = 0) (i : Nat) : nth L i = 0 := by
  by_contra h0
  exact h0 (h _ (nth_mem L i h0))

/-- Without address pins no address is driven (R181). -/
theorem setAddress_of_no_pins {P : Profile} (h : ∀ k ∈ P.addrPins, k = 0) (a : Arg) (s : State) :
    setAddress P a s = s := by
  have hnone : addressEvents P a = [] := List.eq_nil_iff_forall_not_mem.mpr fun e he => by
    obtain ⟨i, p, hp, -⟩ := (mem_addressEvents P a e).mp he
    simp [nth_eq_zero h] at hp
  rw [setAddress_did, hnone, did_nil]

/-- An unused pin counts as 0, with no sample taken (R127). -/
theorem pinGet_zero (P : Profile) (s : State) : pinGet P 0 s = (false, s) := rfl

/-- A pass over entries without pins collects zeros and samples nothing (R127, R183). -/
theorem samplePins_of_no_pins (P : Profile) {ks : List Nat} (h : ∀ k ∈ ks, k = 0) (s : State) :
    samplePins P ks 0x00#8 s = (0x00#8, s) := by
  induction ks with
  | nil => rfl
  | cons k rest ih =>
    obtain ⟨rfl, hrest⟩ := List.forall_mem_cons.mp h
    have hinsert : insertTop 0x00#8 false = 0x00#8 := by decide
    rw [samplePins, pinGet_zero, hinsert, ih hrest]

theorem sampleByte_of_no_pins {P : Profile} (h : ∀ k ∈ P.dataPins, k = 0) (s : State) :
    sampleByte P s = (0x00#8, s) :=
  samplePins_of_no_pins P (by simp [passPins, nth_eq_zero h]) s

/-- Passes that return 0 and change nothing converge to 0 and change nothing (R184). -/
theorem converge_of_no_pins {P : Profile} (h : ∀ k ∈ P.dataPins, k = 0) (n : Nat) (s : State) :
    converge P n 0x00#8 s = (0x00#8, s) := by
  cases n with
  | zero => rfl
  | succ n => rw [converge, sampleByte_of_no_pins h, if_pos rfl]

/-- All that is left of a parallel read is its propagation delay (R184). -/
theorem parallelRead_of_no_pins {P : Profile} (ha : ∀ k ∈ P.addrPins, k = 0) (hd : ∀ k ∈ P.dataPins, k = 0) (a : Arg)
    (s : State) : parallelRead P a s = (0x00#8, s.delay .prop) := by
  simp only [parallelRead, setAddress_of_no_pins ha, sampleByte_of_no_pins hd, converge_of_no_pins hd]

/-- What W7 says of the safe profile's pins and flavour. -/
theorem pins_and_flavour_of_w7 {P : Profile} (h : Profile.w7 P = true) :
    (∀ k ∈ allPins P, k = 0) ∧ isIsp P = false := by
  simp only [Profile.w7, Bool.and_eq_true, List.isEmpty_iff, beq_iff_eq] at h
  obtain ⟨⟨⟨⟨hused, -⟩, -⟩, -⟩, hwidth⟩ := h
  refine ⟨fun k hk => ?_, isIsp_of_dataWidth hwidth⟩
  by_contra hk0
  simpa [hused] using (mem_allUsedPins P k).mpr ⟨hk, hk0⟩

/-- Settles O35: the safe profile is parallel and has no pin. -/
theorem safeProfileReadsZero : Obligations.SafeProfileReadsZero := by
  intro s P addr hP hw hs
  obtain ⟨hpins, hi⟩ := pins_and_flavour_of_w7 hw
  have ha : ∀ k ∈ P.addrPins, k = 0 := fun k hk => hpins k (by simp [allPins, hk])
  have hd : ∀ k ∈ P.dataPins, k = 0 := fun k hk => hpins k (by simp [allPins, hk])
  rw [exec_read_ready hP hs, readByte_parallel hi, parallelRead_of_no_pins ha hd]
  rfl

end Sys2Proof.Machine
end

section
/-! SUPPORT. SETUP and TRISTATE (spec/42_setup_tristate.md): the pins their events spare, how many events a
configuration has, and the pins an entry sequence leaves after SETUP (spec/44_isp_engine.md R208, R211). -/

namespace Sys2Proof.Machine

/-! Events that write neither bit of a pin. A sample is no write (R29). -/

/-- No event of the list sets the direction of pin `p` or drives it. -/
def Spares (p : Nat) (es : List Event) : Prop := ∀ e ∈ es, ∀ b, e ≠ .dir p b ∧ e ≠ .drv p b

theorem Spares.append {p : Nat} {es fs : List Event} (h : Spares p es) (h' : Spares p fs) : Spares p (es ++ fs) :=
  List.forall_mem_append.mpr ⟨h, h'⟩

theorem spares_dly (p : Nat) (k : DelayKind) : Spares p [.dly k] := by simp [Spares]

/-- A spared pin keeps its direction and its level. -/
theorem Spares.did {p : Nat} {es : List Event} (h : Spares p es) (s : State) (g : Target) :
    (s.did es g).dirOf p = s.dirOf p ∧ (s.did es g).lvlOf p = s.lvlOf p :=
  ⟨foldl_dir_untouched es s.pins p fun o ho => (h _ ho o).1 rfl,
    foldl_lvl_untouched es s.pins p fun l hl => (h _ hl l).2 rfl⟩

/-- What is done to each pin of a list spares a pin that is not in it. -/
theorem flatMap_spares {p : Nat} {ps : List Nat} {f : Nat → List Event} (hf : ∀ q, q ≠ p → Spares p (f q))
    (h : p ∉ ps) : Spares p (ps.flatMap f) := by
  intro e he
  obtain ⟨q, hq, he⟩ := List.mem_flatMap.mp he
  exact hf q (fun heq => h (heq ▸ hq)) e he

theorem outEvents_spares {p q : Nat} (h : q ≠ p) (v : Level) : Spares p (outEvents v q) := by
  simp [Spares, outEvents, h]

theorem inEvents_spares {p q : Nat} (h : q ≠ p) (u : Level) : Spares p (inEvents u q) := by
  simp [Spares, inEvents, h]

section
variable {P : Profile} {p : Nat}

/-- SETUP's configuration spares the pins of none of the four lists (R160). -/
theorem setupEvents_spares (h : ¬ IsPinOf P (allPins P) p) : Spares p (setupEvents P) := by
  simp only [isPinOf_all, not_or] at h
  simp only [← mem_physPins] at h
  obtain ⟨hlo, hhi, haddr, hdata⟩ := h
  have outs : ∀ v (ps : List Nat), p ∉ ps → Spares p (ps.flatMap (outEvents v)) := fun v ps =>
    flatMap_spares fun q hq => outEvents_spares hq v
  have ins := flatMap_spares (fun q hq => inEvents_spares hq (optPullup P)) hdata
  exact ((((outs _ _ hlo).append (outs _ _ hhi)).append (outs _ _ haddr)).append ins).append (spares_dly p .settle)

theorem roleDrive_spares {k : Nat} (h : translatePin P k ≠ some p) (v : Level) : Spares p (roleDrive P k v) := by
  intro e he b
  obtain ⟨q, hq, rfl⟩ := (mem_roleDrive P k v e).mp he
  have hne : q ≠ p := fun heq => h (heq ▸ hq)
  simp [hne]

/-- Exchanges and clock cycles write SDO, SCK and XCLK only (R202, R206). -/
theorem SerialEvents.spares {es : List Event} (he : SerialEvents P es)
    (h : ¬ IsPinOf P [roleSdo P, roleSck P, roleXclk P] p) : Spares p es := by
  intro e hmem b
  have drv : ∀ k ∈ [roleSdo P, roleSck P, roleXclk P], ∀ q v, translatePin P k = some q →
      Event.drv q v ≠ .dir p b ∧ Event.drv q v ≠ .drv p b := fun k hk q v hq => by
    have hne : q ≠ p := fun heq => h ⟨k, hk, heq ▸ hq⟩
    simp [hne]
  rcases he e hmem with ⟨q, v, hq, rfl⟩ | ⟨q, v, hq, rfl⟩ | ⟨q, v, hq, rfl⟩ | ⟨q, v, hq, rfl⟩ | rfl
  · exact drv _ (by simp) q v hq
  · exact drv _ (by simp) q v hq
  · exact drv _ (by simp) q v hq
  · simp
  · simp

/-- An entry sequence spares every pin of no role (R208). -/
theorem entryEvents_spares (h : ¬ IsPinOf P [roleSck P, roleSdo P, roleRst P, roleXclk P, roleSdi P] p) (cfg : Config)
    (e0 e1 e2 e3 : Byte) : Spares p (entryEvents P cfg e0 e1 e2 e3) := by
  have hserial : ¬ IsPinOf P [roleSdo P, roleSck P, roleXclk P] p := fun ⟨k, hk, hp⟩ =>
    h ⟨k, by simp only [List.mem_cons, List.not_mem_nil, or_false] at hk ⊢; tauto, hp⟩
  have hsck : translatePin P (roleSck P) ≠ some p := fun hp => h ⟨_, by simp, hp⟩
  have hrst : translatePin P (roleRst P) ≠ some p := fun hp => h ⟨_, by simp, hp⟩
  have hsdi : p ∉ physPins P [roleSdi P] := fun hp => h ⟨roleSdi P, by simp, by simpa [physPins] using hp⟩
  have pullup := flatMap_spares (fun q hq => inEvents_spares hq true) hsdi
  have clock := (clockEvents_serial P cfg.ispRstCycles).spares hserial
  have prepare : Spares p (prepareEvents P cfg.ispRstCycles) :=
    ((((((roleDrive_spares hsck false).append (roleDrive_spares hrst true)).append clock).append
      (roleDrive_spares hrst false)).append clock).append (spares_dly p .ispSettle)).append pullup
  exact prepare.append ((frameEvents_serial P _ _ _ _ _ e0 e1 e2 e3).spares hserial)

end

/-- Events, a new `st` and a response reach nothing else of the block. -/
theorem onlySocket_of_events (s : State) (es : List Event) (g : Target) (x : SeqState) (r : Status) (v : BitVec 32) :
    OnlySocket s (((s.did es g).setSt x).respond r v) := ⟨rfl, rfl, rfl, rfl⟩

/-! SETUP of a parallel profile. -/

/-- Settles O14: everything SETUP does to the pins is in its events, which name pins of the four lists only. -/
theorem setupParallelCompletes : Obligations.SetupParallelCompletes := by
  intro s P hP hs hl hi
  exact ⟨_, exec_setup_parallel s P hP hs hl hi, rfl, rfl, rfl, rfl, onlySocket_of_events s _ _ _ _ _,
    fun p hp => (setupEvents_spares hp).did s s.target⟩

/-- Settles O15: the pins of SETUP's next state are those its configuration leaves. -/
theorem setupConfiguresEveryPin : Obligations.SetupConfiguresEveryPin := by
  intro s t P hP hw hi hl hs hu h
  obtain rfl := Host.Outcome.next.inj (h.symm.trans (exec_setup_parallel s P hP hs hl hi))
  refine ⟨parallelPins_of_setup hw hu rfl, fun p hp => ?_⟩
  obtain ⟨-, -, haddr, -, -⟩ := setup_pins P hw s.pins p
  exact (haddr hp).2

/-! The number of events of a configuration (R168 (d)). -/

/-- Each used entry of a list has one pin, each unused entry none (R120). -/
theorem length_physPins (P : Profile) (L : List Nat) : (physPins P L).length = L.countP (· ≠ 0) := by
  induction L with
  | nil => rfl
  | cons k rest ih =>
    by_cases hk : k = 0
    · simpa [physPins, List.filterMap_cons, hk] using ih
    · obtain ⟨p, hp⟩ := Option.ne_none_iff_exists'.mp (mt (translatePin_eq_none P k).mp hk)
      simpa [physPins, hk, hp] using ih

theorem length_outEvents (v : Level) (ps : List Nat) : (ps.flatMap (outEvents v)).length = 2 * ps.length := by
  simp [List.length_flatMap, outEvents, Nat.mul_comm]

theorem length_inEvents (u : Level) (ps : List Nat) : (ps.flatMap (inEvents u)).length = 2 * ps.length := by
  simp [List.length_flatMap, inEvents, Nat.mul_comm]

/-- Two events for each used entry of the four lists, and the settle delay. -/
theorem length_setupEvents (P : Profile) : (setupEvents P).length = 2 * (allPins P).countP (· ≠ 0) + 1 := by
  simp only [setupEvents, allPins, List.length_append, List.countP_append, length_outEvents, length_inEvents,
    length_physPins, List.length_singleton]
  omega

/-- The configuration of a profile without a pin is the settle delay (R168 (a)). -/
theorem setupEvents_of_no_pins {P : Profile} (h : ∀ k ∈ allPins P, k = 0) : setupEvents P = [.dly .settle] := by
  have unused : ∀ L : List Nat, (∀ k ∈ L, k ∈ allPins P) → physPins P L = [] := fun L hL =>
    List.filterMap_eq_nil_iff.mpr fun k hk => (translatePin_eq_none P k).mpr (h k (hL k hk))
  rw [setupEvents, unused P.loPins fun k hk => by simp [allPins, hk], unused P.hiPins fun k hk => by simp [allPins, hk],
    unused P.addrPins fun k hk => by simp [allPins, hk], unused P.dataPins fun k hk => by simp [allPins, hk]]
  rfl

/-- The safe profile has no option set (R148). -/
theorem optLatch_of_w7 {P : Profile} (h : Profile.w7 P = true) : optLatch P = false := by
  simp only [Profile.w7, Bool.and_eq_true, beq_iff_eq] at h
  obtain ⟨⟨⟨⟨-, hoptions⟩, -⟩, -⟩, -⟩ := h
  rw [optLatch, hoptions]
  rfl

/-- Settles O16: SETUP appends its configuration, and the safe profile's is the settle delay. -/
theorem setupEventCount : Obligations.SetupEventCount := by
  refine ⟨fun s t P hP hs hl hi h => ?_, fun s P hP hs hw => ?_⟩
  · obtain rfl := Host.Outcome.next.inj (h.symm.trans (exec_setup_parallel s P hP hs hl hi))
    rw [respond_trace, setSt_trace, did_trace, List.length_append, length_setupEvents, Nat.add_assoc]
  · obtain ⟨hpins, hi⟩ := pins_and_flavour_of_w7 hw
    rw [exec_setup_parallel s P hP hs (optLatch_of_w7 hw) hi, setupEvents_of_no_pins hpins]
    rfl

/-- Settles O17: the latch option is refused before any pin is touched. -/
theorem setupRefusesLatchOption : Obligations.SetupRefusesLatchOption := fun s P hP hs hl =>
  exec_setup_latch s P hP hs hl

/-! SETUP of an ISP profile. -/

/-- A pin of a role is a pin of the address or the data list. -/
theorem isPinOf_all_of_role {P : Profile} {p : Nat}
    (h : IsPinOf P [roleSck P, roleSdo P, roleRst P, roleXclk P, roleSdi P] p) : IsPinOf P (allPins P) p := by
  by_contra hn
  rw [isPinOf_all] at hn
  simp only [not_or] at hn
  obtain ⟨-, -, haddr, hdata⟩ := hn
  exact not_role P p haddr hdata h

theorem ispConclude_bits (e : Echoes) (s : State) (p : Nat) :
    (ispConclude e s).dirOf p = s.dirOf p ∧ (ispConclude e s).lvlOf p = s.lvlOf p := by
  rw [ispConclude_eq, respond_dirOf, respond_lvlOf, setSt_dirOf, setSt_lvlOf]
  exact ⟨rfl, rfl⟩

/-- Settles O20: the configuration, the entry sequence, and the end the third echo decides. -/
theorem setupIspRunsEntrySequence : Obligations.SetupIspRunsEntrySequence := by
  intro s P hP hs hl hi
  obtain ⟨e, g, hexec, hmute⟩ := exec_setup_isp s P hP hs hl hi
  refine ⟨_, e.e0, e.e1, e.e2, e.e3, hexec, ?_, ?_, ispConclude_responses e _, fun hsdi => ?_, ?_, fun p hp => ?_⟩
  · rw [ispConclude_trace, did_trace, List.append_assoc]
  · rw [ispConclude_eq, respond_st, setSt_st, did_cfg]
  · rw [hmute ((translatePin_eq_none P _).mpr hsdi)]
    exact ⟨rfl, rfl, rfl, rfl⟩
  · rw [ispConclude_eq]
    exact onlySocket_of_events s _ g _ _ _
  · have hspares := (setupEvents_spares hp).append
      (entryEvents_spares (fun h => hp (isPinOf_all_of_role h)) s.cfg e.e0 e.e1 e.e2 e.e3)
    obtain ⟨hdir, hlvl⟩ := ispConclude_bits e (s.did (setupEvents P ++ entryEvents P s.cfg e.e0 e.e1 e.e2 e.e3) g) p
    rw [hdir, hlvl]
    exact hspares.did s g

/-- SETUP's configuration from tri-stated pins and the entry sequence after it configure an ISP socket: the entry
sequence turns SDI's pull-up on, so it may start from a socket that has it on already (R211). -/
theorem ispPins_of_setup_entry {P : Profile} (hw : Profile.wf P = true) {s t : State} (hu : Undriven s) {cfg : Config}
    {e0 e1 e2 e3 : Byte}
    (ht : t.pins = (setupEvents P ++ entryEvents P cfg e0 e1 e2 e3).foldl Pins.apply s.pins) : IspPins P t := by
  refine (ispPins_of_setup hw hu).of_entry hw (fun p hp => ?_) (ht.trans (List.foldl_append ..))
  obtain ⟨hdir, hlvl⟩ := pinIn_sdi_pins hw (s.did (setupEvents P) s.target) p
  rw [hdir, hlvl, if_neg hp, if_neg hp]
  exact ⟨rfl, rfl⟩

/-- Settles O22: SETUP's events configure an ISP socket from tri-stated pins, and a probe's keep it configured. -/
theorem entrySequencePins : Obligations.EntrySequencePins := by
  refine ⟨fun s t P hP hw hi hl hs hu h => ?_, fun s t P hP hw hi hs hpins h => ?_⟩
  · obtain ⟨e, g, hexec, -⟩ := exec_setup_isp s P hP hs hl hi
    obtain rfl := Host.Outcome.next.inj (h.symm.trans hexec)
    exact ispPins_of_setup_entry hw hu (ispConclude_pins e _)
  · obtain ⟨e, g, hexec, -⟩ := exec_ispProbe s P hP ((ispAccepts_iff P s).mpr ⟨hi, hs⟩)
    obtain rfl := Host.Outcome.next.inj (h.symm.trans hexec)
    exact hpins.of_entry hw (fun p _ => ⟨rfl, rfl⟩) (ispConclude_pins e _)

/-! TRISTATE. -/

/-- TRISTATE's next state has the pins of reset (R170). -/
theorem exec_tristate_pins {s t : State} (h : exec .tristate s = .next t) : t.pins = Pins.reset := by
  obtain rfl := Host.Outcome.next.inj (h.symm.trans (exec_tristate s))
  rw [respond_pins, setSt_pins, did_pins, tristate_pins]

/-- Two events for each of the 40 pins (R171 (a)). -/
theorem length_tristateEvents : tristateEvents.length = 80 := by
  simp [tristateEvents, List.length_flatMap]

/-- Settles O18: TRISTATE's events release all 40 pins, whatever they were. -/
theorem tristateReleasesEveryPin : Obligations.TristateReleasesEveryPin := by
  intro s
  have hexec := exec_tristate s
  exact ⟨_, hexec, rfl, undriven_of_pins _ (exec_tristate_pins hexec), by simp,
    length_tristateEvents, by simp, by simp, onlySocket_of_events s _ _ _ _ _⟩

/-- Registers are `st`, `sel` and the pins. -/
theorem registers_eq {s t : State} (hst : t.st = s.st) (hsel : t.sel = s.sel) (hpins : t.pins = s.pins) :
    t.registers = s.registers := by
  have hdir : t.dir = s.dir := congrArg Pins.dir hpins
  have hlvl : t.lvl = s.lvl := congrArg Pins.lvl hpins
  rw [State.registers, hst, hsel, hdir, hlvl, State.registers]

/-- Settles O19: TRISTATE leaves the same pins and appends the same events wherever it starts. -/
theorem tristateIsIdempotent : Obligations.TristateIsIdempotent := by
  intro s t u ht hu
  have hpins : u.pins = t.pins := (exec_tristate_pins hu).trans (exec_tristate_pins ht).symm
  obtain rfl := Host.Outcome.next.inj (ht.symm.trans (exec_tristate s))
  obtain rfl := Host.Outcome.next.inj (hu.symm.trans (exec_tristate _))
  exact ⟨registers_eq (by simp) (by simp) hpins, tristateEvents, rfl, rfl⟩

end Sys2Proof.Machine
end

section
/-! SUPPORT. The parallel READ (spec/43_parallel_read.md R180 to R185): its next state, how many passes a convergence
read makes, and how many events it appends. -/

namespace Sys2Proof.Machine

/-- Settles O29: what READ of a parallel profile appends, and nothing else outside the socket. -/
theorem readParallelConverges : Obligations.ReadParallelConverges := by
  intro s P addr hP hi hw hs hN
  obtain ⟨passes, b, g, hexec, hconv, hbyte⟩ := exec_read_parallel s P addr hP hs hi hw hN
  exact ⟨_, passes, b, hexec, hconv, hbyte, by simp, rfl, hs, ⟨rfl, rfl, rfl, rfl⟩⟩

/-! The number of events of a parallel read (R185 (g)). -/

/-- The passes are at least one, and two where two are allowed: a read stops early only at two that agree (R185 (a)). -/
theorem Converges.length_bounds {n : Nat} {passes : List Byte} {b : Byte} (h : Converges n passes b) :
    1 ≤ passes.length ∧ (2 ≤ n → 2 ≤ passes.length) := by
  refine ⟨List.length_pos_of_mem (List.mem_of_getLast? h.result), fun hn => ?_⟩
  obtain hfull | ⟨l, rfl⟩ := h.stop
  · exact hfull ▸ hn
  · simp

/-- A used entry is one drive, an unused one none (R126). -/
theorem length_roleDrive (P : Profile) (k : Nat) (v : Level) : (roleDrive P k v).length = [k].countP (· ≠ 0) := by
  rw [← length_physPins P, roleDrive]
  cases h : translatePin P k <;> simp [physPins, h]

/-- A used entry is one sample, an unused one none (R127). -/
theorem length_roleSample (P : Profile) (k : Nat) (l : Level) : (roleSample P k l).length = [k].countP (· ≠ 0) := by
  rw [← length_physPins P, roleSample]
  cases h : translatePin P k <;> simp [physPins, h]

/-- If each entry has one event when its pin is used and none when it is not, a list has as many events as used pins. -/
theorem length_flatMap_of_countP {α : Type} (key : α → Nat) {f : α → List Event}
    (h : ∀ x, (f x).length = [key x].countP (· ≠ 0)) (xs : List α) :
    (xs.flatMap f).length = (xs.map key).countP (· ≠ 0) := by
  induction xs with
  | nil => rfl
  | cons x rest ih =>
    rw [List.flatMap_cons, List.length_append, h, ih, ← List.countP_append, List.map_cons, List.singleton_append]

/-- `A` drives (R185 (g)). -/
theorem length_addressEvents (P : Profile) (a : Arg) : (addressEvents P a).length = P.addrPins.countP (· ≠ 0) := by
  have hdrives := length_flatMap_of_countP Prod.fst (fun x => length_roleDrive P x.1 (a.getLsbD x.2)) P.addrPins.zipIdx
  rwa [List.zipIdx_map_fst] at hdrives

/-- `D` samples, whatever the pass returned (R185 (g)). -/
theorem length_passEvents (P : Profile) (b : Byte) : (passEvents P b).length = (passPins P).countP (· ≠ 0) :=
  length_flatMap_of_countP (nth P.dataPins) (fun i => length_roleSample P (nth P.dataPins i) _) (List.range P.dataWidth)

/-- Settles O31: the address drives, the propagation delay, and the same number of samples in every pass. -/
theorem readEventCount : Obligations.ReadEventCount := by
  intro s t P addr hP hi hw hs hN h
  obtain ⟨passes, b, g, hexec, hconv, -⟩ := exec_read_parallel s P addr hP hs hi hw hN
  obtain rfl := Host.Outcome.next.inj (h.symm.trans hexec)
  obtain ⟨hone, htwo⟩ := hconv.length_bounds
  refine ⟨passes.length, hconv.atMost, htwo, hone, ?_⟩
  have hpasses : (passes.flatMap (passEvents P)).length = passes.length * (passPins P).countP (· ≠ 0) := by
    simp [List.length_flatMap, length_passEvents]
  rw [respond_trace, did_trace, List.length_append, List.length_append, List.length_append, length_addressEvents,
    hpasses, passPins, List.countP_map]
  rfl

end Sys2Proof.Machine
end

section
/-! SUPPORT. The requests of the ISP engine (spec/44_isp_engine.md R201 to R213): what each completes with, the levels it
leaves on the roles' pins, and how many events it appends. -/

namespace Sys2Proof.Machine

/-- Events and a response, which is all an ISP request other than ISP_PROBE does: `st` and the rest of the block are as
they were. -/
theorem effects_of_events (s : State) (es : List Event) (g : Target) (r : Status) (v : BitVec 32) :
    ((s.did es g).respond r v).trace = s.trace ++ es ∧
    ((s.did es g).respond r v).responses = s.responses ++ [{ status := r, val := v }] ∧
    ((s.did es g).respond r v).st = s.st ∧ OnlySocket s ((s.did es g).respond r v) :=
  ⟨rfl, rfl, rfl, rfl, rfl, rfl, rfl⟩

/-! ISP_CLOCK. -/

/-- ISP_CLOCK where it is accepted (R203). -/
theorem exec_ispClock_accepted {s : State} {P : Profile} (hP : s.profile? = some P) (ha : ispAccepts P s = true)
    (n : Nat) : exec (.ispClock n) s = .next ((s.did (clockEvents P n) s.target).respond .ok 0) := by
  rw [exec_ispClock s P n hP, if_pos ha]

/-- The level of a pin after clock cycles, on any profile: no pin outside the socket has a level to change (R51, R202). -/
theorem clock_lvlOf (P : Profile) (n : Nat) (s : State) (g : Target) (p : Nat) :
    (s.did (clockEvents P n) g).lvlOf p =
      if translatePin P (roleXclk P) = some p ∧ 1 ≤ n then false else s.lvlOf p := by
  by_cases hr : 1 ≤ p ∧ p ≤ zifPins
  · exact clock_lvl P n s.pins p hr
  · rw [(outside_socket _ p hr).2, (outside_socket s p hr).2, ite_self]

/-- Settles O25: everything ISP_CLOCK does is in its cycles, which drive XCLK only. -/
theorem clockTogglesXclk : Obligations.ClockTogglesXclk := by
  intro s P n hP hi hs
  have hexec := exec_ispClock_accepted hP ((ispAccepts_iff P s).mpr ⟨hi, hs⟩) n
  obtain ⟨htrace, hresponses, hst, honly⟩ := effects_of_events s (clockEvents P n) s.target .ok 0
  refine ⟨_, hexec, htrace, hresponses, hst, rfl, honly, clock_dir P n s.pins, fun p hp => ?_, fun p hp => ?_⟩
  · rw [respond_lvlOf, clock_lvlOf]
    cases n with
    | zero => simp
    | succ m => simp [hp]
  · rw [respond_lvlOf, clock_lvlOf, if_neg fun h => hp h.1]

/-! ISP_XFER, and the pins an exchange leaves. -/

/-- Settles O23: the next state of an accepted ISP_XFER, whose events are one exchange. -/
theorem xferExchangesOneByte : Obligations.XferExchangesOneByte := by
  intro s P b hP hi hs
  obtain ⟨r, g, hexec, hmute⟩ := exec_ispXfer s P b hP ((ispAccepts_iff P s).mpr ⟨hi, hs⟩)
  obtain ⟨htrace, hresponses, hst, honly⟩ :=
    effects_of_events s (xferEvents P s.cfg.ispBitCycles b r) g .ok (r.setWidth 32)
  exact ⟨_, r, hexec, htrace, hresponses, fun hsdi => hmute ((translatePin_eq_none P _).mpr hsdi), hst, honly⟩

/-- The levels of the driven roles where an exchange ends, read off the level of every pin as `xfer_lvl` and `frame_lvl`
give it (R206). -/
theorem role_levels_of_exchange {P : Profile} (hw : Profile.wf P = true) (s : State) (g : Target) {es : List Event}
    {c : Nat} {v : Level}
    (hlvl : ∀ p, 1 ≤ p ∧ p ≤ zifPins → PinFile.get (es.foldl Pins.apply s.pins).lvl p =
      if translatePin P (roleSck P) = some p then false
      else if translatePin P (roleSdo P) = some p then v
      else if translatePin P (roleXclk P) = some p ∧ 1 ≤ c then false else PinFile.get s.pins.lvl p) :
    (∀ p, translatePin P (roleSdo P) = some p → (s.did es g).lvlOf p = v) ∧
    (∀ p, translatePin P (roleSck P) = some p → (s.did es g).lvlOf p = false) ∧
    ∀ p, translatePin P (roleXclk P) = some p →
      (s.did es g).lvlOf p = if c = 0 then s.lvlOf p else false := by
  have apart := wf_rolesApart P hw
  have role : ∀ i p, translatePin P (nth P.addrPins i) = some p → 1 ≤ p ∧ p ≤ zifPins := fun i p hp =>
    addr_range hw (isPinOf_nth P P.addrPins i p hp)
  refine ⟨fun p hp => ?_, fun p hp => ?_, fun p hp => ?_⟩
  · rw [did_lvlOf, hlvl p (role 1 p hp), if_neg fun h => apart.sckSdo p h hp, if_pos hp]
  · rw [did_lvlOf, hlvl p (role 0 p hp), if_pos hp]
  · rw [did_lvlOf, hlvl p (role 3 p hp), if_neg fun h => apart.sckXclk p h hp,
      if_neg fun h => apart.sdoXclk p h hp]
    cases c with
    | zero => exact if_neg (by simp)
    | succ m => simp [hp]

/-- Settles O24: the pins of ISP_XFER's next state are those one exchange leaves. -/
theorem xferPins : Obligations.XferPins := by
  intro s t P b hP hw hi hs h
  obtain ⟨r, g, hexec, -⟩ := exec_ispXfer s P b hP ((ispAccepts_iff P s).mpr ⟨hi, hs⟩)
  obtain rfl := Host.Outcome.next.inj (h.symm.trans hexec)
  have hserial := xferEvents_serial P s.cfg.ispBitCycles b r
  obtain ⟨hsdo, hsck, hxclk⟩ := role_levels_of_exchange hw s g fun p hr =>
    xfer_lvl P (wf_rolesApart P hw) s.cfg.ispBitCycles b r s.pins p hr
  simp only [respond_dir, respond_lvlOf]
  exact ⟨serial_dir P _ hserial s.pins, hsdo, hsck, hxclk, fun p hp => ((hserial.spares hp).did s g).2⟩

/-! READ of an ISP profile. -/

/-- Settles O26: the next state of the READ, whose events are one frame. -/
theorem readIspSendsOneFrame : Obligations.ReadIspSendsOneFrame := by
  intro s P addr hP hi hs
  obtain ⟨r0, r1, r2, r3, g, hexec, hmute⟩ := exec_read_isp s P addr hP hs hi
  obtain ⟨htrace, hresponses, hst, honly⟩ := effects_of_events s (frameEvents P s.cfg.ispBitCycles
    (readOpcode s.cfg addr) (readMiddle addr) (readLow addr) s.cfg.ispDummy r0 r1 r2 r3) g .ok (r3.setWidth 32)
  have hserial := frameEvents_serial P s.cfg.ispBitCycles (readOpcode s.cfg addr) (readMiddle addr) (readLow addr)
    s.cfg.ispDummy r0 r1 r2 r3
  refine ⟨_, r0, r1, r2, r3, hexec, htrace, hresponses, fun hsdi => hmute ((translatePin_eq_none P _).mpr hsdi),
    hst.trans hs, honly, ?_⟩
  simp only [respond_dir, respond_lvlOf]
  exact ⟨serial_dir P _ hserial s.pins, fun p hp => ((hserial.spares hp).did s g).2,
    fun hw => role_levels_of_exchange hw s g fun p hr =>
      frame_lvl P (wf_rolesApart P hw) s.cfg.ispBitCycles _ _ _ _ r0 r1 r2 r3 s.pins p hr⟩

/-! ISP_PROBE. -/

/-- Settles O21: the events of the entry sequence, and the end the third echo decides. -/
theorem probeRunsEntrySequence : Obligations.ProbeRunsEntrySequence := by
  intro s P hP hi hs
  obtain ⟨e, g, hexec, hmute⟩ := exec_ispProbe s P hP ((ispAccepts_iff P s).mpr ⟨hi, hs⟩)
  refine ⟨_, e.e0, e.e1, e.e2, e.e3, hexec, ispConclude_trace e _, ?_, ispConclude_responses e _, fun hsdi => ?_, ?_,
    fun p hp => ?_⟩
  · rw [ispConclude_eq, respond_st, setSt_st, did_cfg]
  · rw [hmute ((translatePin_eq_none P _).mpr hsdi)]
    exact ⟨rfl, rfl, rfl, rfl⟩
  · rw [ispConclude_eq]
    exact onlySocket_of_events s _ g _ _ _
  · obtain ⟨hdir, hlvl⟩ := ispConclude_bits e (s.did (entryEvents P s.cfg e.e0 e.e1 e.e2 e.e3) g) p
    rw [hdir, hlvl]
    exact (entryEvents_spares hp s.cfg e.e0 e.e1 e.e2 e.e3).did s g

/-! The number of events of the ISP engine's procedures (R213). -/

theorem length_roleDrive_of_present {k : Nat} (h : k ≠ 0) (P : Profile) (v : Level) : (roleDrive P k v).length = 1 := by
  simp [length_roleDrive, h]

theorem length_roleSample_of_present {k : Nat} (h : k ≠ 0) (P : Profile) (l : Level) :
    (roleSample P k l).length = 1 := by
  simp [length_roleSample, h]

/-- Four events for each cycle. -/
theorem length_clockEvents {P : Profile} (hxclk : roleXclk P ≠ 0) (n : Nat) : (clockEvents P n).length = 4 * n := by
  have hcycle : (cycleEvents P).length = 4 := by
    simp only [cycleEvents, List.length_append, length_roleDrive_of_present hxclk, List.length_singleton]
  simp [clockEvents, hcycle, Nat.mul_comm]

section
variable {P : Profile} (hroles : AllRoles P)
include hroles

/-- Data-out, SCK high, the sample and SCK low, and two pulses. -/
theorem length_bitEvents (c : Nat) (bit l : Level) : (bitEvents P c bit l).length = 4 + 8 * c := by
  obtain ⟨hsck, hsdo, -, hxclk, hsdi⟩ := hroles
  simp only [bitEvents, List.length_append, length_roleDrive_of_present hsck, length_roleDrive_of_present hsdo,
    length_roleSample_of_present hsdi, length_clockEvents hxclk]
  omega

/-- Eight bits, whatever they are. -/
theorem length_xferEvents (c : Nat) (b r : Byte) : (xferEvents P c b r).length = 32 + 64 * c := by
  have hbits : ((bitsMsbFirst b).zip (bitsMsbFirst r)).length = 8 := rfl
  simp only [xferEvents, List.length_flatMap, length_bitEvents hroles, List.map_const', List.sum_replicate, hbits,
    smul_eq_mul]
  omega

/-- Four exchanges. -/
theorem length_frameEvents (c : Nat) (b0 b1 b2 b3 r0 r1 r2 r3 : Byte) :
    (frameEvents P c b0 b1 b2 b3 r0 r1 r2 r3).length = 128 + 256 * c := by
  simp only [frameEvents, List.length_append, length_xferEvents hroles]
  omega

/-- SCK low, two reset edges with a pulse of `r` cycles after each, the settle wait, and SDI's two calls. -/
theorem length_prepareEvents (r : Nat) : (prepareEvents P r).length = 6 + 8 * r := by
  obtain ⟨hsck, -, hrst, hxclk, hsdi⟩ := hroles
  have hpullup : (physPins P [roleSdi P]).length = 1 := by simp [length_physPins, hsdi]
  simp only [prepareEvents, List.length_append, length_roleDrive_of_present hsck, length_roleDrive_of_present hrst,
    length_clockEvents hxclk, length_inEvents, hpullup, List.length_singleton]
  omega

theorem length_entryEvents (cfg : Config) (e0 e1 e2 e3 : Byte) :
    (entryEvents P cfg e0 e1 e2 e3).length = 134 + 8 * cfg.ispRstCycles + 256 * cfg.ispBitCycles := by
  simp only [entryEvents, List.length_append, length_prepareEvents hroles, length_frameEvents hroles]
  omega

end

/-- Settles O27: each request appends the events of one procedure. -/
theorem ispEventCounts : Obligations.IspEventCounts := by
  intro s t P hP hi hroles hs
  have haccepts : ispAccepts P s = true := (ispAccepts_iff P s).mpr ⟨hi, hs⟩
  refine ⟨fun n h => ?_, fun b h => ?_, fun h => ?_, fun hready a h => ?_⟩
  · obtain rfl := Host.Outcome.next.inj (h.symm.trans (exec_ispClock_accepted hP haccepts n))
    obtain ⟨-, -, -, hxclk, -⟩ := hroles
    rw [respond_trace, did_trace, List.length_append, length_clockEvents hxclk]
  · obtain ⟨r, g, hexec, -⟩ := exec_ispXfer s P b hP haccepts
    obtain rfl := Host.Outcome.next.inj (h.symm.trans hexec)
    rw [respond_trace, did_trace, List.length_append, length_xferEvents hroles]
  · obtain ⟨e, g, hexec, -⟩ := exec_ispProbe s P hP haccepts
    obtain rfl := Host.Outcome.next.inj (h.symm.trans hexec)
    rw [ispConclude_trace, did_trace, List.length_append, length_entryEvents hroles]
  · obtain ⟨r0, r1, r2, r3, g, hexec, -⟩ := exec_read_isp s P a hP hready hi
    obtain rfl := Host.Outcome.next.inj (h.symm.trans hexec)
    rw [respond_trace, did_trace, List.length_append, length_frameEvents hroles]

end Sys2Proof.Machine
end

section
/-! SUPPORT. The transfer protocol's block read byte by byte (spec/46_transfer_protocol.md R242, R243), and what its sender
does with each received byte (R245 to R249). -/

namespace Sys2Proof.Machine

/-! ### The block -/

theorem toNat_xferComplement (n : Byte) : (xferComplement n).toNat = 255 - n.toNat := by
  unfold xferComplement
  bv_omega

/-- A sum of bytes is the sum of their values mod 256, whatever it starts from. -/
theorem toNat_foldl_add (l : List Byte) (a : Byte) :
    (l.foldl (· + ·) a).toNat = (a.toNat + (l.map BitVec.toNat).sum) % 256 := by
  induction l generalizing a with
  | nil => exact (Nat.mod_eq_of_lt a.isLt).symm
  | cons b rest ih =>
    rw [List.foldl_cons, ih, BitVec.toNat_add, List.map_cons, List.sum_cons]
    omega

theorem toNat_xferChecksum (d : Payload) : (xferChecksum d).toNat = (d.toList.map BitVec.toNat).sum % 256 := by
  rw [xferChecksum, toNat_foldl_add, BitVec.toNat_zero, Nat.zero_add]

/-- The three leading bytes stand before the payload and the checksum. -/
theorem xferBlock_eq_cons (q : XferParams) (n : Byte) (d : Payload) :
    xferBlock q n d = q.soh :: n :: xferComplement n :: (d.toList ++ [xferChecksum d]) := rfl

theorem length_xferBlock (q : XferParams) (n : Byte) (d : Payload) : (xferBlock q n d).length = 132 := by
  simp [xferBlock_eq_cons]

theorem xferBlock_payload (q : XferParams) (n : Byte) (d : Payload) {i : Nat} (h : i < 128) :
    (xferBlock q n d)[i + 3]? = some d[i] := by
  simp [xferBlock_eq_cons, List.getElem?_append_left, h]

theorem xferBlock_last (q : XferParams) (n : Byte) (d : Payload) :
    (xferBlock q n d)[131]? = some (xferChecksum d) := by
  simp [xferBlock_eq_cons]

/-- Settles O52: the bytes by position, the complement and the checksum by their values. -/
theorem transferBlockFormat : Obligations.TransferBlockFormat := fun q n d =>
  ⟨length_xferBlock q n d, rfl, rfl, ⟨_, rfl, toNat_xferComplement n⟩, fun _ h => xferBlock_payload q n d h,
    ⟨_, xferBlock_last q n d, toNat_xferChecksum d⟩⟩

/-! ### The sender, a byte at a time -/

/-- The three bytes a sender tells apart are different. -/
theorem XferParams.responses_ne {q : XferParams} (h : q.wf = true) :
    q.nak ≠ q.ack ∧ q.can ≠ q.ack ∧ q.can ≠ q.nak := by
  have hnodup := of_decide_eq_true h
  simp only [List.nodup_cons, List.mem_cons, not_or] at hnodup
  obtain ⟨-, -, ⟨hnak, hack, -⟩, ⟨hcan, -⟩, -⟩ := hnodup
  exact ⟨Ne.symm hnak, Ne.symm hack, Ne.symm hcan⟩

/-- R246, R250: counted either way, the attempts are no more than the transmissions. -/
theorem attempts_le (q : XferParams) (tries : Nat) : attempts q tries ≤ tries := by
  unfold attempts
  split <;> omega

/-- R248: the end byte may be sent again below the ceiling, if there is one. -/
theorem mayResendEot_iff (q : XferParams) (tries : Nat) :
    mayResendEot q tries = true ↔ ∀ c, q.eotCeiling = some c → tries < c := by
  unfold mayResendEot
  cases q.eotCeiling <;> simp

/-- R246, R248: on to the next payload, or to the end byte when there is none. -/
theorem receive_ack_sending (q : XferParams) (n : Byte) (tries : Nat) (cur : Payload) (rest : List Payload)
    (out : List Byte) :
    Sender.receive q q.ack { phase := .sending n tries cur rest, sent := out } =
      some (Sender.advance q n rest { phase := .sending n tries cur rest, sent := out }) :=
  if_pos rfl

/-- R248: success. -/
theorem receive_ack_finishing (q : XferParams) (tries : Nat) (out : List Byte) :
    Sender.receive q q.ack { phase := .finishing tries, sent := out } = some { phase := .done, sent := out } :=
  if_pos rfl

section
variable {q : XferParams} (hwf : q.wf = true)

include hwf

/-- R245: nothing is sent. -/
theorem receive_can_awaitStart (data : List Payload) (out : List Byte) :
    Sender.receive q q.can { phase := .awaitStart data, sent := out } = some { phase := .aborted, sent := out } := by
  obtain ⟨-, -, hnak⟩ := q.responses_ne hwf
  simp [Sender.receive, hnak]

/-- R248: abort. -/
theorem receive_can_finishing (tries : Nat) (out : List Byte) :
    Sender.receive q q.can { phase := .finishing tries, sent := out } = some { phase := .aborted, sent := out } := by
  obtain ⟨-, hack, -⟩ := q.responses_ne hwf
  simp [Sender.receive, hack]

/-- R246: below the ceiling, counted either way, the identical block is sent again. -/
theorem receive_nak_sending {tries : Nat} (h : tries < q.maxAttempts) (n : Byte) (cur : Payload) (rest : List Payload)
    (out : List Byte) :
    Sender.receive q q.nak { phase := .sending n tries cur rest, sent := out } =
      some { phase := .sending n (tries + 1) cur rest, sent := out ++ xferBlock q n cur } := by
  obtain ⟨hack, -, -⟩ := q.responses_ne hwf
  have hbelow : ¬ q.maxAttempts ≤ attempts q tries := Nat.not_le.mpr ((attempts_le q tries).trans_lt h)
  simp [Sender.receive, hack, hbelow]

end

/-- R248: a byte that ends nothing has the end byte sent again, unless the ceiling is reached (log 19). -/
theorem receive_other_finishing {q : XferParams} {b : Byte} (hack : b ≠ q.ack) (hcan : b ≠ q.can) (tries : Nat)
    (out : List Byte) :
    Sender.receive q b { phase := .finishing tries, sent := out } =
      if mayResendEot q tries then some { phase := .finishing (tries + 1), sent := out ++ [q.eot] }
      else some { phase := .aborted, sent := out } := by
  simp [Sender.receive, hack, hcan]

/-! ### The sender, a list of bytes -/

/-- A last byte is received by the sender the bytes before it lead to. -/
theorem receiveAll_concat {q : XferParams} {bs : List Byte} {x y : Sender} (h : x.receiveAll q bs = some y) (b : Byte) :
    x.receiveAll q (bs ++ [b]) = y.receive q b := by
  induction bs generalizing x with
  | nil =>
    obtain rfl := Option.some.inj h
    simp only [List.nil_append, Sender.receiveAll]
    cases x.receive q b <;> rfl
  | cons c rest ih =>
    cases hc : x.receive q c with
    | none => simp [Sender.receiveAll, hc] at h
    | some z =>
      simp only [Sender.receiveAll, hc, List.cons_append] at h ⊢
      exact ih h

/-- R246: `m` negative acknowledgements that stay below the ceiling resend the block `m` times. -/
theorem receiveAll_naks {q : XferParams} (hwf : q.wf = true) (n : Byte) (cur : Payload) (rest : List Payload) (m : Nat)
    {tries : Nat} (h : tries + m ≤ q.maxAttempts) (out : List Byte) :
    Sender.receiveAll q (List.replicate m q.nak) { phase := .sending n tries cur rest, sent := out } =
      some { phase := .sending n (tries + m) cur rest,
             sent := out ++ (List.replicate m (xferBlock q n cur)).flatten } := by
  induction m generalizing tries out with
  | zero => simp [Sender.receiveAll]
  | succ m ih =>
    simp only [List.replicate_succ, Sender.receiveAll, receive_nak_sending hwf (show tries < q.maxAttempts by omega),
      ih (show tries + 1 + m ≤ q.maxAttempts by omega), List.flatten_cons, List.append_assoc,
      Nat.add_assoc, Nat.add_comm 1 m]

/-- R248: below the ceiling every byte that ends nothing has the end byte sent once more. -/
theorem receiveAll_finishing {q : XferParams} {bs : List Byte} (hbs : ∀ b ∈ bs, b ≠ q.ack ∧ b ≠ q.can) {tries : Nat}
    (h : ∀ c, q.eotCeiling = some c → tries + bs.length ≤ c) (out : List Byte) :
    Sender.receiveAll q bs { phase := .finishing tries, sent := out } =
      some { phase := .finishing (tries + bs.length), sent := out ++ List.replicate bs.length q.eot } := by
  induction bs generalizing tries out with
  | nil => simp [Sender.receiveAll]
  | cons b rest ih =>
    obtain ⟨⟨hack, hcan⟩, hrest⟩ := List.forall_mem_cons.mp hbs
    rw [List.length_cons] at h ⊢
    have hmay : mayResendEot q tries = true := (mayResendEot_iff q tries).mpr fun c hc => by
      have := h c hc
      omega
    have hceil : ∀ c, q.eotCeiling = some c → tries + 1 + rest.length ≤ c := fun c hc => by
      have := h c hc
      omega
    simp only [Sender.receiveAll, receive_other_finishing hack hcan, hmay, if_true, ih hrest hceil,
      List.replicate_succ, List.append_assoc, List.singleton_append, Nat.add_assoc, Nat.add_comm 1 rest.length]

/-- Settles O53: the resends, then the acknowledgement. -/
theorem transferRetransmits : Obligations.TransferRetransmits := by
  intro q hwf
  refine ⟨fun data => receive_can_awaitStart hwf data [], fun n d d2 rest out m hm => ?_⟩
  rw [receiveAll_concat (receiveAll_naks hwf n d (d2 :: rest) m (by omega) out), receive_ack_sending, Sender.advance]

/-- Settles O55: the resends of the end byte, then the byte that ends the loop. -/
theorem transferFinishes : Obligations.TransferFinishes := by
  intro q hwf
  refine ⟨fun n tries cur out => receive_ack_sending q n tries cur [] out, fun tries out bs hbs hceil => ?_,
    fun tries c out b hc hreached hack hcan => ?_⟩
  · have hloop := receiveAll_finishing hbs hceil out
    rw [receiveAll_concat hloop, receiveAll_concat hloop]
    exact ⟨receive_ack_finishing q _ _, receive_can_finishing hwf _ _⟩
  · have hstop : ¬ mayResendEot q tries = true := fun hmay =>
      Nat.not_lt.mpr hreached ((mayResendEot_iff q tries).mp hmay c hc)
    rw [receive_other_finishing hack hcan, if_neg hstop]

end Sys2Proof.Machine
end

section
/-! SUPPORT. Statuses (spec/60_exceptions.md): which requests answer `ERR_STATE`, what a request that fails leaves as it
was, and which check gives the status when several would fail. -/

namespace Sys2Proof.Machine

/-! The table of R275. -/

/-- The request is not accepted in the present state (R275). The ISP requests ask for the flavour of the active profile
too (R201). -/
def NotAccepted (s : State) : Instr → Prop
  | .tristate | .xlate _ => False
  | .select _ | .setup => s.st ≠ .tristate
  | .read _ => s.st ≠ .ready
  | .ispProbe | .ispXfer _ | .ispClock _ => ∃ P, s.profile? = some P ∧ ispAccepts P s = false

theorem ispAccepts_eq_false_iff (P : Profile) (s : State) :
    ispAccepts P s = false ↔ isIsp P = false ∨ (s.st ≠ .ready ∧ s.st ≠ .faulted) := by
  rw [← Bool.not_eq_true, ispAccepts_iff, not_and_or, not_or, Bool.not_eq_true]

/-- A request that is not accepted answers `ERR_STATE`, and nothing changes. -/
theorem exec_notAccepted {s : State} {i : Instr} (h : NotAccepted s i) : exec i s = .next (s.respond .errState 0) := by
  cases i with
  | tristate | xlate => exact h.elim
  | select idx => exact (exec_select s idx).trans (congrArg _ (if_pos h))
  | setup => exact exec_setup_refused s h
  | read a => exact exec_read_refused s a h
  | ispProbe =>
    obtain ⟨P, hP, ha⟩ := h
    exact exec_ispProbe_refused s P hP ha
  | ispXfer b =>
    obtain ⟨P, hP, ha⟩ := h
    exact exec_ispXfer_refused s P b hP ha
  | ispClock n =>
    obtain ⟨P, hP, ha⟩ := h
    rw [exec_ispClock s P n hP, ha]
    rfl

/-- A read gives no response of its own: READ gives one, after it (R180). -/
theorem readByte_responses (P : Profile) (a : Arg) (s : State) : (readByte P a s).2.responses = s.responses := by
  unfold readByte
  split
  · exact ispRead_responses P a s
  · exact parallelRead_responses P a s

/-- The end of an entry sequence answers `OK` or `ISP_FAIL` (R208, R209). -/
theorem ispConclude_not_errState {e : Echoes} {s : State} {v : BitVec 32} :
    (ispConclude e s).responses ≠ s.responses ++ [{ status := .errState, val := v }] := by
  rw [ispConclude_responses]
  split <;> simp

/-- Only a request that is not accepted answers `ERR_STATE`. -/
theorem notAccepted_of_errState {s t : State} {i : Instr} {v : BitVec 32} (h : exec i s = .next t)
    (hr : t.responses = s.responses ++ [{ status := .errState, val := v }]) : NotAccepted s i := by
  cases i with
  | tristate =>
    rw [exec_tristate] at h
    cases h
    simp at hr
  | select idx =>
    intro hs
    rw [exec_select, if_neg (not_not_intro hs)] at h
    cases h
    split_ifs at hr <;> simp at hr
  | setup =>
    intro hs
    obtain ⟨P, hP, -⟩ := withProfile_next ((if_neg (not_not_intro hs)).symm.trans h)
    cases hl : optLatch P with
    | true =>
      cases h.symm.trans (exec_setup_latch s P hP hs hl)
      simp at hr
    | false =>
      cases hi : isIsp P with
      | true =>
        obtain ⟨e, g, hexec, -⟩ := exec_setup_isp s P hP hs hl hi
        cases h.symm.trans hexec
        exact ispConclude_not_errState hr
      | false =>
        cases h.symm.trans (exec_setup_parallel s P hP hs hl hi)
        simp at hr
  | read a =>
    intro hs
    obtain ⟨P, hP, -⟩ := withProfile_next ((if_neg (not_not_intro hs)).symm.trans h)
    cases h.symm.trans (exec_read_ready hP hs a)
    simp [readByte_responses] at hr
  | ispProbe =>
    obtain ⟨P, hP, -⟩ := withProfile_next h
    refine ⟨P, hP, Bool.eq_false_iff.mpr fun ha => ?_⟩
    obtain ⟨e, g, hexec, -⟩ := exec_ispProbe s P hP ha
    cases h.symm.trans hexec
    exact ispConclude_not_errState hr
  | ispXfer b =>
    obtain ⟨P, hP, -⟩ := withProfile_next h
    refine ⟨P, hP, Bool.eq_false_iff.mpr fun ha => ?_⟩
    obtain ⟨r, g, hexec, -⟩ := exec_ispXfer s P b hP ha
    cases h.symm.trans hexec
    simp at hr
  | ispClock n =>
    obtain ⟨P, hP, -⟩ := withProfile_next h
    refine ⟨P, hP, Bool.eq_false_iff.mpr fun ha => ?_⟩
    cases h.symm.trans (exec_ispClock_accepted hP ha n)
    simp at hr
  | xlate k =>
    obtain ⟨P, hP, -⟩ := withProfile_next h
    rw [exec_xlate s P k hP] at h
    cases h
    split_ifs at hr <;> simp at hr

/-- Settles O36: `NotAccepted` is the table, and a request answers `ERR_STATE` just where it holds. -/
theorem requestsRefusedInOtherStates : Obligations.RequestsRefusedInOtherStates := by
  intro s
  have refuses : ∀ i, NotAccepted s i → exec i s = .next (s.respond .errState 0) := fun i => exec_notAccepted
  refine ⟨fun hs idx => refuses _ hs, fun hs => refuses .setup hs, fun hs a => refuses _ hs, fun P hP hs => ?_,
    fun i t v h hr => ?_⟩
  · have ha : ∃ P, s.profile? = some P ∧ ispAccepts P s = false := ⟨P, hP, (ispAccepts_eq_false_iff P s).mpr hs⟩
    exact ⟨refuses .ispProbe ha, fun b => refuses _ ha, fun n => refuses _ ha⟩
  · have hi := notAccepted_of_errState h hr
    refine ⟨?_, ?_, ?_, ?_, ?_⟩
    · rintro rfl
      exact hi
    · rintro k rfl
      exact hi
    · rintro (rfl | ⟨idx, rfl⟩) <;> exact hi
    · rintro ⟨a, rfl⟩
      exact hi
    · intro hisp P hP
      have ha : ∃ P, s.profile? = some P ∧ ispAccepts P s = false := by
        rcases hisp with rfl | ⟨b, rfl⟩ | ⟨n, rfl⟩ <;> exact hi
      obtain ⟨P', hP', ha⟩ := ha
      cases hP.symm.trans hP'
      exact (ispAccepts_eq_false_iff P s).mp ha

/-! What a request that fails leaves as it was (R271). -/

/-- What the statuses say of the request `i` that is answered `r` and leads from `s` to `t`. -/
structure StatusSound (s t : State) (i : Instr) (r : Response) : Prop where
  noChange : r.status.noChange = true →
    r.val = 0#32 ∧ t.registers = s.registers ∧ t.trace = s.trace ∧ t.target = s.target
  ispFail : r.status = .ispFail → t.st = .faulted
  errUnsup : r.status = .errUnsup → i = .setup ∧ t.refused = true
  mark : r.status ≠ .errUnsup → t.refused = s.refused
  notErrOp : r.status ≠ .errOp

/-- `OK` says nothing of the registers; the `refused` mark stays (R35). -/
theorem StatusSound.ok {s t : State} {i : Instr} {v : BitVec 32} (h : t.refused = s.refused) :
    StatusSound s t i { status := .ok, val := v } := by
  constructor <;> simp [Status.noChange, h]

/-- The end of an entry sequence: `OK`, or `ISP_FAIL` in `Faulted` (R208, R209). -/
theorem StatusSound.ofConclude {s u : State} {i : Instr} (e : Echoes) (h : u.refused = s.refused) :
    StatusSound s (ispConclude e u) i
      { status := if e.e2 = u.cfg.ispSentinel then .ok else .ispFail, val := packEchoes e.e0 e.e1 e.e2 e.e3 } := by
  rw [ispConclude_eq]
  split
  · exact .ok h
  · constructor <;> simp [Status.noChange, h]

/-- Every request gives one response, whose status is sound. -/
theorem ExecCase.statusSound {s t : State} {i : Instr} (h : ExecCase s i t) :
    ∃ r, t.responses = s.responses ++ [r] ∧ StatusSound s t i r := by
  cases h with
  | refused i r hr =>
    refine ⟨_, rfl, fun _ => ⟨rfl, rfl, rfl, rfl⟩, ?_, ?_, fun _ => rfl, ?_⟩ <;> rcases hr with rfl | rfl <;> simp
  | latch => exact ⟨_, rfl, fun _ => ⟨rfl, rfl, rfl, rfl⟩, by simp, fun _ => ⟨rfl, rfl⟩, by simp, by simp⟩
  | setupIsp P e | probe P e => exact ⟨_, ispConclude_responses e _, .ofConclude e rfl⟩
  | tristate => exact ⟨{ status := .ok, val := 0 }, by simp, .ok (by simp)⟩
  | select | xlate | setupParallel | readParallel | readIsp | xfer | clock => exact ⟨_, rfl, .ok rfl⟩

/-- Settles O37: the one response of each case of a request. -/
theorem errorsChangeNothing : Obligations.ErrorsChangeNothing := by
  intro i s t h
  obtain ⟨r, hr, hs⟩ := (exec_cases i s t h).statusSound
  exact ⟨r, hr, hs.noChange, hs.ispFail, hs.errUnsup, hs.mark, hs.notErrOp⟩

/-! The order of the checks (R278). -/

section
variable {s : State} {w : ReqWord} {rest : List ReqWord} (hr : s.requests = w :: rest)
include hr

/-- The state check comes before every other check of a legal request. -/
theorem step_of_notAccepted {i : Instr} (hd : decode w = .ok i) (h : NotAccepted { s with requests := rest } i) :
    step s = .next ({ s with requests := rest }.respond .errState 0) :=
  (step_of_decode_ok hr hd).trans (exec_notAccepted h)

/-- In `Tristate` the latch option is checked before any pin is touched (R161). -/
theorem step_setup_latch {P : Profile} (hd : decode w = .ok .setup) (hP : s.profile? = some P) (hs : s.st = .tristate)
    (hl : optLatch P = true) :
    step s = .next ({ s with requests := rest, refused := true }.respond .errUnsup 0) :=
  (step_of_decode_ok hr hd).trans (exec_setup_latch { s with requests := rest } P hP hs hl)

end

/-- Settles O38: the decoder's check, then the state's, then the latch option's. -/
theorem statusPriority : Obligations.StatusPriority := by
  intro s w rest hr
  refine ⟨fun hd => ?_, fun idx hd hs _ => step_of_notAccepted hr hd hs, fun P hd hs _ _ => step_of_notAccepted hr hd hs,
    fun P hP _ => ⟨fun hd hs hl => step_setup_latch hr hd hP hs hl, fun hd hs => step_of_notAccepted hr hd hs,
      fun hd hready hfaulted => ?_⟩⟩
  · cases hw : decode w with
    | ok i => exact absurd hw (hd i)
    | error e => exact step_of_decode_error hr hw
  · exact step_of_notAccepted hr hd ⟨P, hP, (ispAccepts_eq_false_iff P _).mpr (.inr ⟨hready, hfaulted⟩)⟩

end Sys2Proof.Machine
end

section
/-! SUPPORT. A block built with other durations (spec/70_reset_and_hazards.md R316, R318): every procedure run on it
returns the same value and leaves the same state, up to those durations. -/

namespace Sys2Proof.Machine

/-- The lengths of the four kinds of delay (R96): what a builder may choose freely (R318). -/
structure Durations where
  settleMs : Nat
  ispSettleMs : Nat
  propSpin : Option Nat
  ispEdgeUs : Option Nat

/-- The same state of a block built with the durations `d`. -/
def State.retime (s : State) (d : Durations) : State :=
  { s with cfg := { s.cfg with
      settleMs := d.settleMs, ispSettleMs := d.ispSettleMs, propSpin := d.propSpin, ispEdgeUs := d.ispEdgeUs } }

/-- The same outcome of a block built with the durations `d`. -/
def Out.retime (o : Out) (d : Durations) : Out :=
  match o with
  | .next s => .next (s.retime d)
  | .fault r => .fault r
  | .refused r => .refused r

section
variable (d : Durations) (s : State)

/-! What the procedures read of a state: none of it is a duration. -/

@[simp] theorem retime_target : (s.retime d).target = s.target := rfl
@[simp] theorem retime_nSamples : (s.retime d).cfg.nSamples = s.cfg.nSamples := rfl
@[simp] theorem retime_ispBitCycles : (s.retime d).cfg.ispBitCycles = s.cfg.ispBitCycles := rfl
@[simp] theorem retime_ispRstCycles : (s.retime d).cfg.ispRstCycles = s.cfg.ispRstCycles := rfl
@[simp] theorem retime_ispHandshake : (s.retime d).cfg.ispHandshake = s.cfg.ispHandshake := rfl
@[simp] theorem retime_ispDummy : (s.retime d).cfg.ispDummy = s.cfg.ispDummy := rfl
@[simp] theorem retime_readOpcode (a : Arg) : readOpcode (s.retime d).cfg a = readOpcode s.cfg a := rfl

/-! The updates of a state. -/

@[simp] theorem setSt_retime (v : SeqState) : (s.retime d).setSt v = (s.setSt v).retime d := rfl
@[simp] theorem delay_retime (k : DelayKind) : (s.retime d).delay k = (s.delay k).retime d := rfl
@[simp] theorem respond_retime (r : Status) (v : BitVec 32) : (s.retime d).respond r v = (s.respond r v).retime d := rfl
@[simp] theorem did_retime (es : List Event) (g : Target) : (s.retime d).did es g = (s.did es g).retime d := rfl
@[simp] theorem next_retime : Out.retime (.next s) d = .next (s.retime d) := rfl

/-- The target sees no duration (R66), so it answers both samples alike. -/
@[simp] theorem pinGet_retime (P : Profile) (k : Nat) :
    pinGet P k (s.retime d) = ((pinGet P k s).1, (pinGet P k s).2.retime d) := by
  unfold pinGet
  cases translatePin P k with
  | none => rfl
  | some p => rfl

/-! The procedures that sample nothing: what they do is the events they append. -/

@[simp] theorem configure_retime (P : Profile) : configure P (s.retime d) = (configure P s).retime d := by
  simp [configure_did]

@[simp] theorem releaseFrom_retime (n p : Nat) : releaseFrom n p (s.retime d) = (releaseFrom n p s).retime d := by
  simp [releaseFrom_did]

@[simp] theorem pinSet_retime (P : Profile) (k : Nat) (v : Level) :
    pinSet P k v (s.retime d) = (pinSet P k v s).retime d := by
  simp [pinSet_did]

@[simp] theorem auxClock_retime (P : Profile) (n : Nat) : auxClock P n (s.retime d) = (auxClock P n s).retime d := by
  simp [auxClock_did]

@[simp] theorem ispPrepare_retime (P : Profile) : ispPrepare P (s.retime d) = (ispPrepare P s).retime d := by
  simp [ispPrepare_did]

@[simp] theorem setAddress_retime (P : Profile) (a : Arg) :
    setAddress P a (s.retime d) = (setAddress P a s).retime d := by
  simp [setAddress_did]

/-! The ISP engine. -/

theorem xferRaise_retime (P : Profile) (b : Level) : xferRaise P b (s.retime d) = (xferRaise P b s).retime d := by
  simp [xferRaise]

theorem xferBit_retime (P : Profile) (b : Level) :
    xferBit P b (s.retime d) = ((xferBit P b s).1, (xferBit P b s).2.retime d) := by
  simp [xferBit, xferRaise_retime]

theorem xferBits_retime (P : Profile) (bits : List Level) (r : Byte) :
    xferBits P bits r (s.retime d) = ((xferBits P bits r s).1, (xferBits P bits r s).2.retime d) := by
  induction bits generalizing r s with
  | nil => rfl
  | cons b rest ih =>
    rw [xferBits, xferBit_retime]
    exact ih _ _

@[simp] theorem xfer_retime (P : Profile) (b : Byte) :
    xfer P b (s.retime d) = ((xfer P b s).1, (xfer P b s).2.retime d) := xferBits_retime d s P _ _

@[simp] theorem xferFrame_retime (P : Profile) (c0 c1 c2 c3 : Byte) :
    xferFrame P c0 c1 c2 c3 (s.retime d) =
      ((xferFrame P c0 c1 c2 c3 s).1, (xferFrame P c0 c1 c2 c3 s).2.retime d) := by
  simp [xferFrame]

@[simp] theorem ispConclude_retime (e : Echoes) : ispConclude e (s.retime d) = (ispConclude e s).retime d := by
  rw [ispConclude_eq, ispConclude_eq]
  rfl

@[simp] theorem ispEnter_retime (P : Profile) : ispEnter P (s.retime d) = (ispEnter P s).retime d := by
  simp [ispEnter, ispHandshake]

theorem ispRead_retime (P : Profile) (a : Arg) :
    ispRead P a (s.retime d) = ((ispRead P a s).1, (ispRead P a s).2.retime d) := by
  simp [ispRead]

/-! The parallel read. -/

theorem samplePins_retime (P : Profile) (ks : List Nat) (b : Byte) :
    samplePins P ks b (s.retime d) = ((samplePins P ks b s).1, (samplePins P ks b s).2.retime d) := by
  induction ks generalizing b s with
  | nil => rfl
  | cons k rest ih =>
    rw [samplePins, pinGet_retime]
    exact ih _ _

theorem sampleByte_retime (P : Profile) :
    sampleByte P (s.retime d) = ((sampleByte P s).1, (sampleByte P s).2.retime d) := samplePins_retime d s P _ _

/-- Whether two passes agree is a matter of their bytes alone, so both loops take as many passes (R184). -/
theorem converge_retime (P : Profile) (n : Nat) (prev : Byte) :
    converge P n prev (s.retime d) = ((converge P n prev s).1, (converge P n prev s).2.retime d) := by
  induction n generalizing prev s with
  | zero => rfl
  | succ m ih =>
    rw [converge, converge, sampleByte_retime]
    split
    · rfl
    · exact ih _ _

theorem parallelRead_retime (P : Profile) (a : Arg) :
    parallelRead P a (s.retime d) = ((parallelRead P a s).1, (parallelRead P a s).2.retime d) := by
  simp [parallelRead, sampleByte_retime, converge_retime]

@[simp] theorem readByte_retime (P : Profile) (a : Arg) :
    readByte P a (s.retime d) = ((readByte P a s).1, (readByte P a s).2.retime d) := by
  unfold readByte
  split
  · exact ispRead_retime d s P a
  · exact parallelRead_retime d s P a

/-! Every request. -/

/-- Both blocks have the same active profile, or neither has one. -/
theorem withProfile_retime {f g : Profile → Out} (h : ∀ P, f P = Out.retime (g P) d) :
    (s.retime d).withProfile f = Out.retime (s.withProfile g) d := by
  cases hP : s.profile? with
  | none =>
    rw [withProfile_none s g hP, withProfile_none (s.retime d) f hP]
    rfl
  | some P =>
    rw [withProfile_some s g P hP, withProfile_some (s.retime d) f P hP]
    exact h P

/-- A check that reads no duration goes the same way in both blocks. -/
theorem ite_retime {c : Prop} [Decidable c] {a b a' b' : Out} (ha : a' = Out.retime a d) (hb : b' = Out.retime b d) :
    (if c then a' else b') = Out.retime (if c then a else b) d := by
  rw [apply_ite (Out.retime · d), ha, hb]

/-- Building the block with other durations and running a request on it commute. -/
theorem exec_retime (i : Instr) : exec i (s.retime d) = Out.retime (exec i s) d := by
  cases i with
  | tristate => simp [exec, execTristate]
  | select idx => exact ite_retime d rfl (ite_retime d rfl rfl)
  | setup =>
    exact ite_retime d rfl (withProfile_retime d s fun P =>
      ite_retime d rfl (ite_retime d (by simp) (by simp)))
  | read a => exact ite_retime d rfl (withProfile_retime d s fun P => by simp)
  | ispProbe => exact withProfile_retime d s fun P => ite_retime d (by simp) rfl
  | ispXfer b => exact withProfile_retime d s fun P => ite_retime d (by simp) rfl
  | ispClock n => exact withProfile_retime d s fun P => ite_retime d (by simp) rfl
  | xlate k => exact withProfile_retime d s fun P => ite_retime d rfl rfl

end

/-- Settles O46: the outcome of a request on the retimed block is the retimed outcome. -/
theorem durationsDoNotMatter : Obligations.DurationsDoNotMatter := by
  intro i s t settle ispSettle spin edge h
  have hr := exec_retime ⟨settle, ispSettle, spin, edge⟩ s i
  rw [h] at hr
  exact hr

end Sys2Proof.Machine
end
